-- ==== Sys2Proof/Word.lean ====
section
/-! DEFINITION. The words and bytes C7GD's streams are made of (00_scope R21, R28; 20_memory R82). -/

namespace Sys2Proof

/-- A word of `cmd_in` or `rsp_out` (R28). -/
abbrev Word := BitVec 32

/-- A byte of a frame, a payload or a remainder (R23). -/
abbrev Byte := BitVec 8

/-- `popcount(v)`: the number of one bits (R21). -/
def popcount {w : Nat} (v : BitVec w) : Nat :=
  (List.range w).countP fun i => v.getLsbD i

end Sys2Proof
end

