-- ==== Sys2Proof/Config.lean ====
section
/-! DEFINITION. The implementation parameters a model of C7GD takes (00_scope R8 to R20).
The fixed ones are constants here; the OPEN ones are the fields of `Config`. -/

namespace Sys2Proof

/-- Twelve rows of twelve bits: `G_P` or `H_P` (R8, R9). -/
abbrev Rows := Vector (BitVec 12) 12

/-- `TABLE_BUILD` (R19). -/
inductive TableBuild
  | rom    -- the tables are constants and are ready at reset
  | build  -- the tables are filled after reset (70_reset_and_hazards R371)
  deriving DecidableEq, Repr

/-- The OPEN parameters. They never change while the block runs. `H_P` is no field: R9 fixes it as the
transpose of `G_P`. -/
structure Config where
  /-- `G_P[0..11]` (R8). -/
  gP : Rows
  /-- `TABLE_BUILD` (R19). -/
  tableBuild : TableBuild
  /-- The build time of R371, in steps of this model: unspecified and finite (93 U7). -/
  buildSteps : Nat
  /-- `PTFR_LEN_RESET` (R16). -/
  ptfrLenReset : Nat
  /-- `FILL_CODE_RESET` (R17). -/
  fillCodeReset : Nat
  /-- `MAX_RECORD_BYTES` (R18). -/
  maxRecordBytes : Nat
  deriving DecidableEq, Repr

/-- `MAX_PTDP_PAYLOAD` (R12). -/
abbrev maxPtdpPayload : Nat := 2048

/-- `PTDP_HDR_BYTES` (R13). -/
abbrev ptdpHdrBytes : Nat := 6

/-- `PTFR_HDR_BYTES` (R13). -/
abbrev ptfrHdrBytes : Nat := 4

/-- `OFFSET_NONE` (R14). -/
abbrev offsetNone : BitVec 11 := 0x7FF

/-- `PTFR_LEN_MIN` (R15). -/
abbrev ptfrLenMin : Nat := 5

/-- `PTFR_LEN_MAX` (R15). -/
abbrev ptfrLenMax : Nat := 2051

/-- `REM_CAP` (R20). -/
abbrev remCap : Nat := 2053

/-- The upper end of the range of `MAX_RECORD_BYTES` (R18). -/
abbrev recordBytesLimit : Nat := 1048575

end Sys2Proof
end

