-- ==== Sys2Proof/Machine/Params.lean ====
section
/-! DEFINITION. The one configuration `State.reset` starts from. Every OPEN parameter that the spec gives no
value has a value named in the assumption log (notes/assumptions/2 to 6); every meaning reads the configuration of the state
it runs in, so nothing but `State.reset` depends on these values. -/

namespace Sys2Proof

/-- The default `G_P` of 00_scope R8. -/
def Config.defaultGP : Rows :=
  #v[0xC75, 0x49F, 0xD4B, 0x6E3, 0x9B3, 0xB66, 0xECC, 0x1ED, 0x3DA, 0x7B4, 0xB1D, 0xE3A]

/-- The configuration of `State.reset`: the default `G_P` (R8) and `FILL_CODE_RESET` (R17); the others are a DESIGN CHOICE:
the values 95_test_vectors section 0 states its vectors for. -/
def Config.standard : Config where
  gP := Config.defaultGP
  tableBuild := .rom
  buildSteps := 0
  ptfrLenReset := 24
  fillCodeReset := 0
  maxRecordBytes := 1048575

end Sys2Proof
end

