-- ==== Sys2Proof/Syntax.lean ====
section
/-! DEFINITION. The eight commands (30_encoding R112, R113), one constructor per row of the opcode table.
A constructor carries every bit of its command's words, the reserved ARG bits among them: R116 gives a command
whose reserved bits are not zero an effect of its own. -/

namespace Sys2Proof

/-- A command. `rsv` is the field of reserved ARG bits (R112). -/
inductive Instr
  /-- NOP, OP 0x00 (R300). -/
  | nop (rsv : BitVec 24)
  /-- GENC m12, OP 0x01 (R162): `rsv` is ARG[23:12], `m` is ARG[11:0]. -/
  | genc (rsv : BitVec 12) (m : BitVec 12)
  /-- GDEC r24, OP 0x02 (R163). -/
  | gdec (r : BitVec 24)
  /-- GERR r24, OP 0x03 (R164). -/
  | gerr (r : BitVec 24)
  /-- FRAME b0 b1 ..., OP 0x10 (R212): `f` is the L frame bytes of the trailing words (R115). -/
  | frame (rsv : BitVec 24) (f : List Byte)
  /-- SRST, OP 0x11 (R301). -/
  | srst (rsv : BitVec 24)
  /-- CSRR a8, OP 0x20 (R302): `rsv` is ARG[23:8], `a` is ARG[7:0]. -/
  | csrr (rsv : BitVec 16) (a : BitVec 8)
  /-- CSRW a8, v32, OP 0x21 (R303): `v` is the trailing word. -/
  | csrw (rsv : BitVec 16) (a : BitVec 8) (v : Word)
  deriving DecidableEq, Repr

end Sys2Proof
end

