-- ==== Sys2Proof/WellFormed.lean ====
section
/-! DEFINITION. Which command terms are well formed: every reserved ARG bit is 0 (30_encoding R116, R130) and a
FRAME carries a legal number of frame bytes (00_scope R15, 41_ptfr_parser R200). -/

namespace Sys2Proof

/-- Every reserved ARG bit is 0 (R116). -/
def Instr.reservedZero : Instr → Bool
  | .nop rsv => rsv == 0
  | .genc rsv _ => rsv == 0
  | .gdec _ => true
  | .gerr _ => true
  | .frame rsv _ => rsv == 0
  | .srst rsv => rsv == 0
  | .csrr rsv _ => rsv == 0
  | .csrw rsv _ _ => rsv == 0

/-- A FRAME carries 5 to 2051 bytes (R15). -/
def Instr.lengthLegal : Instr → Bool
  | .nop _ => true
  | .genc _ _ => true
  | .gdec _ => true
  | .gerr _ => true
  | .frame _ f => ptfrLenMin ≤ f.length && f.length ≤ ptfrLenMax
  | .srst _ => true
  | .csrr _ _ => true
  | .csrw _ _ _ => true

/-- Well formed: what a line of the assembler (R130) stands for. -/
def Instr.wellFormed (i : Instr) : Bool :=
  i.reservedZero && i.lengthLegal

/-- A FRAME carries exactly `len` bytes, where `len` is the PTFR_LEN value in effect (R86, R114). -/
def Instr.fits (len : Nat) : Instr → Prop
  | .nop _ => True
  | .genc _ _ => True
  | .gdec _ => True
  | .gerr _ => True
  | .frame _ f => f.length = len
  | .srst _ => True
  | .csrr _ _ => True
  | .csrw _ _ _ => True

end Sys2Proof
end

