-- ==== Sys2Proof/Decode.lean ====
section
/-! DEFINITION. From command words to a command and back (30_encoding R110 to R117), with the big-endian byte
packing both directions use (20_memory R82). Decoding is total: a word sequence is a command, an illegal head word,
or the beginning of a command whose words have not all arrived. -/

namespace Sys2Proof

/-! ## Byte packing (R82, R115, R128) -/

/-- The four bytes of a word, first byte from bits [31:24] (R82). -/
def bytesOfWord (w : Word) : List Byte :=
  [w.extractLsb' 24 8, w.extractLsb' 16 8, w.extractLsb' 8 8, w.extractLsb' 0 8]

/-- The word of four bytes, the first in bits [31:24] (R82). -/
def wordOfBytes (a b c d : Byte) : Word :=
  a ++ b ++ c ++ d

/-- All bytes of a word sequence, in order (R82). -/
def unpackBytes : List Word → List Byte
  | [] => []
  | w :: ws => bytesOfWord w ++ unpackBytes ws

/-- Bytes into words; a final partial word is padded with zero bytes (R82, R128). -/
def packBytes : List Byte → List Word
  | [] => []
  | [a] => [wordOfBytes a 0 0 0]
  | [a, b] => [wordOfBytes a b 0 0]
  | [a, b, c] => [wordOfBytes a b c 0]
  | a :: b :: c :: d :: rest => wordOfBytes a b c d :: packBytes rest

/-! ## The opcode map (R112) -/

/-- The legal opcodes (R112). -/
inductive Opcode
  | nop | genc | gdec | gerr | frame | srst | csrr | csrw
  deriving DecidableEq, Repr

/-- The OP value of an opcode (R112). -/
def Opcode.code : Opcode → BitVec 8
  | .nop => 0x00
  | .genc => 0x01
  | .gdec => 0x02
  | .gerr => 0x03
  | .frame => 0x10
  | .srst => 0x11
  | .csrr => 0x20
  | .csrw => 0x21

/-- The opcode of an OP value; `none` for the 248 illegal values (R117). -/
def opcodeOf (op : BitVec 8) : Option Opcode :=
  match op.toNat with
  | 0x00 => some .nop
  | 0x01 => some .genc
  | 0x02 => some .gdec
  | 0x03 => some .gerr
  | 0x10 => some .frame
  | 0x11 => some .srst
  | 0x20 => some .csrr
  | 0x21 => some .csrw
  | _ => none

/-- OP, bits [31:24] of a head word (R111). -/
def headOp (h : Word) : BitVec 8 := h.extractLsb' 24 8

/-- ARG, bits [23:0] of a head word (R111). -/
def headArg (h : Word) : BitVec 24 := h.extractLsb' 0 24

/-- `ceil(n/4)`: the number of words that `n` bytes take (R82). -/
def wordsFor (n : Nat) : Nat := (n + 3) / 4

/-- `T`, the number of trailing words of an opcode while PTFR_LEN holds `len` (R114). -/
def trailingWords (len : Nat) : Opcode → Nat
  | .nop => 0
  | .genc => 0
  | .gdec => 0
  | .gerr => 0
  | .frame => wordsFor len
  | .srst => 0
  | .csrr => 0
  | .csrw => 1

/-- How many words the command of head word `h` has; an illegal head word is a 1-word command (R114, R117, R129). -/
def commandLength (len : Nat) (h : Word) : Nat :=
  match opcodeOf (headOp h) with
  | some o => 1 + trailingWords len o
  | none => 1

/-! ## Decoding -/

/-- What a word sequence begins with. -/
inductive Decoded
  /-- A whole command, and the words after it. -/
  | command (i : Instr) (rest : List Word)
  /-- A head word with an OP outside the opcode map, and the words after it (R117). -/
  | illegal (op : BitVec 8) (rest : List Word)
  /-- No head word, or a head word some of whose trailing words have not arrived (R65). -/
  | incomplete
  deriving DecidableEq, Repr

/-- The command of an opcode, its ARG and its `T` trailing words (R112, R113, R115). -/
def commandOf (len : Nat) (o : Opcode) (arg : BitVec 24) (trail : List Word) : Instr :=
  match o with
  | .nop => .nop arg
  | .genc => .genc (arg.extractLsb' 12 12) (arg.extractLsb' 0 12)
  | .gdec => .gdec arg
  | .gerr => .gerr arg
  | .frame => .frame arg ((unpackBytes trail).take len)
  | .srst => .srst arg
  | .csrr => .csrr (arg.extractLsb' 8 16) (arg.extractLsb' 0 8)
  | .csrw => .csrw (arg.extractLsb' 8 16) (arg.extractLsb' 0 8) (trail.getD 0 0)

/-- Decode one command while PTFR_LEN holds `len` (R110, R114, R117). -/
def decode (len : Nat) : List Word → Decoded
  | [] => .incomplete
  | h :: ws =>
    match opcodeOf (headOp h) with
    | none => .illegal (headOp h) ws
    | some o =>
      if ws.length < trailingWords len o then .incomplete
      else .command (commandOf len o (headArg h) (ws.take (trailingWords len o))) (ws.drop (trailingWords len o))

/-! ## Encoding (R130) -/

/-- A head word (R111). -/
def headWord (o : Opcode) (arg : BitVec 24) : Word := o.code ++ arg

/-- The opcode of a command (R112). -/
def Instr.opcode : Instr → Opcode
  | .nop _ => .nop
  | .genc _ _ => .genc
  | .gdec _ => .gdec
  | .gerr _ => .gerr
  | .frame _ _ => .frame
  | .srst _ => .srst
  | .csrr _ _ => .csrr
  | .csrw _ _ _ => .csrw

/-- The ARG field of a command, its reserved bits included (R112). -/
def Instr.arg : Instr → BitVec 24
  | .nop rsv => rsv
  | .genc rsv m => rsv ++ m
  | .gdec r => r
  | .gerr r => r
  | .frame rsv _ => rsv
  | .srst rsv => rsv
  | .csrr rsv a => rsv ++ a
  | .csrw rsv a _ => rsv ++ a

/-- The trailing words of a command: FRAME's bytes packed, with pad bytes 0 (R115), and CSRW's data word. -/
def Instr.trail : Instr → List Word
  | .nop _ => []
  | .genc _ _ => []
  | .gdec _ => []
  | .gerr _ => []
  | .frame _ f => packBytes f
  | .srst _ => []
  | .csrr _ _ => []
  | .csrw _ _ v => [v]

/-- The words of a command: its head word, then its trailing words (R130). -/
def encode (i : Instr) : List Word := headWord i.opcode i.arg :: i.trail

/-! ## The opcode table's numbering -/

/-- Word `k` of the number `w`, whose bit 0 is the least significant bit of the first word. -/
def tableWord (w k : Nat) : Word := BitVec.ofNat 32 (w >>> (32 * k))

/-- The words of the command that begins with the low `nbits` bits of `w`, all higher bits 0, while PTFR_LEN
holds `len`: the head word and exactly its trailing words. -/
def tableWords (len nbits w : Nat) : List Word :=
  (List.range (commandLength len (tableWord (w % 2 ^ nbits) 0))).map (tableWord (w % 2 ^ nbits))

/-- The command this decoder reads from a table row's bits, with PTFR_LEN at its reset value (24, notes/assumptions/2). -/
def decodeTableWord (nbits w : Nat) : Option Instr :=
  match decode Config.standard.ptfrLenReset (tableWords Config.standard.ptfrLenReset nbits w) with
  | .command i _ => some i
  | .illegal _ _ => none
  | .incomplete => none

end Sys2Proof
end

