-- ==== Sys2Proof/Machine/State.lean ====
section
/-! DEFINITION. The architectural state of C7GD (10_state R30 to R66), the reasons a step can stop, and reset
(70_reset_and_hazards R370). -/

namespace Sys2Proof.Machine

/-- The Golay table store with `TABLES_READY` (10_state R33, R34). Once built, the tables hold the contents
40_golay R152 to R156 define (Machine/Golay.lean: `encT`, `synT`, `corT`, `errT`); while they are building nothing reads
them (93 U6). -/
inductive GuTables
  /-- `TABLES_READY = 0`; the build of R371 ends at the beginning of the step after `left` more steps. -/
  | building (left : Nat)
  /-- `TABLES_READY = 1`. -/
  | built
  deriving DecidableEq, Repr

/-- `rem_kind` (10_state R55). -/
inductive RemKind
  | none | empty | bytes
  deriving DecidableEq, Repr

/-- `parse_state` (10_state R57). -/
inductive ParseState
  | aligned | waitMore | resync
  deriving DecidableEq, Repr

/-- A reassembly context `ctx[t]` (10_state R61). -/
structure Context where
  active : Bool
  content : BitVec 4
  buf : List Byte
  deriving DecidableEq, Repr

/-- A context after reset or SRST (10_state R61). -/
def Context.idle : Context := ⟨false, 0, []⟩

/-- A latency class: HL is class 0, LLP is class 1 (00_scope R27, 42_reassembly R270). -/
inductive Latency
  | hl | ll
  deriving DecidableEq, Repr

/-- The six counters (10_state R47), each modulo 2^32. -/
structure Counters where
  frames : Word
  ptdps : Word
  records : Word
  corrBits : Word
  uncorr : Word
  lenErr : Word
  deriving DecidableEq, Repr

/-- All counters 0 (10_state R47, R48). -/
def Counters.zero : Counters := ⟨0, 0, 0, 0, 0, 0⟩

/-- The state of the block (10_state R30), with the words the host has put on `cmd_in` and the configuration. -/
structure State where
  /-- The implementation parameters (00_scope R8 to R19). No step changes them (notes/assumptions/1). -/
  cfg : Config
  /-- The Golay tables and `TABLES_READY` (R33, R34). -/
  tables : GuTables
  /-- CTRL bits [4:0] (R41). -/
  ctrl : BitVec 5
  /-- PTFR_LEN bits [11:0] (R43). -/
  ptfrLen : BitVec 12
  /-- FILL_CODE bits [3:0] (R44). -/
  fillCode : BitVec 4
  /-- EVT_PENDING (R45). -/
  evtPending : Word
  /-- EVT_ENABLE (R46). -/
  evtEnable : Word
  /-- CNT_FRAMES to CNT_LEN_ERR (R47). -/
  counters : Counters
  /-- `rem_kind` (R55). -/
  remKind : RemKind
  /-- `rem` (R56). -/
  rem : List Byte
  /-- `parse_state` (R57). -/
  parseState : ParseState
  /-- `llp_pending` (R58). -/
  llpPending : Bool
  /-- `ctx[0]`, for HL PTDPs (R61). -/
  ctxHl : Context
  /-- `ctx[1]`, for LLP PTDPs (R61). -/
  ctxLl : Context
  /-- The words of the command being received, not yet executed (R65). -/
  cmdPart : List Word
  /-- The words on `cmd_in` the block has not taken, oldest first (00_scope R28). -/
  cmdIn : List Word
  /-- The response words emitted and not yet taken by the host, oldest first (R66). -/
  rspOut : List Word
  deriving DecidableEq, Repr

/-- Why a step stops with a fault. The spec has none (60_exceptions R337): this one only closes `exec` over terms
that are no command. -/
inductive Fault
  /-- Raised by `execFrame`, and by nothing else, on a FRAME term whose byte count is outside 5..2051 (00_scope R15). Safe: decoding
  makes no such term while PTFR_LEN is legal, which `State.Inv` says and every step keeps (notes/assumptions/16). -/
  | illFormedFrame
  deriving DecidableEq, Repr

/-- Why the model declines. -/
inductive Refusal
  /-- Raised by an arm of `exec` whose instruction has no meaning yet (no arm does so now). Safe. -/
  | notModelled (mnemonic : String)
  /-- Raised by `instantiate` for a configuration that 70_reset_and_hazards R380 refuses; never by a step. Safe. -/
  | badConfiguration
  deriving DecidableEq, Repr

/-- The table store after reset (10_state R34). -/
def GuTables.atReset (c : Config) : GuTables :=
  match c.tableBuild with
  | .rom => .built
  | .build => .building c.buildSteps

/-- The state after reset under a configuration (70_reset_and_hazards R370). -/
def State.resetWith (c : Config) : State where
  cfg := c
  tables := GuTables.atReset c
  ctrl := 0x15
  ptfrLen := BitVec.ofNat 12 c.ptfrLenReset
  fillCode := BitVec.ofNat 4 c.fillCodeReset
  evtPending := 0
  evtEnable := 0
  counters := Counters.zero
  remKind := .none
  rem := []
  parseState := .aligned
  llpPending := false
  ctxHl := Context.idle
  ctxLl := Context.idle
  cmdPart := []
  cmdIn := []
  rspOut := []

/-- The machine right after reset, in the configuration the log names (notes/assumptions/2 to 6). -/
def State.reset : State := State.resetWith Config.standard

end Sys2Proof.Machine
end

