-- ==== Sys2Proof/Machine/Operands.lean ====
section
/-! DEFINITION. The operand forms inside a frame (41_ptfr_parser R200 to R206, 20_memory R81) and the response words
(30_encoding R118 to R128). -/

namespace Sys2Proof.Machine

/-! ## Wire formats -/

/-- The byte slice `B[i:j]` (00_scope R23). -/
def slice (b : List Byte) (i j : Nat) : List Byte := (b.take j).drop i

/-- Byte `i` of a sequence; the rules read only bytes that are there. -/
def byteAt (b : List Byte) (i : Nat) : Byte := b.getD i 0

/-- The big-endian codeword `{B[i], B[i+1], B[i+2]}` (20_memory R81). -/
def codewordAt (b : List Byte) (i : Nat) : BitVec 24 :=
  byteAt b i ++ byteAt b (i + 1) ++ byteAt b (i + 2)

/-- The three bytes of a codeword in stream order (20_memory R81). -/
def bytesOfCodeword (r : BitVec 24) : List Byte :=
  [r.extractLsb' 16 8, r.extractLsb' 8 8, r.extractLsb' 0 8]

/-- `llp = w0[11]` (R201). -/
def llpOf (w0 : BitVec 12) : Bool := w0.getLsbD 11

/-- `off = w0[10:0]` (R201). -/
def offOf (w0 : BitVec 12) : BitVec 11 := w0.extractLsb' 0 11

/-- The fragment states (R206). -/
inductive Fragment
  | complete | first | middle | last
  deriving DecidableEq, Repr

/-- The code of a fragment state (R206). -/
def Fragment.code : Fragment → BitVec 2
  | .complete => 0
  | .first => 1
  | .middle => 2
  | .last => 3

/-- The fragment state of a code (R206). -/
def fragmentOf (c : BitVec 2) : Fragment :=
  match c.toNat with
  | 0 => .complete
  | 1 => .first
  | 2 => .middle
  | _ => .last

/-- The fields of a PTDP header (R204). -/
structure PtdpHeader where
  fragment : Fragment
  content : BitVec 4
  reserved : BitVec 2
  length : BitVec 16
  deriving DecidableEq, Repr

/-- The header fields of the two decoded words: `w1 = {length_lo, fragment, content, reserved}` and
`length = {w2, length_lo}` (R204). -/
def headerOf (w1 w2 : BitVec 12) : PtdpHeader where
  fragment := fragmentOf (w1.extractLsb' 6 2)
  content := w1.extractLsb' 2 4
  reserved := w1.extractLsb' 0 2
  length := w2 ++ w1.extractLsb' 8 4

/-- The first data word of a header (R204). -/
def PtdpHeader.word1 (h : PtdpHeader) : BitVec 12 :=
  h.length.extractLsb' 0 4 ++ h.fragment.code ++ h.content ++ h.reserved

/-- The second data word of a header (R204). -/
def PtdpHeader.word2 (h : PtdpHeader) : BitVec 12 := h.length.extractLsb' 4 12

/-! ## Response words -/

/-- One bit. -/
def bit (b : Bool) : BitVec 1 := BitVec.ofBool b

/-- The class bit `t`: 0 HL, 1 LLP (R124, R125). -/
def Latency.bit : Latency → BitVec 1
  | .hl => 0
  | .ll => 1

/-- STATUS and FRAME_DONE code of a remainder kind (R126, 10_state R42). -/
def RemKind.code : RemKind → BitVec 2
  | .none => 0
  | .empty => 1
  | .bytes => 2

/-- STATUS and FRAME_DONE code of a parser state (R126, 10_state R42). -/
def ParseState.code : ParseState → BitVec 2
  | .aligned => 0
  | .waitMore => 1
  | .resync => 2

/-- GENC_RSP (R119). -/
def gencRsp (c : BitVec 24) : Word := 0x81#8 ++ c

/-- GDEC_RSP (R120). -/
def gdecRsp (e : BitVec 3) (d : BitVec 12) : Word := 0x82#8 ++ 0#9 ++ e ++ d

/-- GERR_RSP (R121). -/
def gerrRsp (e : BitVec 3) : Word := 0x83#8 ++ 0#21 ++ e

/-- The first word of CSRR_RSP (R122). -/
def csrrHead (a : BitVec 8) : Word := 0xC0#8 ++ 0#16 ++ a

/-- PTFR_HDR (R123). -/
def ptfrHdr (f0 : Byte) (llp : Bool) (e0 : BitVec 3) (off : BitVec 11) : Word :=
  0x98#8 ++ f0 ++ bit llp ++ e0 ++ 0#1 ++ off

/-- The head word of a PTDP response (R124): the tag is 0x90 with the class bit as its lowest bit. -/
def ptdpHead (t : Latency) (h : PtdpHeader) : Word :=
  0x48#7 ++ t.bit ++ h.fragment.code ++ h.content ++ h.reserved ++ h.length

/-- A PTDP response: its head word and its payload words (R124, R128). -/
def ptdpRsp (t : Latency) (h : PtdpHeader) (data : List Byte) : List Word :=
  ptdpHead t h :: packBytes data

/-- The head word of a RECORD response (R125): the tag is 0xB0 with the class bit as its lowest bit. -/
def recordHead (t : Latency) (content : BitVec 4) (n : Nat) : Word :=
  0x58#7 ++ t.bit ++ content ++ BitVec.ofNat 20 n

/-- A RECORD response: its head word and its payload words (R125, R128). -/
def recordRsp (t : Latency) (content : BitVec 4) (bytes : List Byte) : List Word :=
  recordHead t content bytes.length :: packBytes bytes

/-- FRAME_DONE (R126). -/
def frameDoneRsp (p : ParseState) (k : RemKind) (llpPending : Bool) (remLen : Nat) : Word :=
  0x9F#8 ++ p.code ++ k.code ++ bit llpPending ++ 0#7 ++ BitVec.ofNat 12 remLen

/-- EVT (R127). -/
def evtRsp (code : BitVec 8) (info : BitVec 16) : Word := 0xE0#8 ++ code ++ info

end Sys2Proof.Machine
end

