-- ==== Sys2Proof/Machine/Flags.lean ====
section
/-! DEFINITION. C7GD has no condition flags (10_state R67). What stands here is what other machines call status: the
CTRL bits (R41), the STATUS view (R42), the events with their codes and pending bits (60_exceptions R331), and `irq` (R50). -/

namespace Sys2Proof.Machine

/-! ## CTRL (R41) -/

/-- CTRL.PTDP_OUT_EN. -/
def State.ptdpOutEn (s : State) : Bool := s.ctrl.getLsbD 0
/-- CTRL.REC_OUT_EN. -/
def State.recOutEn (s : State) : Bool := s.ctrl.getLsbD 1
/-- CTRL.EVT_OUT_EN. -/
def State.evtOutEn (s : State) : Bool := s.ctrl.getLsbD 2
/-- CTRL.GFAIL_RESYNC. -/
def State.gfailResync (s : State) : Bool := s.ctrl.getLsbD 3
/-- CTRL.OFFCHK_EN. -/
def State.offchkEn (s : State) : Bool := s.ctrl.getLsbD 4

/-! ## STATUS (R42) -/

/-- `TABLES_READY` (R34). -/
def State.tablesReady (s : State) : Bool :=
  match s.tables with
  | .building _ => false
  | .built => true

/-- STATUS, a live view: `{0, REM_LEN, FRAG_ACTIVE_LL, FRAG_ACTIVE_HL, LLP_PENDING, REM_KIND, PARSE_STATE, TABLES_READY}` (R42). -/
def State.status (s : State) : Word :=
  0#12 ++ BitVec.ofNat 12 s.rem.length ++ bit s.ctxLl.active ++ bit s.ctxHl.active ++ bit s.llpPending
    ++ s.remKind.code ++ s.parseState.code ++ bit s.tablesReady

/-! ## Events (60_exceptions R330, R331) -/

/-- The sixteen events (R331). -/
inductive Event
  | illegalCmd | reservedNonzero | csrWriteIgnored | csrUnimpl
  | ptdpLengthError | ptdpIncomplete | golayUncorrectable | offsetMismatch | offsetOutOfRange
  | badLlpMarker | missingLlpMarker | llpStateMismatch | llpIncomplete
  | fragOrphan | fragAbandoned | recordOverflow
  deriving DecidableEq, Repr

/-- The code of an event (R331). -/
def Event.code : Event → BitVec 8
  | .illegalCmd => 0x01
  | .reservedNonzero => 0x02
  | .csrWriteIgnored => 0x03
  | .csrUnimpl => 0x04
  | .ptdpLengthError => 0x10
  | .ptdpIncomplete => 0x11
  | .golayUncorrectable => 0x12
  | .offsetMismatch => 0x13
  | .offsetOutOfRange => 0x14
  | .badLlpMarker => 0x15
  | .missingLlpMarker => 0x16
  | .llpStateMismatch => 0x17
  | .llpIncomplete => 0x18
  | .fragOrphan => 0x20
  | .fragAbandoned => 0x21
  | .recordOverflow => 0x22

/-- The bit of an event in EVT_PENDING and EVT_ENABLE (R331). -/
def Event.bit : Event → Nat
  | .illegalCmd => 0
  | .reservedNonzero => 1
  | .csrWriteIgnored => 2
  | .csrUnimpl => 3
  | .ptdpLengthError => 8
  | .ptdpIncomplete => 9
  | .golayUncorrectable => 10
  | .offsetMismatch => 11
  | .offsetOutOfRange => 12
  | .badLlpMarker => 13
  | .missingLlpMarker => 14
  | .llpStateMismatch => 15
  | .llpIncomplete => 16
  | .fragOrphan => 17
  | .fragAbandoned => 18
  | .recordOverflow => 19

/-- The implemented bits of EVT_PENDING and EVT_ENABLE (10_state R45, R46). -/
def evtMask : Word := 0x000FFF0F

/-- `irq`, a level that is no state (10_state R50, 60_exceptions R335). -/
def State.irq (s : State) : Bool := s.evtPending &&& s.evtEnable != 0

end Sys2Proof.Machine
end

