-- ==== Sys2Proof/Machine/Golay.lean ====
section
/-! DEFINITION. The Golay unit: the tables and functions of 40_golay R150 to R158, as functions of the rows `G_P`
(R150: no other parameter affects any GU result). -/

namespace Sys2Proof.Machine

/-- The exclusive or of the rows `rs[k]` for which bit `i + k` of `v` is 1. -/
def mulRows (v : BitVec 12) : Nat → List (BitVec 12) → BitVec 12
  | _, [] => 0
  | i, r :: rs => (if v.getLsbD i then r else 0) ^^^ mulRows v (i + 1) rs

/-- `mulM(v, M)`: row `M[i]` multiplies bit i of `v`, bit 0 the least significant (00_scope R10, R22). -/
def mulM (v : BitVec 12) (m : Rows) : BitVec 12 := mulRows v 0 m.toList

/-- Column `j` of a list of rows, row `k` giving bit `i + k`. -/
def columnBits (j : Nat) : Nat → List (BitVec 12) → BitVec 12
  | _, [] => 0
  | i, r :: rs => (if r.getLsbD j then BitVec.twoPow 12 i else 0) ||| columnBits j (i + 1) rs

/-- `H_P` of `G_P`: its transpose (00_scope R9). -/
def hPOf (g : Rows) : Rows :=
  #v[columnBits 0 0 g.toList, columnBits 1 0 g.toList, columnBits 2 0 g.toList, columnBits 3 0 g.toList,
     columnBits 4 0 g.toList, columnBits 5 0 g.toList, columnBits 6 0 g.toList, columnBits 7 0 g.toList,
     columnBits 8 0 g.toList, columnBits 9 0 g.toList, columnBits 10 0 g.toList, columnBits 11 0 g.toList]

/-- `par(d)` (R151). -/
def par (g : Rows) (d : BitVec 12) : BitVec 12 := mulM d g

/-- `ENC_T[d]`: data in the high half, parity in the low half (R152). -/
def encT (g : Rows) (d : BitVec 12) : BitVec 24 := d ++ par g d

/-- `SYN_T[x]` (R153). -/
def synT (g : Rows) (x : BitVec 12) : BitVec 12 := mulM x (hPOf g)

/-- `r[23:12]`. -/
def dataHalf (r : BitVec 24) : BitVec 12 := r.extractLsb' 12 12

/-- `r[11:0]`. -/
def parityHalf (r : BitVec 24) : BitVec 12 := r.extractLsb' 0 12

/-- `syn(r)` (R154). -/
def syn (g : Rows) (r : BitVec 24) : BitVec 12 := dataHalf r ^^^ synT g (parityHalf r)

/-- The 24 one-bit error patterns, each with its syndrome. -/
def singleFlips (g : Rows) : List (BitVec 24 × BitVec 12) :=
  (List.range 24).map fun i => (BitVec.twoPow 24 i, syn g (BitVec.twoPow 24 i))

/-- Look among the exclusive ors of at most `k` of the given patterns for one of syndrome `s`. `syn` is linear (R154), so
the syndrome of an exclusive or of patterns is that of their syndromes. -/
def findFlips : List (BitVec 24 × BitVec 12) → Nat → BitVec 12 → Option (BitVec 24)
  | [], _, s => if s = 0 then some 0 else none
  | _ :: _, 0, s => if s = 0 then some 0 else none
  | c :: cs, k + 1, s =>
    if s = 0 then some 0 else
    match findFlips cs k (s ^^^ c.2) with
    | some e => some (e ^^^ c.1)
    | none => findFlips cs (k + 1) s

/-- The error pattern of weight at most 3 whose syndrome is `s`, if there is one: the pattern that fills entry `s` of the
correct and error tables (R155, R156). Under a valid parameter set it is the only one (R156, R157). -/
def patternOf (g : Rows) (s : BitVec 12) : Option (BitVec 24) := findFlips (singleFlips g) 3 s

/-- `COR_T[s]` (R155, R156). -/
def corT (g : Rows) (s : BitVec 12) : BitVec 12 :=
  match patternOf g s with
  | some e => dataHalf e
  | none => 0xFFF

/-- `ERR_T[s]` (R155, R156). -/
def errT (g : Rows) (s : BitVec 12) : BitVec 3 :=
  match patternOf g s with
  | some e => BitVec.ofNat 3 (popcount e)
  | none => 4

/-- `gdec(r) = (D, E)` (R158). -/
def gdec (g : Rows) (r : BitVec 24) : BitVec 12 × BitVec 3 :=
  (dataHalf r ^^^ corT g (syn g r), errT g (syn g r))

/-- All 12-bit values. -/
def allData : List (BitVec 12) := (List.range 4096).map (BitVec.ofNat 12)

/-- A valid parameter set: the code has minimum non-zero weight 8, and `H_P` inverts `G_P` (R157). -/
def golayValid (g : Rows) : Bool :=
  (allData.all fun d => d == 0 || 8 ≤ popcount (encT g d)) &&
  (allData.all fun d => mulM (par g d) (hPOf g) == d)

/-- The numeric limits R380 of 70_reset_and_hazards checks. -/
def limitsValid (c : Config) : Bool :=
  (ptfrLenMin ≤ c.ptfrLenReset && c.ptfrLenReset ≤ ptfrLenMax) &&
  (1 ≤ c.maxRecordBytes && c.maxRecordBytes ≤ recordBytesLimit) &&
  (c.fillCodeReset < 16)

/-- A configuration R380 does not refuse. -/
def configValid (c : Config) : Bool := golayValid c.gP && limitsValid c

end Sys2Proof.Machine
end

