-- ==== Sys2Proof/Machine/Ops.lean ====
section
/-! DEFINITION. The named operations the meanings are written over: emitting response words, raising an event (this
block's only exception: 60_exceptions R332, with no return from it, R338), the counters, the reassembly contexts, and
the command interface (10_state R65, 30_encoding R110 to R117, 70_reset_and_hazards R371, R372). -/

namespace Sys2Proof.Machine

/-! ## Responses and events -/

/-- `emit(w)` (00_scope R24). -/
def State.emit (s : State) (w : Word) : State := { s with rspOut := s.rspOut ++ [w] }

/-- Emit words in order. -/
def State.emitAll (s : State) (ws : List Word) : State := { s with rspOut := s.rspOut ++ ws }

/-- `EVT_PENDING[bit(E)] <- 1` (60_exceptions R332). -/
def State.setPending (s : State) (e : Event) : State :=
  { s with evtPending := s.evtPending ||| BitVec.twoPow 32 e.bit }

/-- `raise E(info)` (60_exceptions R332). -/
def State.raise (s : State) (e : Event) (info : BitVec 16) : State :=
  if s.evtOutEn then (s.setPending e).emit (evtRsp e.code info) else s.setPending e

/-! ## Counters (10_state R47) -/

/-- CNT_FRAMES + 1. -/
def State.countFrame (s : State) : State :=
  { s with counters := { s.counters with frames := s.counters.frames + 1 } }

/-- CNT_PTDPS + 1. -/
def State.countPtdp (s : State) : State :=
  { s with counters := { s.counters with ptdps := s.counters.ptdps + 1 } }

/-- CNT_RECORDS + 1. -/
def State.countRecord (s : State) : State :=
  { s with counters := { s.counters with records := s.counters.records + 1 } }

/-- CNT_CORR_BITS + n. -/
def State.countCorrBits (s : State) (n : Word) : State :=
  { s with counters := { s.counters with corrBits := s.counters.corrBits + n } }

/-- CNT_UNCORR + 1. -/
def State.countUncorr (s : State) : State :=
  { s with counters := { s.counters with uncorr := s.counters.uncorr + 1 } }

/-- CNT_LEN_ERR + 1. -/
def State.countLenErr (s : State) : State :=
  { s with counters := { s.counters with lenErr := s.counters.lenErr + 1 } }

/-- `count(E, field)` (41_ptfr_parser R210). -/
def State.countGolay (s : State) (e : BitVec 3) (field : BitVec 16) : State :=
  if e = 4 then s.countUncorr.raise .golayUncorrectable field else s.countCorrBits (e.setWidth 32)

/-! ## Reassembly contexts (10_state R61) -/

/-- `ctx[t]`. -/
def State.ctx (s : State) : Latency → Context
  | .hl => s.ctxHl
  | .ll => s.ctxLl

/-- `ctx[t] <- c`. -/
def State.setCtx (s : State) (t : Latency) (c : Context) : State :=
  match t with
  | .hl => { s with ctxHl := c }
  | .ll => { s with ctxLl := c }

/-! ## The command interface -/

/-- One step of the table build (70_reset_and_hazards R371): it ends, and a built table stays built (10_state R34). -/
def State.buildTick (s : State) : State :=
  match s.tables with
  | .building 0 => { s with tables := .built }
  | .building (n + 1) => { s with tables := .building n }
  | .built => s

/-- Take words from `cmd_in` until the command being received is complete or no word is left (10_state R65, 30_encoding R110);
its length follows PTFR_LEN, which cannot change before the command is complete (30_encoding R114). -/
def State.receive (s : State) : State :=
  match s.cmdPart ++ s.cmdIn with
  | [] => s
  | h :: ws =>
    { s with
      cmdPart := (h :: ws).take (commandLength s.ptfrLen.toNat h)
      cmdIn := (h :: ws).drop (commandLength s.ptfrLen.toNat h) }

/-- The command's words are consumed: it has executed, or it has been rejected (30_encoding R114). -/
def State.retire (s : State) : State := { s with cmdPart := [] }

/-- An illegal head word is consumed and raises ILLEGAL_CMD(OP) (30_encoding R117). -/
def State.rejectIllegal (s : State) (op : BitVec 8) : State :=
  s.retire.raise .illegalCmd (op.setWidth 16)

/-- A command with a reserved ARG bit set is consumed and raises RESERVED_NONZERO(OP) (30_encoding R116). -/
def State.rejectReserved (s : State) (o : Opcode) : State :=
  s.retire.raise .reservedNonzero (o.code.setWidth 16)

/-- The outcome of a command that the table build holds: while `TABLES_READY = 0` it does not start and its words stay
(70_reset_and_hazards R372); the hold comes before any other check (60_exceptions R334). -/
def State.whenReady (s : State) (run : Host.Outcome State Fault Refusal) : Host.Outcome State Fault Refusal :=
  match s.tables with
  | .building _ => .next s
  | .built => run

/-- The outcome of a command after the check of its reserved ARG bits (30_encoding R116). -/
def State.whenReservedZero (s : State) (o : Opcode) (zero : Bool) (run : Host.Outcome State Fault Refusal) :
    Host.Outcome State Fault Refusal :=
  if zero then run else .next (s.rejectReserved o)

end Sys2Proof.Machine
end

