-- ==== Sys2Proof/Machine/Csr.lean ====
section
/-! DEFINITION. The CSR file (10_state R40 to R49): the addresses, what a read gives and what a write does. -/

namespace Sys2Proof.Machine

/-- The implemented CSRs (10_state section 3). -/
inductive Csr
  | id | ctrl | status | ptfrLen | fillCode | evtPending | evtEnable
  | cntFrames | cntPtdps | cntRecords | cntCorrBits | cntUncorr | cntLenErr | cntClr
  deriving DecidableEq, Repr

/-- The address of a CSR (10_state section 3). -/
def Csr.addr : Csr → BitVec 8
  | .id => 0x00
  | .ctrl => 0x01
  | .status => 0x02
  | .ptfrLen => 0x03
  | .fillCode => 0x04
  | .evtPending => 0x08
  | .evtEnable => 0x09
  | .cntFrames => 0x10
  | .cntPtdps => 0x11
  | .cntRecords => 0x12
  | .cntCorrBits => 0x13
  | .cntUncorr => 0x14
  | .cntLenErr => 0x15
  | .cntClr => 0x1F

/-- The CSR at an address; `none` where it is unimplemented (10_state R49). -/
def csrAt (a : BitVec 8) : Option Csr :=
  match a.toNat with
  | 0x00 => some .id
  | 0x01 => some .ctrl
  | 0x02 => some .status
  | 0x03 => some .ptfrLen
  | 0x04 => some .fillCode
  | 0x08 => some .evtPending
  | 0x09 => some .evtEnable
  | 0x10 => some .cntFrames
  | 0x11 => some .cntPtdps
  | 0x12 => some .cntRecords
  | 0x13 => some .cntCorrBits
  | 0x14 => some .cntUncorr
  | 0x15 => some .cntLenErr
  | 0x1F => some .cntClr
  | _ => none

/-- The value CSRR reads (10_state R40 to R48); CNT_CLR reads 0. -/
def State.csrValue (s : State) : Csr → Word
  | .id => 0x47370001
  | .ctrl => s.ctrl.setWidth 32
  | .status => s.status
  | .ptfrLen => s.ptfrLen.setWidth 32
  | .fillCode => s.fillCode.setWidth 32
  | .evtPending => s.evtPending
  | .evtEnable => s.evtEnable
  | .cntFrames => s.counters.frames
  | .cntPtdps => s.counters.ptdps
  | .cntRecords => s.counters.records
  | .cntCorrBits => s.counters.corrBits
  | .cntUncorr => s.counters.uncorr
  | .cntLenErr => s.counters.lenErr
  | .cntClr => 0

/-- A write to a read-only CSR, or of a value PTFR_LEN does not take, raises CSR_WRITE_IGNORED (10_state R40 to R47). -/
def State.csrIgnore (s : State) (c : Csr) : State := s.raise .csrWriteIgnored (c.addr.setWidth 16)

/-- A write to PTFR_LEN takes legal values only (10_state R43). -/
def State.writePtfrLen (s : State) (v : Word) : State :=
  if ptfrLenMin ≤ v.toNat ∧ v.toNat ≤ ptfrLenMax then { s with ptfrLen := v.setWidth 12 } else s.csrIgnore .ptfrLen

/-- What CSRW does to each CSR (43_control R303). -/
def State.csrWrite (s : State) (c : Csr) (v : Word) : State :=
  match c with
  | .id => s.csrIgnore .id
  | .ctrl => { s with ctrl := v.setWidth 5 }
  | .status => s.csrIgnore .status
  | .ptfrLen => s.writePtfrLen v
  | .fillCode => { s with fillCode := v.setWidth 4 }
  | .evtPending => { s with evtPending := s.evtPending &&& ~~~v }
  | .evtEnable => { s with evtEnable := v &&& evtMask }
  | .cntFrames => s.csrIgnore .cntFrames
  | .cntPtdps => s.csrIgnore .cntPtdps
  | .cntRecords => s.csrIgnore .cntRecords
  | .cntCorrBits => s.csrIgnore .cntCorrBits
  | .cntUncorr => s.csrIgnore .cntUncorr
  | .cntLenErr => s.csrIgnore .cntLenErr
  | .cntClr => { s with counters := Counters.zero }

end Sys2Proof.Machine
end

