-- ==== Sys2Proof/Machine/Control.lean ====
section
/-! DEFINITION. The control commands NOP, SRST, CSRR and CSRW (43_control R300 to R303). None is held (R372). -/

namespace Sys2Proof.Machine

/-- NOP (R300). -/
def execNop (rsv : BitVec 24) (s : State) : Host.Outcome State Fault Refusal :=
  s.whenReservedZero .nop (rsv == 0) (.next s.retire)

/-- FP and RA at the start of an analysis (R301). -/
def State.softReset (s : State) : State :=
  { s with
    remKind := .none
    rem := []
    parseState := .aligned
    llpPending := false
    ctxHl := Context.idle
    ctxLl := Context.idle }

/-- SRST (R301). -/
def execSrst (rsv : BitVec 24) (s : State) : Host.Outcome State Fault Refusal :=
  s.whenReservedZero .srst (rsv == 0) (.next s.retire.softReset)

/-- The response of a CSR read: an unimplemented address reads 0 and raises CSR_UNIMPL before the response (R302, 10_state R49). -/
def State.csrRead (s : State) (a : BitVec 8) : State :=
  match csrAt a with
  | some c => s.emitAll [csrrHead a, s.csrValue c]
  | none => (s.raise .csrUnimpl (a.setWidth 16)).emitAll [csrrHead a, 0]

/-- CSRR (R302). -/
def execCsrr (rsv : BitVec 16) (a : BitVec 8) (s : State) : Host.Outcome State Fault Refusal :=
  s.whenReservedZero .csrr (rsv == 0) (.next (s.retire.csrRead a))

/-- The effect of a CSR write at an address (R303, 10_state R49). -/
def State.csrWriteAt (s : State) (a : BitVec 8) (v : Word) : State :=
  match csrAt a with
  | some c => s.csrWrite c v
  | none => s.raise .csrUnimpl (a.setWidth 16)

/-- CSRW (R303). -/
def execCsrw (rsv : BitVec 16) (a : BitVec 8) (v : Word) (s : State) : Host.Outcome State Fault Refusal :=
  s.whenReservedZero .csrw (rsv == 0) (.next (s.retire.csrWriteAt a v))

end Sys2Proof.Machine
end

