-- ==== Sys2Proof/Machine/Reassembly.lean ====
section
/-! DEFINITION. The reassembler RA (42_reassembly R270 to R278). -/

namespace Sys2Proof.Machine

/-- The info of FRAG_ABANDONED: `(t << 15) | min(len(buf), 0x7FFF)` (60_exceptions R331). -/
def abandonInfo (t : Latency) (buf : List Byte) : BitVec 16 := t.bit ++ BitVec.ofNat 15 (min buf.length 0x7FFF)

/-- The info of FRAG_ORPHAN: `(t << 2) | fragment` (R276). -/
def orphanInfo (t : Latency) (fr : Fragment) : BitVec 16 := 0#13 ++ t.bit ++ fr.code

/-- `ctx[t].active <- 0; ctx[t].buf <- empty`; the content code stays. -/
def State.dropChain (s : State) (t : Latency) : State :=
  s.setCtx t { s.ctx t with active := false, buf := [] }

/-- `abandon(t)` (42_reassembly section 2). -/
def State.abandon (s : State) (t : Latency) : State :=
  if (s.ctx t).active then (s.raise .fragAbandoned (abandonInfo t (s.ctx t).buf)).dropChain t else s

/-- `record(t, content, bytes)` (R278). -/
def State.record (s : State) (t : Latency) (content : BitVec 4) (bytes : List Byte) : State :=
  s.countRecord.emitAll (recordRsp t content bytes)

/-- RECORD_OVERFLOW(t) (R277). -/
def State.raiseOverflow (s : State) (t : Latency) : State := s.raise .recordOverflow (t.bit.setWidth 16)

/-- A COMPLETE PTDP (R272). -/
def State.takeComplete (s : State) (t : Latency) (content : BitVec 4) (data : List Byte) : State :=
  if s.cfg.maxRecordBytes < data.length then (s.abandon t).raiseOverflow t
  else (s.abandon t).record t content data

/-- A FIRST PTDP (R273). -/
def State.takeFirst (s : State) (t : Latency) (content : BitVec 4) (data : List Byte) : State :=
  if s.cfg.maxRecordBytes < data.length then (s.abandon t).raiseOverflow t
  else (s.abandon t).setCtx t ⟨true, content, data⟩

/-- A MIDDLE PTDP (R274, R276, R277). -/
def State.takeMiddle (s : State) (t : Latency) (data : List Byte) : State :=
  if (s.ctx t).active then
    if s.cfg.maxRecordBytes < (s.ctx t).buf.length + data.length then (s.raiseOverflow t).dropChain t
    else s.setCtx t { s.ctx t with buf := (s.ctx t).buf ++ data }
  else s.raise .fragOrphan (orphanInfo t .middle)

/-- A LAST PTDP (R275, R276, R277). -/
def State.takeLast (s : State) (t : Latency) (data : List Byte) : State :=
  if (s.ctx t).active then
    if s.cfg.maxRecordBytes < (s.ctx t).buf.length + data.length then (s.raiseOverflow t).dropChain t
    else (s.record t (s.ctx t).content ((s.ctx t).buf ++ data)).dropChain t
  else s.raise .fragOrphan (orphanInfo t .last)

/-- `RA.take(t, fragment, content, data)` (R270): a fill PTDP is ignored (R271). -/
def State.raTake (s : State) (t : Latency) (fr : Fragment) (content : BitVec 4) (data : List Byte) : State :=
  if content = s.fillCode then s else
  match fr with
  | .complete => s.takeComplete t content data
  | .first => s.takeFirst t content data
  | .middle => s.takeMiddle t data
  | .last => s.takeLast t data

end Sys2Proof.Machine
end

