-- ==== Sys2Proof/Machine/Frame.lean ====
section
/-! DEFINITION. The frame parser FP and the FRAME command (41_ptfr_parser R200 to R218). Byte cursors are local to one
FRAME (10_state R32). Each loop has a fuel argument that its caller sets to more than the number of PTDPs the bytes can hold, since a
PTDP takes at least its six header bytes; Laws/Frame.lean shows that the fuel never decides a result. -/

namespace Sys2Proof.Machine

/-! ## Unpacking a PTDP (R209, R210) -/

/-- The results of `unpack` (R209). -/
inductive Unpacked
  /-- One PTDP: its header fields and its payload. It occupied `6 + n` bytes. -/
  | ok (h : PtdpHeader) (data : List Byte)
  /-- An incomplete PTDP. -/
  | inc
  /-- A decoded length above 2048. -/
  | len (n : BitVec 16)
  /-- An uncorrectable header while GFAIL_RESYNC = 1. -/
  | gfail
  deriving DecidableEq, Repr

/-- The header fields and the two error counts of the six header bytes at the front of `b` (R203, R204). -/
def decodeHeader (g : Rows) (b : List Byte) : PtdpHeader × BitVec 3 × BitVec 3 :=
  (headerOf (gdec g (codewordAt b 0)).1 (gdec g (codewordAt b 3)).1,
    (gdec g (codewordAt b 0)).2, (gdec g (codewordAt b 3)).2)

/-- `unpack(B, i)` on `b = B[i:]`: its result and the state after the Golay accounting (R209, R210). An INC counts nothing. -/
def State.unpack (s : State) (b : List Byte) : Unpacked × State :=
  if b.length < ptdpHdrBytes then (.inc, s) else
  match decodeHeader s.cfg.gP b with
  | (h, e1, e2) =>
    if s.gfailResync ∧ (e1 = 4 ∨ e2 = 4) then (.gfail, (s.countGolay e1 1).countGolay e2 2)
    else if maxPtdpPayload < h.length.toNat then (.len h.length, (s.countGolay e1 1).countGolay e2 2)
    else if b.length - ptdpHdrBytes < h.length.toNat then (.inc, s)
    else (.ok h (slice b ptdpHdrBytes (ptdpHdrBytes + h.length.toNat)), (s.countGolay e1 1).countGolay e2 2)

/-- `size`, the bytes a PTDP occupies (R205, R209). -/
def ptdpSize (h : PtdpHeader) : Nat := ptdpHdrBytes + h.length.toNat

/-- `emit_ptdp` (R211). -/
def State.emitPtdp (s : State) (t : Latency) (h : PtdpHeader) (data : List Byte) : State :=
  let s1 := s.countPtdp
  let s2 := if s1.ptdpOutEn then s1.emitAll (ptdpRsp t h data) else s1
  if s2.recOutEn then s2.raTake t h.fragment h.content data else s2

/-! ## RESYNC (R218) -/

/-- `RESYNC()` (R218). -/
def State.resync (s : State) : State :=
  let s1 := { s with remKind := .empty, rem := [], parseState := .resync, llpPending := false }
  if s1.recOutEn then (s1.abandon .hl).abandon .ll else s1

/-- A PTDP length error: counted, raised, then RESYNC (R214, R216). -/
def State.lengthError (s : State) (n : BitVec 16) : State := (s.countLenErr.raise .ptdpLengthError n).resync

/-! ## The LLP run (R214) -/

/-- How an LLP run ends. -/
inductive LlpEnd
  /-- The frame is done: `goto done`. -/
  | done (s : State)
  /-- The run ended at cursor `c`, the first non-LLP byte. -/
  | hl (c : Nat) (s : State)

/-- `llp_pending <- 1`: another LLP follows in the next frame, and the HL state is untouched (R214). -/
def State.awaitLlp (s : State) : State := { s with llpPending := true }

/-- The offset check at the end of an LLP run (R214, R217). -/
def State.checkLlpOffset (s : State) (off : BitVec 11) (c : Nat) : State :=
  if s.offchkEn ∧ off.toNat ≠ c then s.raise .offsetMismatch (BitVec.ofNat 16 c) else s

/-- LLP_RUN from cursor `c` of payload `p` (R214). -/
def llpRun (p : List Byte) (off : BitVec 11) : Nat → Nat → State → LlpEnd
  | 0, _, s => .done s
  | fuel + 1, c, s =>
    match s.unpack (p.drop c) with
    | (.len n, s1) => .done (s1.lengthError n)
    | (.gfail, s1) => .done s1.resync
    | (.inc, s1) => .done (s1.raise .llpIncomplete (BitVec.ofNat 16 (p.length - c))).resync
    | (.ok h data, s1) =>
      let s2 := s1.emitPtdp .ll h data
      let m := c + ptdpSize h
      if p.length ≤ m then .done (s2.raise .missingLlpMarker 0).awaitLlp
      else if byteAt p m = 0xFF then
        if m + 1 = p.length then .done s2.awaitLlp else llpRun p off fuel (m + 1) s2
      else if byteAt p m = 0x00 then .hl (m + 1) (s2.checkLlpOffset off (m + 1))
      else .hl (m + 1) ((s2.raise .badLlpMarker ((byteAt p m).setWidth 16)).checkLlpOffset off (m + 1))

/-! ## The HL buffer (R213, R215) -/

/-- A buffer for HL_LOOP: its bytes, the payload position of its first byte, and whether an offset check is pending (R213,
R215, R217). -/
structure HlBuffer where
  bytes : List Byte
  base : Int
  check : Bool

/-- `P[off:]` with OFFSET_OUT_OF_RANGE(off) where `off >= N` (R213, R215). No check is made on a buffer `off` positioned (R217). -/
def State.positioned (s : State) (p : List Byte) (off : BitVec 11) : HlBuffer × State :=
  (⟨p.drop off.toNat, off.toNat, false⟩,
    if p.length ≤ off.toNat then s.raise .offsetOutOfRange (off.setWidth 16) else s)

/-- `0 < off < 0x7FF`. -/
def offPositions (off : BitVec 11) : Bool := off != 0 && off != offsetNone

/-- INITIAL_BUFFER, for a frame with `llp = 0` (R213). -/
def State.initialBuffer (s : State) (p : List Byte) (off : BitVec 11) : HlBuffer × State :=
  match s.remKind with
  | .none => if offPositions off then s.positioned p off else (⟨p, 0, s.offchkEn⟩, s)
  | .empty => if offPositions off then s.positioned p off else (⟨p, 0, s.offchkEn⟩, s)
  | .bytes => (⟨s.rem ++ p, -(s.rem.length : Int), s.offchkEn⟩, s)

/-- HL_AFTER_LLP, after an LLP run that ended at cursor `c` (R215). Its offset check has been made already (R214). -/
def State.hlAfterLlp (s : State) (p : List Byte) (off : BitVec 11) (c : Nat) : HlBuffer × State :=
  match s.remKind with
  | .none => if offPositions off then s.positioned p off else (⟨p.drop c, c, false⟩, s)
  | .empty => (⟨p.drop c, c, false⟩, s)
  | .bytes => (⟨s.rem ++ p.drop c, (c : Int) - s.rem.length, false⟩, s)

/-! ## The HL loop (R216, R217) -/

/-- Whether OFFSET_PROBE at a position makes the pending check: `0 <= pos < N` (R217). -/
def probes (n : Nat) (check : Bool) (pos : Int) : Bool := check && decide (0 ≤ pos) && decide (pos < n)

/-- OFFSET_PROBE(pos), where `probes` says the check is made there (R217). -/
def State.offsetProbe (s : State) (n : Nat) (off : BitVec 11) (check : Bool) (pos : Int) : State :=
  if probes n check pos ∧ (off.toNat : Int) ≠ pos then s.raise .offsetMismatch (BitVec.ofNat 16 pos.toNat) else s

/-- OFFSET_FINAL() (R217). -/
def State.offsetFinal (s : State) (off : BitVec 11) (check : Bool) : State :=
  if check ∧ off ≠ offsetNone then s.raise .offsetMismatch 0x7FF else s

/-- The frame consumed its buffer exactly (R216). -/
def State.consumed (s : State) : State := { s with remKind := .empty, rem := [], parseState := .aligned }

/-- The frame left an incomplete PTDP (R216). -/
def State.keepRemainder (s : State) (b : List Byte) : State :=
  { s with rem := b, remKind := .bytes, parseState := .waitMore }

/-- HL_LOOP with `b = B[i:]` and `pos = base + i`; `n` is N and `check` says that the offset check is pending (R216, R217). -/
def hlLoop (n : Nat) (off : BitVec 11) : Nat → List Byte → Int → Bool → State → State
  | 0, _, _, _, s => s
  | fuel + 1, b, pos, check, s =>
    let s0 := s.offsetProbe n off check pos
    let pending := check && !probes n check pos
    if b = [] then (s0.offsetFinal off pending).consumed
    else
      match s0.unpack b with
      | (.inc, s1) =>
        ((s1.keepRemainder b).offsetFinal off pending).raise .ptdpIncomplete (BitVec.ofNat 16 b.length)
      | (.len m, s1) => s1.lengthError m
      | (.gfail, s1) => s1.resync
      | (.ok h data, s1) =>
        hlLoop n off fuel (b.drop (ptdpSize h)) (pos + ptdpSize h) pending (s1.emitPtdp .hl h data)

/-- HL_LOOP on a buffer (R216). -/
def State.runHl (s : State) (n : Nat) (off : BitVec 11) (b : HlBuffer) : State :=
  hlLoop n off (b.bytes.length + 1) b.bytes b.base b.check s

/-! ## FRAME (R212) -/

/-- FRAME_DONE, after the frame (R126, R212). -/
def State.frameDone (s : State) : State :=
  s.emit (frameDoneRsp s.parseState s.remKind s.llpPending s.rem.length)

/-- The payload of a frame whose header is `llp`, `off`: all of R212 from the LLP test to `done`. -/
def State.parsePayload (s : State) (p : List Byte) (llp : Bool) (off : BitVec 11) : State :=
  if llp then
    match llpRun p off (p.length + 1) 0 s with
    | .done s1 => s1
    | .hl c s1 => (s1.hlAfterLlp p off c).2.runHl p.length off (s1.hlAfterLlp p off c).1
  else (s.initialBuffer p off).2.runHl p.length off (s.initialBuffer p off).1

/-- The start of a frame's payload: LLP_STATE_MISMATCH where the pending LLP does not come, and `llp_pending <- 0` (R212). -/
def State.enterPayload (s : State) (llp : Bool) : State :=
  { (if s.llpPending ∧ llp = false then s.raise .llpStateMismatch 0 else s) with llpPending := false }

/-- The frame after its protected field has decoded to `w0` with `e0` errors (R201, R212). -/
def State.parseDecoded (s : State) (f : List Byte) (w0 : BitVec 12) (e0 : BitVec 3) : State :=
  let s1 := (s.countFrame.emit (ptfrHdr (byteAt f 0) (llpOf w0) e0 (offOf w0))).countGolay e0 0
  if e0 = 4 ∧ s1.gfailResync then s1.resync.frameDone
  else ((s1.enterPayload (llpOf w0)).parsePayload (f.drop ptfrHdrBytes) (llpOf w0) (offOf w0)).frameDone

/-- The whole of FRAME on the frame bytes `f` (R212). -/
def State.parseFrame (s : State) (f : List Byte) : State :=
  s.parseDecoded f (gdec s.cfg.gP (codewordAt f 1)).1 (gdec s.cfg.gP (codewordAt f 1)).2

/-- FRAME (R212): held while the tables are building, then its reserved bits, then the frame. -/
def execFrame (rsv : BitVec 24) (f : List Byte) (s : State) : Host.Outcome State Fault Refusal :=
  s.whenReady (s.whenReservedZero .frame (rsv == 0)
    (if (Instr.frame rsv f).lengthLegal then .next (s.retire.parseFrame f) else .fault .illFormedFrame))

end Sys2Proof.Machine
end

