-- ==== Sys2Proof/Machine/GolayCommands.lean ====
section
/-! DEFINITION. The Golay commands GENC, GDEC and GERR (40_golay R162 to R164). All three are held while the tables are
building (70_reset_and_hazards R372). -/

namespace Sys2Proof.Machine

/-- GENC (R162). -/
def execGenc (rsv : BitVec 12) (m : BitVec 12) (s : State) : Host.Outcome State Fault Refusal :=
  s.whenReady (s.whenReservedZero .genc (rsv == 0) (.next (s.retire.emit (gencRsp (encT s.cfg.gP m)))))

/-- GDEC (R163). -/
def execGdec (r : BitVec 24) (s : State) : Host.Outcome State Fault Refusal :=
  s.whenReady (.next (s.retire.emit (gdecRsp (gdec s.cfg.gP r).2 (gdec s.cfg.gP r).1)))

/-- GERR (R164). -/
def execGerr (r : BitVec 24) (s : State) : Host.Outcome State Fault Refusal :=
  s.whenReady (.next (s.retire.emit (gerrRsp (gdec s.cfg.gP r).2)))

end Sys2Proof.Machine
end

