-- ==== Sys2Proof/Machine/Dispatch.lean ====
section
/-! DEFINITION. One arm per constructor of Instr (30_encoding R112). -/

namespace Sys2Proof.Machine

def exec (i : Instr) (s : State) : Host.Outcome State Fault Refusal :=
  match i with
  | .nop rsv => Sys2Proof.Machine.execNop rsv s
  | .genc rsv m => Sys2Proof.Machine.execGenc rsv m s
  | .gdec r => Sys2Proof.Machine.execGdec r s
  | .gerr r => Sys2Proof.Machine.execGerr r s
  | .frame rsv f => Sys2Proof.Machine.execFrame rsv f s
  | .srst rsv => Sys2Proof.Machine.execSrst rsv s
  | .csrr rsv a => Sys2Proof.Machine.execCsrr rsv a s
  | .csrw rsv a v => Sys2Proof.Machine.execCsrw rsv a v s

end Sys2Proof.Machine
end

