-- ==== Sys2Proof/Machine/Step.lean ====
section
/-! DEFINITION. One step of the block (00_scope R7): the table build goes on, the command interface takes the words of the
next command, and a complete command executes. A step with no complete command only waits (10_state R65; notes/assumptions/9). -/

namespace Sys2Proof.Machine

/-- What a step begins with: one step of the build (70_reset_and_hazards R371) and the words that have arrived (30_encoding R110). -/
def State.poll (s : State) : State := s.buildTick.receive

/-- The end of a step, once the words taken have been decoded (30_encoding R110, R117). -/
def runDecoded (d : Decoded) (s : State) : Host.Outcome State Fault Refusal :=
  match d with
  | .incomplete => .next s
  | .illegal op _ => .next (s.rejectIllegal op)
  | .command i _ => exec i s

/-- One step. -/
def step (s : State) : Host.Outcome State Fault Refusal :=
  runDecoded (decode s.poll.ptfrLen.toNat s.poll.cmdPart) s.poll

/-- `s` with the words of a table row's command waiting on `cmd_in` and no command half received: the next step takes
exactly them (notes/assumptions/15). -/
def State.withFetchWord (s : State) (nbits w : Nat) : State :=
  { s with cmdPart := [], cmdIn := tableWords s.ptfrLen.toNat nbits w }

end Sys2Proof.Machine
end

