-- ==== Sys2Proof/Machine/Ports.lean ====
section
/-! DEFINITION. What the host can do to the block through its ports (00_scope R28, 70_reset_and_hazards R378), and the
instantiation that R380 guards. `irq`, the fourth port, is `State.irq` (Machine/Flags.lean). -/

namespace Sys2Proof.Machine

/-- The host puts words on `cmd_in`; the stream is lossless and ordered (R28). -/
def State.hostSend (s : State) (ws : List Word) : State := { s with cmdIn := s.cmdIn ++ ws }

/-- The words the host gets when it takes up to `n` words from `rsp_out` (R28, R378). -/
def State.hostWords (s : State) (n : Nat) : List Word := s.rspOut.take n

/-- The state after the host has taken up to `n` words from `rsp_out` (R28, R378). -/
def State.hostTake (s : State) (n : Nat) : State := { s with rspOut := s.rspOut.drop n }

/-! ## A run, with the words the host has taken (70_reset_and_hazards R377) -/

/-- A run in progress: the block, and the response words delivered to the host so far, oldest first. They are no state of the
block (10_state R66); the observation at the end of a run counts them (R377). -/
structure Run where
  state : State
  taken : List Word
  deriving DecidableEq, Repr

/-- A run begins in its launch state with nothing delivered (R377, R379). -/
def Run.launch (s : State) : Run := ⟨s, []⟩

/-- The full response stream of a run: what has been delivered, then what has been emitted and not yet taken (R377). -/
def Run.responses (r : Run) : List Word := r.taken ++ r.state.rspOut

/-- The host puts words on `cmd_in`. -/
def Run.send (r : Run) (ws : List Word) : Run := { r with state := r.state.hostSend ws }

/-- The host takes up to `n` words from `rsp_out`: they move to the delivered words, in order, and none is lost (R378). -/
def Run.take (r : Run) (n : Nat) : Run := ⟨r.state.hostTake n, r.taken ++ r.state.hostWords n⟩

/-- One step of the block in a run. -/
def Run.advance (r : Run) : Host.Outcome Run Fault Refusal :=
  match step r.state with
  | .next t => .next { r with state := t }
  | .fault f => .fault f
  | .refused f => .refused f

/-! ## Reset and instantiation -/

/-- The host asserts `rst`, between two commands (R370, R373): every piece of state takes its reset value, and the words
of no complete command are discarded (notes/assumptions/11). -/
def State.assertRst (s : State) : State := State.resetWith s.cfg

/-- Instantiating the block: a configuration that breaks R157 or a limit is refused (R380). -/
def instantiate (c : Config) : Host.Outcome State Fault Refusal :=
  if configValid c then .next (State.resetWith c) else .refused .badConfiguration

end Sys2Proof.Machine
end

