-- ==== Sys2Proof/Machine/Producer.lean ====
section
/-! DEFINITION. The producer's side, which C7GD does not run (00_scope R6): the reference fragmenter (42_reassembly R279) and the
frames of the producer contract (R281). Statements about streams of frames are made with it. -/

namespace Sys2Proof.Machine

/-- A PTDP as a producer sees it (41_ptfr_parser R203, R204). -/
structure Ptdp where
  fragment : Fragment
  content : BitVec 4
  reserved : BitVec 2
  data : List Byte
  deriving DecidableEq, Repr

/-- Its header: the length counts the payload bytes only (R205). -/
def Ptdp.header (p : Ptdp) : PtdpHeader := ⟨p.fragment, p.content, p.reserved, BitVec.ofNat 16 p.data.length⟩

/-- A PTDP and the bit errors the channel makes in its two header codewords. -/
structure SentPtdp where
  ptdp : Ptdp
  err1 : BitVec 24
  err2 : BitVec 24
  deriving DecidableEq, Repr

/-- The bytes on the wire: two codewords, then the payload (R203). -/
def SentPtdp.wire (g : Rows) (p : SentPtdp) : List Byte :=
  bytesOfCodeword (encT g p.ptdp.header.word1 ^^^ p.err1) ++ bytesOfCodeword (encT g p.ptdp.header.word2 ^^^ p.err2)
    ++ p.ptdp.data

/-- A PTDP the contract allows on a channel the code corrects: at most 2048 payload bytes (R281 item 5), at most three
errors a codeword (R223). -/
def SentPtdp.ok (p : SentPtdp) : Bool :=
  p.ptdp.data.length ≤ maxPtdpPayload && popcount p.err1 ≤ 3 && popcount p.err2 ≤ 3

/-! ## The reference fragmenter (R279) -/

/-- Cut bytes into pieces of 2048, the last one holding what is left; `fuel` bounds the number of cuts. -/
def cutRecord : Nat → List Byte → List (List Byte)
  | 0, b => [b]
  | fuel + 1, b =>
    if b.length ≤ maxPtdpPayload then [b] else b.take maxPtdpPayload :: cutRecord fuel (b.drop maxPtdpPayload)

/-- The pieces after the FIRST: MIDDLEs, then the LAST (R279). Piece `k` of the record carries the reserved header bits `rsv k`,
which R279 leaves open (41_ptfr_parser R224: any value). -/
def labelTail (rsv : Nat → BitVec 2) (content : BitVec 4) : Nat → List (List Byte) → List Ptdp
  | _, [] => []
  | k, [d] => [⟨.last, content, rsv k, d⟩]
  | k, d :: ds => ⟨.middle, content, rsv k, d⟩ :: labelTail rsv content (k + 1) ds

/-- One piece is a COMPLETE; more are FIRST, MIDDLEs and LAST (R279). Piece `k` carries the reserved header bits `rsv k`. -/
def labelPieces (rsv : Nat → BitVec 2) (content : BitVec 4) : List (List Byte) → List Ptdp
  | [] => []
  | [d] => [⟨.complete, content, rsv 0, d⟩]
  | d :: ds => ⟨.first, content, rsv 0, d⟩ :: labelTail rsv content 1 ds

/-- The PTDPs of a record (R279), for any choice `rsv` of the reserved header bits of its pieces (notes/assumptions/21). -/
def fragmentRecord (rsv : Nat → BitVec 2) (content : BitVec 4) (bytes : List Byte) : List Ptdp :=
  labelPieces rsv content (cutRecord bytes.length bytes)

/-! ## Frames of the producer contract (R281) -/

/-- A byte of the HL stream, marked where a PTDP header starts. -/
abbrev MarkedByte := Byte × Bool

/-- The bytes of a PTDP, the first one marked. -/
def markStart : List Byte → List MarkedByte
  | [] => []
  | b :: bs => (b, true) :: bs.map fun x => (x, false)

/-- The HL stream of a list of PTDPs: contiguous, with no padding (R203, R281 item 2). -/
def hlStream (g : Rows) (ps : List SentPtdp) : List MarkedByte := ps.flatMap fun p => markStart (p.wire g)

/-- An LLP run: each PTDP is followed by its marker, 0xFF where another LLP follows, 0x00 after the last (R208, R281 item 3). -/
def llpRunBytes (g : Rows) : List SentPtdp → List Byte
  | [] => []
  | [p] => p.wire g ++ [0x00]
  | p :: ps => p.wire g ++ 0xFF :: llpRunBytes g ps

/-- What the producer decides for one frame: its first byte, its LLP PTDPs, and the bit errors in its protected field. -/
structure FramePlan where
  first : Byte
  llps : List SentPtdp
  err0 : BitVec 24
  deriving DecidableEq, Repr

/-- The payload bytes a plan leaves for the HL stream in a frame with `n` payload bytes. -/
def FramePlan.room (g : Rows) (n : Nat) (pl : FramePlan) : Nat := n - (llpRunBytes g pl.llps).length

/-- `off` of a frame (R281 item 2): the position after the run's 0x00 marker; with no run, the position of the first HL
header that starts in the frame, or 0x7FF. -/
def FramePlan.off (g : Rows) (pl : FramePlan) (chunk : List MarkedByte) : BitVec 11 :=
  match pl.llps with
  | [] =>
    match chunk.findIdx? (·.2) with
    | some k => BitVec.ofNat 11 k
    | none => offsetNone
  | _ :: _ => BitVec.ofNat 11 (llpRunBytes g pl.llps).length

/-- The protected field's data word `{llp, off}` (R201). -/
def protectedWord (llp : Bool) (off : BitVec 11) : BitVec 12 := bit llp ++ off

/-- The bytes of one frame: first byte, protected field, LLP run, HL bytes (R200, R281). -/
def FramePlan.frame (g : Rows) (pl : FramePlan) (chunk : List MarkedByte) : List Byte :=
  pl.first :: bytesOfCodeword (encT g (protectedWord (!pl.llps.isEmpty) (pl.off g chunk)) ^^^ pl.err0)
    ++ llpRunBytes g pl.llps ++ chunk.map (·.1)

/-- The frames of a stream: each takes the next bytes of the HL stream (R281 item 2). -/
def streamFrames (g : Rows) (n : Nat) : List FramePlan → List MarkedByte → List (List Byte)
  | [], _ => []
  | pl :: pls, hl => pl.frame g (hl.take (pl.room g n)) :: streamFrames g n pls (hl.drop (pl.room g n))

/-- A plan the contract allows: its LLP run fits in its frame, and the code corrects its channel errors (R281 item 3, R223). -/
def FramePlan.ok (g : Rows) (n : Nat) (pl : FramePlan) : Bool :=
  (llpRunBytes g pl.llps).length ≤ n && pl.llps.all SentPtdp.ok && popcount pl.err0 ≤ 3

/-- The HL bytes that the frames of a stream have room for. -/
def streamRoom (g : Rows) (n : Nat) (pls : List FramePlan) : Nat := (pls.map (FramePlan.room g n)).sum

end Sys2Proof.Machine
end

