-- ==== Sys2Proof/Machine/Pseudo.lean ====
section
/-! DEFINITION. The assembler's pseudo-instructions, each exactly one command (30_encoding R131). -/

namespace Sys2Proof.Machine

/-- `SETLEN L`. -/
def asmSetLen (l : Word) : Instr := .csrw 0 Csr.ptfrLen.addr l

/-- `CLRCNT`. -/
def asmClrCnt : Instr := .csrw 0 Csr.cntClr.addr 0

/-- `ACKEVT mask`. -/
def asmAckEvt (mask : Word) : Instr := .csrw 0 Csr.evtPending.addr mask

/-- `SETCTRL v`. -/
def asmSetCtrl (v : Word) : Instr := .csrw 0 Csr.ctrl.addr v

/-- `RDSTAT`. -/
def asmRdStat : Instr := .csrr 0 Csr.status.addr

end Sys2Proof.Machine
end

