-- ==== Sys2Proof/Safety.lean ====
section
/-! DEFINITION. What a legal state is, what a run's end and observation are (70_reset_and_hazards R377, R379), what a
response stream looks like (30_encoding R118), and the shapes of effect that claims are stated with. -/

namespace Sys2Proof.Machine

/-! ## Legal states -/

/-- The CSR fields hold legal values (10_state R43, R45, R46). -/
def State.csrsLegal (s : State) : Bool :=
  ptfrLenMin ≤ s.ptfrLen.toNat && s.ptfrLen.toNat ≤ ptfrLenMax &&
  (s.evtPending &&& ~~~evtMask == 0) && (s.evtEnable &&& ~~~evtMask == 0)

/-- The remainder invariant (10_state R55, R56; 41_ptfr_parser R220) and how `parse_state` goes with it (R219). -/
def State.remainderLegal (s : State) : Bool :=
  (s.remKind == .bytes) == !s.rem.isEmpty && s.rem.length ≤ remCap &&
  (s.parseState == .waitMore) == (s.remKind == .bytes) &&
  (s.parseState != .resync || s.remKind == .empty)

/-- A context holds at most `max` bytes, and none while it is inactive (10_state R61). -/
def Context.legal (max : Nat) (c : Context) : Bool :=
  c.buf.length ≤ max && (c.active || c.buf.isEmpty)

/-- The invariant of the block: every value is one the spec allows. The configuration's numeric limits are part of it (R380). -/
abbrev State.Inv (s : State) : Prop :=
  limitsValid s.cfg = true ∧ s.csrsLegal = true ∧ s.remainderLegal = true ∧
  s.ctxHl.legal s.cfg.maxRecordBytes = true ∧ s.ctxLl.legal s.cfg.maxRecordBytes = true

/-- The commands the table build holds (70_reset_and_hazards R372). -/
def held : Opcode → Bool
  | .nop => false
  | .genc => true
  | .gdec => true
  | .gerr => true
  | .frame => true
  | .srst => false
  | .csrr => false
  | .csrw => false

/-! ## Runs (R377, R379) -/

/-- A clean launch state for frames of `len` bytes: the reset state of a configuration with `TABLES_READY = 1` and PTFR_LEN
equal to `len` (R379). -/
def State.cleanLaunch (c : Config) (len : Nat) : State :=
  { State.resetWith c with tables := .built, ptfrLen := BitVec.ofNat 12 len }

/-- A run has ended: every command has completed, none is held, every response word has been delivered (R377). -/
abbrev State.runEnded (s : State) : Prop := s.cmdPart = [] ∧ s.cmdIn = [] ∧ s.rspOut = []

/-- A run has ended: its block has nothing left to execute and nothing left to deliver (R377). -/
abbrev Run.ended (r : Run) : Prop := r.state.runEnded

/-- What is observed at the end of a run (R377). -/
structure Observation where
  responses : List Word
  csrs : List Word
  remKind : RemKind
  rem : List Byte
  parseState : ParseState
  llpPending : Bool
  ctxHl : Context
  ctxLl : Context
  irq : Bool
  deriving DecidableEq, Repr

/-- The implemented CSRs, in address order (10_state section 3). -/
def allCsrs : List Csr :=
  [.id, .ctrl, .status, .ptfrLen, .fillCode, .evtPending, .evtEnable,
   .cntFrames, .cntPtdps, .cntRecords, .cntCorrBits, .cntUncorr, .cntLenErr, .cntClr]

/-- The observation of a block from which the response words `responses` have come: the full response stream, the CSR file, the
parser's state, both contexts, `irq` (R377). -/
def State.observe (s : State) (responses : List Word) : Observation :=
  ⟨responses, allCsrs.map s.csrValue, s.remKind, s.rem, s.parseState, s.llpPending, s.ctxHl, s.ctxLl, s.irq⟩

/-- The observation of a run (R377). -/
def Run.observe (r : Run) : Observation := r.state.observe r.responses

/-! ## Response streams (30_encoding R118) -/

/-- TAG, bits [31:24] of a response's first word (R118). -/
def rspTag (w : Word) : BitVec 8 := w.extractLsb' 24 8

/-- How many words a response has, by its first word alone; `none` for a tag that is never emitted (R118). -/
def rspLength (w : Word) : Option Nat :=
  match (rspTag w).toNat with
  | 0x81 => some 1
  | 0x82 => some 1
  | 0x83 => some 1
  | 0xC0 => some 2
  | 0x98 => some 1
  | 0x90 => some (1 + wordsFor (w.extractLsb' 0 16).toNat)
  | 0x91 => some (1 + wordsFor (w.extractLsb' 0 16).toNat)
  | 0xB0 => some (1 + wordsFor (w.extractLsb' 0 20).toNat)
  | 0xB1 => some (1 + wordsFor (w.extractLsb' 0 20).toNat)
  | 0x9F => some 1
  | 0xE0 => some 1
  | _ => none

/-- One whole response: a tag of the table and the number of words it stands for (R118). -/
def isResponse : List Word → Bool
  | [] => false
  | w :: ws => rspLength w == some (ws.length + 1)

/-- A response that begins with a given tag. -/
def hasTag (tag : BitVec 8) : List Word → Bool
  | [] => false
  | w :: _ => rspTag w == tag

/-- Byte `k` of a sequence packed in words: word `floor(k/4)`, bits `[31 - 8*(k mod 4) : 24 - 8*(k mod 4)]` (20_memory R82). -/
def packedByte (ws : List Word) (k : Nat) : Byte := (ws.getD (k / 4) 0).extractLsb' (24 - 8 * (k % 4)) 8

/-! ## Shapes of effect -/

/-- The pending bits of the command-interface events (60_exceptions R330). -/
def commandEvents : Word := 0x0000000F

/-- The pending bits of the frame events (60_exceptions R330). -/
def frameEvents : Word := 0x000FFF00

/-- `t` is `s` but for what FRAME may write (41_ptfr_parser R212): its words are consumed, responses are appended, frame events
become pending, and the counters, the parser's cross-frame state and the contexts may change. -/
def FrameWrites (s t : State) : Prop :=
  ∃ ws p k rk rm ps lp hc lc,
    t = { s with
      cmdPart := [], rspOut := s.rspOut ++ ws, evtPending := s.evtPending ||| p, counters := k
      remKind := rk, rem := rm, parseState := ps, llpPending := lp, ctxHl := hc, ctxLl := lc } ∧
    p &&& ~~~frameEvents = 0

/-- `t` has the same Golay tables, configuration, CSR values but EVT_PENDING and the counters, and host words as `s`. -/
abbrev SameControl (s t : State) : Prop :=
  t.cfg = s.cfg ∧ t.tables = s.tables ∧ t.ctrl = s.ctrl ∧ t.ptfrLen = s.ptfrLen ∧ t.fillCode = s.fillCode ∧
  t.evtEnable = s.evtEnable

/-- `t` has the same parser and reassembler state as `s` (20_memory R93). -/
abbrev SameParser (s t : State) : Prop :=
  t.remKind = s.remKind ∧ t.rem = s.rem ∧ t.parseState = s.parseState ∧ t.llpPending = s.llpPending ∧
  t.ctxHl = s.ctxHl ∧ t.ctxLl = s.ctxLl

/-- The other latency class. -/
def Latency.other : Latency → Latency
  | .hl => .ll
  | .ll => .hl

/-- Reassemble a list of PTDPs of one latency class, one after another (42_reassembly R270). -/
def takeAll (t : Latency) : List Ptdp → State → State
  | [], s => s
  | p :: ps, s => takeAll t ps (s.raTake t p.fragment p.content p.data)

/-- Run a list of frames one after another, each a FRAME command with its words already received. -/
def runFrames : List (List Byte) → State → Host.Outcome State Fault Refusal
  | [], s => .next s
  | f :: fs, s =>
    match exec (.frame 0 f) s with
    | .next t => runFrames fs t
    | .fault r => .fault r
    | .refused r => .refused r

/-- The state with OFFCHK_EN set to a given value (10_state R41). -/
def State.withOffchk (s : State) (b : Bool) : State := { s with ctrl := bit b ++ s.ctrl.extractLsb' 0 4 }

end Sys2Proof.Machine
end

