-- ==== Sys2Proof/Certificates/Slice0/Obligations.lean ====
section
/-! DEFINITION. The statements for the provers. Each says which rules of spec/ it formalises. -/

open Sys2Proof Sys2Proof.Machine

/-! ## Reset, configuration, ports -/

/-- R370: whatever the state, asserting `rst` gives every piece of state its reset value. The ROM and BUILD cases of the tables
are those of 10_state R34. -/
def Obligations.ResetGivesSpecValues : Prop :=
  ∀ s : State, limitsValid s.cfg = true →
    (s.assertRst.tables = .built ↔ s.cfg.tableBuild = .rom) ∧
    (s.assertRst.tablesReady = true ↔ s.cfg.tableBuild = .rom) ∧
    s.assertRst.csrValue .id = 0x47370001 ∧
    s.assertRst.csrValue .ctrl = 0x00000015 ∧
    s.assertRst.csrValue .status = (if s.cfg.tableBuild = .rom then 0x00000001 else 0x00000000) ∧
    (s.assertRst.csrValue .ptfrLen).toNat = s.cfg.ptfrLenReset ∧
    (s.assertRst.csrValue .fillCode).toNat = s.cfg.fillCodeReset ∧
    s.assertRst.csrValue .evtPending = 0 ∧ s.assertRst.csrValue .evtEnable = 0 ∧
    s.assertRst.csrValue .cntFrames = 0 ∧ s.assertRst.csrValue .cntPtdps = 0 ∧ s.assertRst.csrValue .cntRecords = 0 ∧
    s.assertRst.csrValue .cntCorrBits = 0 ∧ s.assertRst.csrValue .cntUncorr = 0 ∧ s.assertRst.csrValue .cntLenErr = 0 ∧
    s.assertRst.remKind = .none ∧ s.assertRst.rem = [] ∧ s.assertRst.parseState = .aligned ∧
    s.assertRst.llpPending = false ∧ s.assertRst.ctxHl = ⟨false, 0, []⟩ ∧ s.assertRst.ctxLl = ⟨false, 0, []⟩ ∧
    s.assertRst.cmdPart = [] ∧ s.assertRst.rspOut = [] ∧ s.assertRst.irq = false

/-- R380: instantiation refuses exactly the configurations the rule lists, and gives the reset state for every other. -/
def Obligations.InstantiateRefusesBadConfigurations : Prop :=
  ∀ c : Config,
    (((∃ d : BitVec 12, d ≠ 0 ∧ popcount (encT c.gP d) < 8) ∨ (∃ d : BitVec 12, mulM (par c.gP d) (hPOf c.gP) ≠ d) ∨
        ¬ (5 ≤ c.ptfrLenReset ∧ c.ptfrLenReset ≤ 2051) ∨ ¬ (1 ≤ c.maxRecordBytes ∧ c.maxRecordBytes ≤ 1048575) ∨
        ¬ c.fillCodeReset < 16) →
      instantiate c = .refused .badConfiguration) ∧
    ((∀ d : BitVec 12, d ≠ 0 → 8 ≤ popcount (encT c.gP d)) ∧ (∀ d : BitVec 12, mulM (par c.gP d) (hPOf c.gP) = d) ∧
        (5 ≤ c.ptfrLenReset ∧ c.ptfrLenReset ≤ 2051) ∧ (1 ≤ c.maxRecordBytes ∧ c.maxRecordBytes ≤ 1048575) ∧
        c.fillCodeReset < 16 →
      instantiate c = .next (State.resetWith c))

/-- The invariant holds in the reset state of every configuration whose limits R380 accepts, `State.reset` among them (its
configuration is the model's choice, notes/assumptions/2 to 6). -/
def Obligations.ResetStateIsLegal : Prop :=
  State.reset.Inv ∧ ∀ c : Config, limitsValid c = true → (State.resetWith c).Inv

/-- Every step from a legal state gives a legal state: CSR fields keep legal values, the remainder keeps its form and its bound,
and the contexts keep theirs (R43, R45, R46, R55, R56, R61, R219, R220). -/
def Obligations.StepKeepsLegalState : Prop :=
  ∀ s t : State, s.Inv → step s = .next t → t.Inv

/-- From a legal state a step always answers a next state: nothing stops the block. No event stops a command and no command faults (R87,
R332, R337). Two parts of it are the model's choice: that a step with no whole command is a next state too, where the spec's 93 U15 speaks
of a pending forever (notes/assumptions/9), and that a host which leaves `rsp_out` undrained stops nothing (notes/assumptions/12). -/
def Obligations.StepNeverStopsTheBlock : Prop :=
  ∀ s : State, s.Inv → ∃ t, step s = .next t

/-! ## Commands and their words -/

/-- Words written out from the opcode map (R111, R112) decode to the commands they stand for. -/
def Obligations.SpecWordsDecode : Prop :=
  decode 24 [0x00000000] = .command (.nop 0) [] ∧
  decode 24 [0x01000ABC] = .command (.genc 0 0xABC) [] ∧
  decode 24 [0x02A9C116] = .command (.gdec 0xA9C116) [] ∧
  decode 24 [0x03ABC111] = .command (.gerr 0xABC111) [] ∧
  decode 5 [0x10000000, 0x407FF1C5, 0xBB123456, 0x11000000] =
    .command (.frame 0 [0x40, 0x7F, 0xF1, 0xC5, 0xBB]) [0x11000000] ∧
  decode 24 [0x11000000] = .command (.srst 0) [] ∧
  decode 24 [0x20000010] = .command (.csrr 0 0x10) [] ∧
  decode 24 [0x21000009, 0x00000100] = .command (.csrw 0 0x09 0x100) [] ∧
  decode 24 [0x04000000, 0x00000000] = .illegal 0x04 [0x00000000] ∧
  decode 24 [0x21000009] = .incomplete

/-- Decoding the words of a command gives the command back, with every operand and every reserved bit, and the words after it. -/
def Obligations.DecodeOfEncodeIsTheCommand : Prop :=
  ∀ (len : Nat) (i : Instr) (rest : List Word), i.fits len → decode len (encode i ++ rest) = .command i rest

/-- R115: byte k of a decoded FRAME is in trailing word `floor(k/4)` at the bits the rule gives, there are exactly L of them, and
the pad bytes are ignored: two word sequences that agree on the L bytes decode to the same command. -/
def Obligations.FrameBytesComeFromTheirWords : Prop :=
  ∀ (len : Nat) (rsv : BitVec 24) (ws rest : List Word), ws.length = (len + 3) / 4 →
    (∃ f : List Byte, decode len (headWord .frame rsv :: (ws ++ rest)) = .command (.frame rsv f) rest ∧
      f.length = len ∧ ∀ k, k < len → f.getD k 0 = (ws.getD (k / 4) 0).extractLsb' (24 - 8 * (k % 4)) 8) ∧
    (∀ ws' : List Word, ws'.length = (len + 3) / 4 →
      (∀ k, k < len → packedByte ws' k = packedByte ws k) →
      decode len (headWord .frame rsv :: (ws' ++ rest)) = decode len (headWord .frame rsv :: (ws ++ rest)))

/-- R82: packed bytes are in their words at the bits the rule gives, in `ceil(n/4)` words, with zero pad bytes, and unpacking the
words gives the bytes back. -/
def Obligations.PackedBytesAreBigEndian : Prop :=
  ∀ bs : List Byte,
    (packBytes bs).length = (bs.length + 3) / 4 ∧
    (∀ k, k < bs.length → packedByte (packBytes bs) k = bs.getD k 0) ∧
    (∀ k, bs.length ≤ k → k < 4 * (packBytes bs).length → packedByte (packBytes bs) k = 0) ∧
    (unpackBytes (packBytes bs)).take bs.length = bs

/-- Whatever words decode to a command (R110, R114; a FRAME's pad bytes hold any value, R115): the step is that command's `exec`. The
state it runs on is the model's choice in two points: exactly the command's words have been taken (notes/assumptions/10), and the table
build has gone on by one step (notes/assumptions/7). -/
def Obligations.StepRunsTheDecodedCommand : Prop :=
  ∀ (s : State) (i : Instr) (words rest : List Word), s.cmdPart ++ s.cmdIn = words ++ rest →
    decode s.ptfrLen.toNat (words ++ rest) = .command i rest →
    step s = exec i { s.buildTick with cmdPart := words, cmdIn := rest }

/-- R65, R110: while words of a command are missing, no command executes. What the step does then is the model's choice: it is a next
state that takes the words there are (notes/assumptions/9), and the table build goes on by one step (notes/assumptions/7). -/
def Obligations.IncompleteCommandWaits : Prop :=
  ∀ s : State, decode s.ptfrLen.toNat (s.cmdPart ++ s.cmdIn) = .incomplete →
    step s = .next { s.buildTick with cmdPart := s.cmdPart ++ s.cmdIn, cmdIn := [] }

/-- R89, R28: the words of `cmd_in` are consumed in order and none is lost, repeated or reordered. What a step consumes is the front of
the words that had arrived: none where the step waits for words (that it is a step at all is notes/assumptions/9) or holds the
command, else exactly the words of the one command there, as many as its head word says (that they are taken at once is
notes/assumptions/10). -/
def Obligations.CommandWordsConsumedInOrder : Prop :=
  ∀ s t : State, step s = .next t → ∃ used, s.cmdPart ++ s.cmdIn = used ++ (t.cmdPart ++ t.cmdIn) ∧
    ((used = [] ∧ (decode s.ptfrLen.toNat (s.cmdPart ++ s.cmdIn) = .incomplete ∨
        ∃ i rest, decode s.ptfrLen.toNat (s.cmdPart ++ s.cmdIn) = .command i rest ∧ held i.opcode = true ∧ t.tables ≠ .built)) ∨
      ∃ h ws, s.cmdPart ++ s.cmdIn = h :: ws ∧ t.cmdPart = [] ∧ used = (h :: ws).take (commandLength s.ptfrLen.toNat h) ∧
        used.length = commandLength s.ptfrLen.toNat h)

/-- R117: exactly the OP values outside the opcode map are illegal; an illegal head word is consumed alone and raises
ILLEGAL_CMD(OP), and nothing else changes, but that the table build goes on by a step (the model's count of time, notes/assumptions/7). -/
def Obligations.IllegalHeadIsConsumedAlone : Prop :=
  (∀ op : BitVec 8, opcodeOf op = none ↔ op ∉ [0x00#8, 0x01#8, 0x02#8, 0x03#8, 0x10#8, 0x11#8, 0x20#8, 0x21#8]) ∧
  ∀ (s : State) (h : Word) (rest : List Word), opcodeOf (h.extractLsb' 24 8) = none → s.cmdPart ++ s.cmdIn = h :: rest →
    step s = .next { s.buildTick with
      cmdPart := []
      cmdIn := rest
      evtPending := s.evtPending ||| 0x00000001
      rspOut := s.rspOut ++ (if s.evtOutEn then [0xE001#16 ++ 0#8 ++ h.extractLsb' 24 8] else []) }

/-- R116: a command with a reserved ARG bit set is not executed: its words are consumed, RESERVED_NONZERO(OP) is raised, no
normal response is emitted and no other state changes. The commands R372 holds are past their hold. -/
def Obligations.ReservedBitsRejectTheCommand : Prop :=
  ∀ (s : State) (i : Instr), i.reservedZero = false → (held i.opcode = true → s.tables = .built) →
    exec i s = .next { s with
      cmdPart := []
      evtPending := s.evtPending ||| 0x00000002
      rspOut := s.rspOut ++ (if s.evtOutEn then [0xE002#16 ++ 0#8 ++ i.opcode.code] else []) }

/-- R372: while TABLES_READY = 0 after this step's part of the build, a GENC, GDEC, GERR or FRAME at the front of the stream does not
start, and neither does anything after it: its words stay. It starts at the step at which TABLES_READY is 1. The other commands run. The build's one step a step is notes/assumptions/7,
the words taken at once notes/assumptions/10: both the model's choice. -/
def Obligations.TableBuildHoldsGolayAndFrame : Prop :=
  ∀ (s : State) (i : Instr) (rest : List Word) (n : Nat), i.fits s.ptfrLen.toNat → s.cmdPart ++ s.cmdIn = encode i ++ rest →
    (s.tables = .building (n + 1) → held i.opcode = true →
      step s = .next { s with tables := .building n, cmdPart := encode i, cmdIn := rest }) ∧
    (s.tables = .building (n + 1) → held i.opcode = false →
      ∃ t, step s = .next t ∧ t.tables = .building n ∧ t.cmdPart = [] ∧ t.cmdIn = rest) ∧
    (s.tables = .building 0 → i.lengthLegal = true →
      ∃ t, step s = .next t ∧ t.tables = .built ∧ t.cmdPart = [] ∧ t.cmdIn = rest)

/-- R371: the build ends after finitely many steps, whatever the steps do, and built tables stay built (R34). That the build time is
counted in steps is the model's choice (notes/assumptions/7). -/
def Obligations.TableBuildEnds : Prop :=
  ∀ (k n : Nat) (s t : State), Host.Core.run Sys2Proof.core k s = .next t →
    (s.tables = .building n → k ≤ n → t.tables = .building (n - k)) ∧
    (s.tables = .building n → n < k → t.tables = .built) ∧
    (s.tables = .built → t.tables = .built)

/-! ## Events, interrupt, CSRs -/

/-- R332: raising an event sets its pending bit whatever EVT_ENABLE says, emits its EVT word exactly when EVT_OUT_EN = 1, and does
nothing else. -/
def Obligations.RaiseSetsPendingAndEmits : Prop :=
  ∀ (s : State) (e : Event) (info : BitVec 16),
    s.raise e info = { s with
      evtPending := s.evtPending ||| (1#32 <<< e.bit)
      rspOut := s.rspOut ++ (if s.ctrl.getLsbD 2 then [0xE0000000#32 ||| (e.code.setWidth 32 <<< 16) ||| info.setWidth 32] else []) }

/-- The event table of R331: the code and the pending bit of each of the sixteen events, all of them different. -/
def Obligations.EventCodesAndBits : Prop :=
  [Event.illegalCmd, .reservedNonzero, .csrWriteIgnored, .csrUnimpl, .ptdpLengthError, .ptdpIncomplete, .golayUncorrectable,
    .offsetMismatch, .offsetOutOfRange, .badLlpMarker, .missingLlpMarker, .llpStateMismatch, .llpIncomplete, .fragOrphan,
    .fragAbandoned, .recordOverflow].map (fun e => (e.code, e.bit)) =
  [(0x01, 0), (0x02, 1), (0x03, 2), (0x04, 3), (0x10, 8), (0x11, 9), (0x12, 10), (0x13, 11), (0x14, 12), (0x15, 13), (0x16, 14),
    (0x17, 15), (0x18, 16), (0x20, 17), (0x21, 18), (0x22, 19)] ∧
  (∀ e e' : Event, e.code = e'.code → e = e') ∧ (∀ e e' : Event, e.bit = e'.bit → e = e') ∧
  (∀ e : Event, evtMask.getLsbD e.bit = true)

/-- R50: `irq` is 1 exactly when some event is both pending and enabled; after reset it is 0. -/
def Obligations.IrqIsPendingAndEnabled : Prop :=
  (∀ s : State, s.irq = true ↔ ∃ k, k < 32 ∧ s.evtPending.getLsbD k = true ∧ s.evtEnable.getLsbD k = true) ∧
  (∀ c : Config, (State.resetWith c).irq = false)

/-- R336: a command clears no pending bit, but for a CSRW to EVT_PENDING, which clears the bits set in its data. -/
def Obligations.PendingBitsAreSticky : Prop :=
  ∀ (s t : State) (i : Instr), exec i s = .next t →
    t.evtPending &&& s.evtPending = s.evtPending ∨
    ∃ v, i = .csrw 0 0x08 v ∧ t.evtPending = s.evtPending &&& ~~~v

/-- R42: STATUS is the live view the rule lays out; it reads 1 (ROM) or 0 (BUILD) after reset, and a CSRW to it changes nothing and
raises CSR_WRITE_IGNORED(0x02). -/
def Obligations.StatusIsTheLiveView : Prop :=
  (∀ s : State, s.rem.length ≤ 2053 →
    ((s.csrValue .status).getLsbD 0 = true ↔ s.tables = .built) ∧
    (s.csrValue .status).extractLsb' 1 2 = (if s.parseState = .aligned then 0 else if s.parseState = .waitMore then 1 else 2) ∧
    (s.csrValue .status).extractLsb' 3 2 = (if s.remKind = .none then 0 else if s.remKind = .empty then 1 else 2) ∧
    (s.csrValue .status).getLsbD 5 = s.llpPending ∧
    (s.csrValue .status).getLsbD 6 = s.ctxHl.active ∧
    (s.csrValue .status).getLsbD 7 = s.ctxLl.active ∧
    ((s.csrValue .status).extractLsb' 8 12).toNat = s.rem.length ∧
    (s.csrValue .status).extractLsb' 20 12 = 0) ∧
  (∀ c : Config, (State.resetWith c).csrValue .status = if c.tableBuild = .rom then 1 else 0) ∧
  (∀ (s : State) (v : Word), exec (.csrw 0 0x02 v) s = .next (({ s with cmdPart := [] } : State).raise .csrWriteIgnored 0x02))

/-- R302 and the read table of 10_state section 3: CSRR answers {0xC0, 0, A} and the value at address A, and changes nothing else; an
unimplemented address reads 0 and raises CSR_UNIMPL(A) before the answer. The table is spelt by address and by field of the state;
STATUS, at 0x02, is the word StatusIsTheLiveView describes. A reserved bit set raises RESERVED_NONZERO(0x20). -/
def Obligations.CsrrAnswersTheValue : Prop :=
  ∀ (s : State) (a : BitVec 8),
    (∀ v : Word, (a, v) ∈ [(0x00#8, 0x47370001#32), (0x01, s.ctrl.setWidth 32), (0x02, s.csrValue .status),
        (0x03, s.ptfrLen.setWidth 32), (0x04, s.fillCode.setWidth 32), (0x08, s.evtPending), (0x09, s.evtEnable),
        (0x10, s.counters.frames), (0x11, s.counters.ptdps), (0x12, s.counters.records), (0x13, s.counters.corrBits),
        (0x14, s.counters.uncorr), (0x15, s.counters.lenErr), (0x1F, 0)] →
      exec (.csrr 0 a) s = .next { s with cmdPart := [], rspOut := s.rspOut ++ [0xC0000000#32 ||| a.setWidth 32, v] }) ∧
    (∀ c, c ∈ allCsrs → c.addr = a →
      exec (.csrr 0 a) s = .next { s with cmdPart := [], rspOut := s.rspOut ++ [0xC0000000#32 ||| a.setWidth 32, s.csrValue c] }) ∧
    (a ∉ [0x00#8, 0x01#8, 0x02#8, 0x03#8, 0x04#8, 0x08#8, 0x09#8, 0x10#8, 0x11#8, 0x12#8, 0x13#8, 0x14#8, 0x15#8, 0x1F#8] →
      exec (.csrr 0 a) s = .next { s with
        cmdPart := []
        evtPending := s.evtPending ||| 0x00000008
        rspOut := s.rspOut ++ (if s.evtOutEn then [0xE0040000#32 ||| a.setWidth 32] else [])
          ++ [0xC0000000#32 ||| a.setWidth 32, 0] }) ∧
    (∀ rsv : BitVec 16, rsv ≠ 0 → exec (.csrr rsv a) s = .next (({ s with cmdPart := [] } : State).raise .reservedNonzero 0x20))

/-- R303: what CSRW does at every address, and with a reserved bit set. -/
def Obligations.CsrwWritesByAddress : Prop :=
  ∀ (s : State) (v : Word),
    exec (.csrw 0 0x01 v) s = .next { s with cmdPart := [], ctrl := (v &&& 0x1F).setWidth 5 } ∧
    (5 ≤ v.toNat ∧ v.toNat ≤ 2051 → exec (.csrw 0 0x03 v) s = .next { s with cmdPart := [], ptfrLen := v.setWidth 12 }) ∧
    (¬ (5 ≤ v.toNat ∧ v.toNat ≤ 2051) →
      exec (.csrw 0 0x03 v) s = .next (({ s with cmdPart := [] } : State).raise .csrWriteIgnored 0x03)) ∧
    exec (.csrw 0 0x04 v) s = .next { s with cmdPart := [], fillCode := (v &&& 0xF).setWidth 4 } ∧
    exec (.csrw 0 0x08 v) s = .next { s with cmdPart := [], evtPending := s.evtPending &&& ~~~v } ∧
    exec (.csrw 0 0x09 v) s = .next { s with cmdPart := [], evtEnable := v &&& 0x000FFF0F } ∧
    exec (.csrw 0 0x1F v) s = .next { s with cmdPart := [], counters := ⟨0, 0, 0, 0, 0, 0⟩ } ∧
    (∀ a ∈ [0x00#8, 0x02#8, 0x10#8, 0x11#8, 0x12#8, 0x13#8, 0x14#8, 0x15#8],
      exec (.csrw 0 a v) s = .next (({ s with cmdPart := [] } : State).raise .csrWriteIgnored (a.setWidth 16))) ∧
    (∀ a ∉ [0x00#8, 0x01#8, 0x02#8, 0x03#8, 0x04#8, 0x08#8, 0x09#8, 0x10#8, 0x11#8, 0x12#8, 0x13#8, 0x14#8, 0x15#8, 0x1F#8],
      exec (.csrw 0 a v) s = .next (({ s with cmdPart := [] } : State).raise .csrUnimpl (a.setWidth 16))) ∧
    (∀ (rsv : BitVec 16) (a : BitVec 8), rsv ≠ 0 →
      exec (.csrw rsv a v) s = .next (({ s with cmdPart := [] } : State).raise .reservedNonzero 0x21))

/-- R41, R43 to R46, R48: what a CSR reads after a CSRW to it: reserved bits 0, PTFR_LEN its old value where the new one is not
legal, EVT_PENDING without the bits written 1, counters 0 after CNT_CLR. -/
def Obligations.CsrReadsBackAfterWrite : Prop :=
  ∀ (s : State) (v : Word),
    (s.csrWriteAt 0x01 v).csrValue .ctrl = v &&& 0x0000001F ∧
    (s.csrWriteAt 0x03 v).csrValue .ptfrLen = (if 5 ≤ v.toNat ∧ v.toNat ≤ 2051 then v else s.csrValue .ptfrLen) ∧
    (s.csrWriteAt 0x04 v).csrValue .fillCode = v &&& 0x0000000F ∧
    (s.csrWriteAt 0x08 v).csrValue .evtPending = s.csrValue .evtPending &&& ~~~v ∧
    (s.csrWriteAt 0x09 v).csrValue .evtEnable = v &&& 0x000FFF0F ∧
    (∀ c ∈ [Csr.cntFrames, .cntPtdps, .cntRecords, .cntCorrBits, .cntUncorr, .cntLenErr, .cntClr],
      (s.csrWriteAt 0x1F v).csrValue c = 0) ∧
    (∀ c ∈ [Csr.id, .cntFrames, .cntPtdps, .cntRecords, .cntCorrBits, .cntUncorr, .cntLenErr],
      (s.csrWriteAt c.addr v).csrValue c = s.csrValue c)

/-- R300: NOP does nothing and emits nothing; with a reserved bit set it raises RESERVED_NONZERO(0x00). -/
def Obligations.NopDoesNothing : Prop :=
  ∀ s : State, exec (.nop 0) s = .next { s with cmdPart := [] } ∧
    ∀ rsv : BitVec 24, rsv ≠ 0 → exec (.nop rsv) s = .next (({ s with cmdPart := [] } : State).raise .reservedNonzero 0x00)

/-- R301: SRST clears the parser and both contexts, with no event, and touches no CSR, no table, no response. -/
def Obligations.SrstClearsParserAndContexts : Prop :=
  ∀ s : State,
    exec (.srst 0) s = .next { s with
      cmdPart := []
      remKind := .none
      rem := []
      parseState := .aligned
      llpPending := false
      ctxHl := ⟨false, 0, []⟩
      ctxLl := ⟨false, 0, []⟩ } ∧
    ∀ rsv : BitVec 24, rsv ≠ 0 → exec (.srst rsv) s = .next (({ s with cmdPart := [] } : State).raise .reservedNonzero 0x11)

/-- Only CSRW changes CTRL, PTFR_LEN, FILL_CODE and EVT_ENABLE (R41, R43, R44, R46); no command changes the tables (R33) or the
configuration; a command other than FRAME and SRST leaves the parser and the contexts alone (R80, R282); a command other than FRAME and
CSRW leaves the counters alone (R47, R48). -/
def Obligations.CommandsLeaveOthersStateAlone : Prop :=
  ∀ (s t : State) (i : Instr), exec i s = .next t →
    t.cfg = s.cfg ∧ t.tables = s.tables ∧ t.cmdIn = s.cmdIn ∧
    (i.opcode ≠ .csrw → SameControl s t) ∧
    (i.opcode ≠ .frame → i.opcode ≠ .srst → SameParser s t) ∧
    (i.opcode ≠ .frame → i.opcode ≠ .csrw → t.counters = s.counters)

/-- R118: what a step emits is whole responses, each with a tag of the table and the number of words its first word gives; what was
emitted before stays. -/
def Obligations.ResponsesAreWholeAndTagged : Prop :=
  ∀ s t : State, limitsValid s.cfg = true → step s = .next t →
    ∃ bs : List (List Word), t.rspOut = s.rspOut ++ bs.flatten ∧ ∀ b ∈ bs, isResponse b = true

/-! ## The Golay unit -/

/-- R162: GENC answers {0x81, C}, C the data word above its parity, and changes nothing else; the rule's worked example and corner
cases under the default G_P; a reserved bit set raises RESERVED_NONZERO(0x01). -/
def Obligations.GencAnswersTheCodeword : Prop :=
  (∀ (s : State) (m : BitVec 12), s.tables = .built →
    exec (.genc 0 m) s = .next { s with cmdPart := [], rspOut := s.rspOut ++ [0x81#8 ++ (m ++ mulM m s.cfg.gP)] } ∧
    ∀ rsv : BitVec 12, rsv ≠ 0 →
      exec (.genc rsv m) s = .next (({ s with cmdPart := [] } : State).raise .reservedNonzero 0x01)) ∧
  (∀ g : Rows, encT g 0 = 0) ∧
  gencRsp (encT Config.defaultGP 0xABC) = 0x81ABC11E ∧ encT Config.defaultGP 0xFFF = 0xFFFFFF

/-- GDEC answers {0x82, 0, E, D} with (D, E) = gdec(R) and changes nothing else (R163), and its worked example and its first two corner
cases under the default G_P. -/
def Obligations.GdecAnswersDataAndCount : Prop :=
  (∀ (s : State) (r : BitVec 24), s.tables = .built →
    exec (.gdec r) s = .next { s with
      cmdPart := []
      rspOut := s.rspOut ++ [0x82000000#32 ||| ((gdec s.cfg.gP r).2.setWidth 32 <<< 12) ||| (gdec s.cfg.gP r).1.setWidth 32] }) ∧
  gdec Config.defaultGP 0xA9C116 = (0xABC, 2) ∧ gdec Config.defaultGP 0x000000 = (0, 0) ∧
  gdec Config.defaultGP 0xFFFFFF = (0xFFF, 0)

/-- GERR answers {0x83, 0, E} with E the error count of gdec(R) and changes nothing else (R164), and its worked example under the default
G_P. -/
def Obligations.GerrAnswersTheCount : Prop :=
  (∀ (s : State) (r : BitVec 24), s.tables = .built →
    exec (.gerr r) s = .next { s with
      cmdPart := [], rspOut := s.rspOut ++ [0x83000000#32 ||| (gdec s.cfg.gP r).2.setWidth 32] }) ∧
  (gdec Config.defaultGP 0xABC111).2 = 4

/-- Under a valid parameter set the syndrome is zero exactly on codewords, and two patterns of weight at most 3 with the same syndrome
are equal (R157). -/
def Obligations.SyndromesTellLightPatternsApart : Prop :=
  ∀ g : Rows, golayValid g = true →
    (∀ r : BitVec 24, syn g r = 0 ↔ ∃ m, r = encT g m) ∧
    (∀ e e' : BitVec 24, popcount e ≤ 3 → popcount e' ≤ 3 → syn g e = syn g e' → e = e')

/-- R155, R156: under a valid parameter set the correct and error tables are the ones the rules fill: an entry reached by an error
pattern of weight 1 to 3 holds its data half and its weight, entry 0 holds 0, every other entry keeps 0xFFF and 4. -/
def Obligations.TablesAreTheFilledTables : Prop :=
  ∀ g : Rows, golayValid g = true →
    corT g 0 = 0 ∧ errT g 0 = 0 ∧
    (∀ e : BitVec 24, 1 ≤ popcount e → popcount e ≤ 3 → corT g (syn g e) = dataHalf e ∧ (errT g (syn g e)).toNat = popcount e) ∧
    (∀ x : BitVec 12, x ≠ 0 → (∀ e : BitVec 24, 1 ≤ popcount e → popcount e ≤ 3 → syn g e ≠ x) → corT g x = 0xFFF ∧ errT g x = 4)

/-- R159 (a), (b): under a valid parameter set up to three bit errors are corrected and counted. -/
def Obligations.UpToThreeFlipsAreCorrected : Prop :=
  ∀ (g : Rows) (m : BitVec 12) (e : BitVec 24), golayValid g = true → popcount e ≤ 3 →
    (gdec g (encT g m ^^^ e)).1 = m ∧ (gdec g (encT g m ^^^ e)).2.toNat = popcount e

/-- R159 (c): four bit errors always give E = 4, with the data the rule names. -/
def Obligations.FourFlipsAreUncorrectable : Prop :=
  ∀ (g : Rows) (m : BitVec 12) (e : BitVec 24), golayValid g = true → popcount e = 4 →
    gdec g (encT g m ^^^ e) = (m ^^^ dataHalf e ^^^ 0xFFF, 4)

/-- R159 (g) and R158: an error that is a non-zero codeword goes unseen; E is at most 4, is 0 exactly on codewords, and where it is 4
the data is the complement of the received data. -/
def Obligations.ErrorCountsOfAnyWord : Prop :=
  ∀ g : Rows, golayValid g = true →
    (∀ m d : BitVec 12, gdec g (encT g m ^^^ encT g d) = (m ^^^ d, 0)) ∧
    (∀ r : BitVec 24, (gdec g r).2.toNat ≤ 4 ∧ ((gdec g r).2 = 0 ↔ ∃ m, r = encT g m) ∧
      ((gdec g r).2 = 4 → (gdec g r).1 = dataHalf r ^^^ 0xFFF))

/-! ## FRAME -/

/-- FRAME completes on every frame of legal length once the tables are ready: it answers PTFR_HDR first and FRAME_DONE last, with the
values after the frame, counts one frame, and writes nothing but what R212 lets it write. Its frame: the tables, CTRL, PTFR_LEN,
FILL_CODE, EVT_ENABLE, the host's words and the configuration stay. -/
def Obligations.FrameAnswersHeaderToDone : Prop :=
  ∀ (s : State) (f : List Byte), s.tables = .built → 5 ≤ f.length → f.length ≤ 2051 →
    ∃ t ws, exec (.frame 0 f) s = .next t ∧ FrameWrites s t ∧
      t.counters.frames = s.counters.frames + 1 ∧
      t.rspOut = s.rspOut
        ++ [ptfrHdr (byteAt f 0) (llpOf (gdec s.cfg.gP (codewordAt f 1)).1) (gdec s.cfg.gP (codewordAt f 1)).2
              (offOf (gdec s.cfg.gP (codewordAt f 1)).1)]
        ++ ws ++ [frameDoneRsp t.parseState t.remKind t.llpPending t.rem.length]

/-- A FRAME term whose byte count no PTFR_LEN value allows is the one thing `exec` faults on (the model's choice,
notes/assumptions/16); no command word sequence gives one while PTFR_LEN is legal. -/
def Obligations.OnlyIllFormedFramesFault : Prop :=
  (∀ (s : State) (i : Instr) (r : Fault), exec i s = .fault r → i.lengthLegal = false ∧ r = .illFormedFrame) ∧
  (∀ (s : State) (i : Instr) (r : Refusal), exec i s ≠ .refused r) ∧
  (∀ (len : Nat) (ws rest : List Word) (i : Instr), 5 ≤ len → len ≤ 2051 → decode len ws = .command i rest → i.lengthLegal = true)

/-- R219: after a FRAME the parser is in one of the four rows' states. -/
def Obligations.FrameOutcomesAreTheTable : Prop :=
  ∀ (s t : State) (f : List Byte), s.tables = .built → exec (.frame 0 f) s = .next t →
    (t.remKind = .empty ∧ t.rem = [] ∧ t.parseState = .aligned ∧ t.llpPending = false) ∨
    (t.remKind = .bytes ∧ 1 ≤ t.rem.length ∧ t.rem.length ≤ 2053 ∧ t.parseState = .waitMore ∧ t.llpPending = false) ∨
    (t.remKind = .empty ∧ t.rem = [] ∧ t.parseState = .resync ∧ t.llpPending = false) ∨
    (t.remKind = s.remKind ∧ t.rem = s.rem ∧ t.parseState = s.parseState ∧ t.llpPending = true)

/-- R212, R213, R216: a frame with llp = 0, no remainder and an offset past its payload parses nothing: OFFSET_OUT_OF_RANGE(off) is
raised and the frame ends EMPTY and ALIGNED. Where an LLP run was to go on, LLP_STATE_MISMATCH(0) is raised first; `llp_pending` is
cleared either way. -/
def Obligations.OffsetBeyondPayloadParsesNothing : Prop :=
  ∀ (s : State) (f : List Byte) (off : BitVec 11) (e0 : BitVec 3), s.tables = .built → 5 ≤ f.length → f.length ≤ 2051 →
    s.remKind ≠ .bytes → gdec s.cfg.gP (codewordAt f 1) = (0#1 ++ off, e0) → e0.toNat ≤ 3 →
    f.length - 4 ≤ off.toNat → off ≠ 0x7FF →
    exec (.frame 0 f) s = .next { s with
      cmdPart := []
      counters := { s.counters with
        frames := s.counters.frames + 1
        corrBits := s.counters.corrBits + e0.setWidth 32 }
      evtPending := s.evtPending ||| (if s.llpPending then 0x00009000 else 0x00001000)
      remKind := .empty
      rem := []
      parseState := .aligned
      llpPending := false
      rspOut := s.rspOut ++ [ptfrHdr (byteAt f 0) false e0 off]
        ++ (if s.llpPending && s.evtOutEn then [0xE0170000] else [])
        ++ (if s.evtOutEn then [0xE014#16 ++ off.setWidth 16] else []) ++ [0x9F100000] }

/-- R212: what the protected field decides. The header goes out and the field is counted. Then, with GFAIL_RESYNC = 1, an uncorrectable
field sends the parser to RESYNC and the payload is not parsed (spelt out for a parser with no chain in progress). Else a pending LLP
that does not come raises LLP_STATE_MISMATCH(0), `llp_pending` is cleared, and the payload is parsed under `llp` and `off` as decoded,
miscorrected or not. FRAME_DONE ends the frame. -/
def Obligations.ProtectedFieldDecidesTheFrame : Prop :=
  ∀ (s s1 s2 : State) (f : List Byte) (w0 : BitVec 12) (e0 : BitVec 3), s.tables = .built → 5 ≤ f.length → f.length ≤ 2051 →
    gdec s.cfg.gP (codewordAt f 1) = (w0, e0) →
    s1 = ({ s with
      cmdPart := []
      counters := { s.counters with
        frames := s.counters.frames + 1
        corrBits := if e0 = 4 then s.counters.corrBits else s.counters.corrBits + e0.setWidth 32
        uncorr := if e0 = 4 then s.counters.uncorr + 1 else s.counters.uncorr }
      evtPending := if e0 = 4 then s.evtPending ||| 0x00000400 else s.evtPending
      rspOut := s.rspOut ++ [ptfrHdr (byteAt f 0) (w0.getLsbD 11) e0 (w0.extractLsb' 0 11)]
        ++ (if e0 = 4 ∧ s.evtOutEn = true then [0xE0120000] else []) } : State) →
    s2 = ({ s1 with
      llpPending := false
      evtPending := if s.llpPending = true ∧ w0.getLsbD 11 = false then s1.evtPending ||| 0x00008000 else s1.evtPending
      rspOut := s1.rspOut
        ++ (if s.llpPending = true ∧ w0.getLsbD 11 = false ∧ s.evtOutEn = true then [0xE0170000] else []) } : State) →
    (e0 ≠ 4 ∨ s.ctrl.getLsbD 3 = false →
      ∃ t, t = s2.parsePayload (f.drop 4) (w0.getLsbD 11) (w0.extractLsb' 0 11) ∧
        exec (.frame 0 f) s = .next { t with
          rspOut := t.rspOut ++ [frameDoneRsp t.parseState t.remKind t.llpPending t.rem.length] }) ∧
    (e0 = 4 → s.ctrl.getLsbD 3 = true →
      exec (.frame 0 f) s = .next { s1.resync with rspOut := s1.resync.rspOut ++ [0x9F900000] }) ∧
    (e0 = 4 → s.ctrl.getLsbD 3 = true → s.ctxHl.active = false → s.ctxLl.active = false →
      exec (.frame 0 f) s = .next { s with
        cmdPart := []
        counters := { s.counters with
          frames := s.counters.frames + 1
          uncorr := s.counters.uncorr + 1 }
        evtPending := s.evtPending ||| 0x00000400
        remKind := .empty
        rem := []
        parseState := .resync
        llpPending := false
        rspOut := s.rspOut ++ [ptfrHdr (byteAt f 0) (w0.getLsbD 11) 4 (w0.extractLsb' 0 11)]
          ++ (if s.evtOutEn then [0xE0120000] else []) ++ [0x9F900000] })

/-- R218: what RESYNC does: the remainder is dropped, and while REC_OUT_EN = 1 the active chains are abandoned, HL first. That an ended
chain's content code stays is the model's reading (notes/assumptions/20). -/
def Obligations.ResyncDropsRemainderAndChains : Prop :=
  ∀ s : State,
    (s.recOutEn = false →
      s.resync = { s with remKind := .empty, rem := [], parseState := .resync, llpPending := false }) ∧
    (s.recOutEn = true →
      s.resync = { s with
        remKind := .empty
        rem := []
        parseState := .resync
        llpPending := false
        ctxHl := if s.ctxHl.active then { s.ctxHl with active := false, buf := [] } else s.ctxHl
        ctxLl := if s.ctxLl.active then { s.ctxLl with active := false, buf := [] } else s.ctxLl
        evtPending := if s.ctxHl.active || s.ctxLl.active then s.evtPending ||| 0x00040000 else s.evtPending
        rspOut := s.rspOut
          ++ (if s.ctxHl.active && s.evtOutEn then
                [0xE0210000#32 ||| BitVec.ofNat 32 (min s.ctxHl.buf.length 0x7FFF)] else [])
          ++ (if s.ctxLl.active && s.evtOutEn then
                [0xE0218000#32 ||| BitVec.ofNat 32 (min s.ctxLl.buf.length 0x7FFF)] else []) })

/-- R205, R209, R210: a PTDP sent with at most three bit errors in each codeword unpacks to its fields and its payload whatever follows
it, its corrected bits counted; a proper beginning of it is incomplete and counts nothing. -/
def Obligations.SentPtdpUnpacks : Prop :=
  ∀ (s : State) (p : SentPtdp) (rest : List Byte), golayValid s.cfg.gP = true → p.ok = true →
    s.unpack (p.wire s.cfg.gP ++ rest) = (.ok p.ptdp.header p.ptdp.data,
      { s with counters := { s.counters with
          corrBits := s.counters.corrBits + BitVec.ofNat 32 (popcount p.err1) + BitVec.ofNat 32 (popcount p.err2) } }) ∧
    (∀ k, k < (p.wire s.cfg.gP).length → s.unpack ((p.wire s.cfg.gP).take k) = (.inc, s))

/-- R214, R216, R217, R218: what ends a frame in RESYNC. A length above 2048 is counted in CNT_LEN_ERR and raises PTDP_LENGTH_ERROR(n)
first; an uncorrectable header while GFAIL_RESYNC = 1 raises nothing more; both in HL_LOOP and in an LLP run. An LLP that does not
complete raises LLP_INCOMPLETE(N - c) first. In HL_LOOP an offset check pending at a position inside the payload comes before, and no
final check after. `UnpackFollowsTheRule` says when `unpack` answers what. -/
def Obligations.FailedPtdpResyncs : Prop :=
  ∀ (s s0 s1 : State) (n : Nat) (off : BitVec 11) (b p : List Byte) (pos : Int) (check : Bool) (m : BitVec 16) (c fuel : Nat),
    s0 = (if check = true ∧ 0 ≤ pos ∧ pos < n ∧ (off.toNat : Int) ≠ pos then
      s.raise .offsetMismatch (BitVec.ofNat 16 pos.toNat) else s) →
    (s0.unpack b = (.len m, s1) →
      hlLoop n off (fuel + 1) b pos check s =
        ((({ s1 with counters := { s1.counters with lenErr := s1.counters.lenErr + 1 } } : State).raise .ptdpLengthError m).resync)) ∧
    (s0.unpack b = (.gfail, s1) → hlLoop n off (fuel + 1) b pos check s = s1.resync) ∧
    (s.unpack (p.drop c) = (.len m, s1) →
      llpRun p off (fuel + 1) c s = .done
        ((({ s1 with counters := { s1.counters with lenErr := s1.counters.lenErr + 1 } } : State).raise .ptdpLengthError m).resync)) ∧
    (s.unpack (p.drop c) = (.gfail, s1) → llpRun p off (fuel + 1) c s = .done s1.resync) ∧
    (s.unpack (p.drop c) = (.inc, s1) →
      llpRun p off (fuel + 1) c s = .done ((s.raise .llpIncomplete (BitVec.ofNat 16 (p.length - c))).resync))

/-- R214: an LLP PTDP with nothing but its marker after it. With no marker byte left, MISSING_LLP_MARKER is raised; with 0xFF as the last
byte nothing is raised; either way `llp_pending` is set, the frame ends and the HL state stays. -/
def Obligations.LlpAtTheEndOfTheFrameWaits : Prop :=
  ∀ (s : State) (f0 : Byte) (off : BitVec 11) (p : SentPtdp) (f : List Byte),
    golayValid s.cfg.gP = true → s.tables = .built → s.recOutEn = false → s.ptdpOutEn = true →
    p.ok = true → p.err1 = 0 → p.err2 = 0 → 5 ≤ f.length → f.length ≤ 2051 →
    (f = f0 :: (bytesOfCodeword (encT s.cfg.gP (1#1 ++ off)) ++ p.wire s.cfg.gP) →
      exec (.frame 0 f) s = .next { s with
        cmdPart := []
        counters := { s.counters with
          frames := s.counters.frames + 1
          ptdps := s.counters.ptdps + 1 }
        evtPending := s.evtPending ||| 0x00004000
        llpPending := true
        rspOut := s.rspOut ++ ptfrHdr f0 true 0 off :: ptdpRsp .ll p.ptdp.header p.ptdp.data
          ++ (if s.evtOutEn then [0xE0160000] else []) ++ [frameDoneRsp s.parseState s.remKind true s.rem.length] }) ∧
    (f = f0 :: (bytesOfCodeword (encT s.cfg.gP (1#1 ++ off)) ++ p.wire s.cfg.gP ++ [0xFF]) →
      exec (.frame 0 f) s = .next { s with
        cmdPart := []
        counters := { s.counters with
          frames := s.counters.frames + 1
          ptdps := s.counters.ptdps + 1 }
        llpPending := true
        rspOut := s.rspOut ++ ptfrHdr f0 true 0 off :: ptdpRsp .ll p.ptdp.header p.ptdp.data
          ++ [frameDoneRsp s.parseState s.remKind true s.rem.length] })

/-- R214: the byte after a whole LLP decides how its run goes on. 0xFF: another LLP follows, in this frame or, where the frame ends, in the
next one. 0x00 ends the run; so does any other byte, which raises BAD_LLP_MARKER. At the end of the run, and only there, `off` is
checked against the cursor. -/
def Obligations.MarkerDecidesTheLlpRun : Prop :=
  ∀ (s s2 : State) (off : BitVec 11) (fuel : Nat) (pre rest : List Byte) (m : Byte) (p : SentPtdp),
    golayValid s.cfg.gP = true → p.ok = true →
    s2 = ({ s with counters := { s.counters with
        corrBits := s.counters.corrBits + BitVec.ofNat 32 (popcount p.err1) + BitVec.ofNat 32 (popcount p.err2) } } :
          State).emitPtdp .ll p.ptdp.header p.ptdp.data →
    (m = 0xFF → rest = [] →
      llpRun (pre ++ (p.wire s.cfg.gP ++ m :: rest)) off (fuel + 1) pre.length s = .done { s2 with llpPending := true }) ∧
    (m = 0xFF → rest ≠ [] →
      llpRun (pre ++ (p.wire s.cfg.gP ++ m :: rest)) off (fuel + 1) pre.length s =
        llpRun (pre ++ (p.wire s.cfg.gP ++ m :: rest)) off fuel (pre.length + (p.wire s.cfg.gP).length + 1) s2) ∧
    (m ≠ 0xFF → ∀ (c : Nat) (s3 : State), c = pre.length + (p.wire s.cfg.gP).length + 1 →
      s3 = (if m = 0x00 then s2 else s2.raise .badLlpMarker (m.setWidth 16)) →
      llpRun (pre ++ (p.wire s.cfg.gP ++ m :: rest)) off (fuel + 1) pre.length s =
        .hl c (if s.ctrl.getLsbD 4 = true ∧ off.toNat ≠ c then s3.raise .offsetMismatch (BitVec.ofNat 16 c) else s3))

/-- R216, R217: HL_LOOP where no PTDP fails. A whole PTDP is counted, emitted and reassembled, and the loop goes on behind it, the offset
check carried on if it was not made here. Bytes that hold no whole PTDP become the remainder as they are, and PTDP_INCOMPLETE counts
them; a buffer used up leaves EMPTY and ALIGNED. A pending offset check is made at a position inside the payload, or else against the
sentinel when the loop ends. -/
def Obligations.HlLoopFollowsTheRule : Prop :=
  ∀ (s s0 : State) (n : Nat) (off : BitVec 11) (b : List Byte) (pos : Int) (check : Bool) (fuel : Nat),
    s0 = (if check = true ∧ 0 ≤ pos ∧ pos < n ∧ (off.toNat : Int) ≠ pos then
      s.raise .offsetMismatch (BitVec.ofNat 16 pos.toNat) else s) →
    (∀ (s1 : State) (h : PtdpHeader) (data : List Byte), s0.unpack b = (.ok h data, s1) →
      hlLoop n off (fuel + 1) b pos check s =
        hlLoop n off fuel (b.drop (6 + h.length.toNat)) (pos + (6 + h.length.toNat : Nat))
          (check && !decide (0 ≤ pos ∧ pos < n)) (s1.emitPtdp .hl h data)) ∧
    (0 < b.length →
      b.length < 6 ∨ ((decodeHeader s.cfg.gP b).1.length.toNat ≤ 2048 ∧
        b.length < 6 + (decodeHeader s.cfg.gP b).1.length.toNat ∧
        (s.ctrl.getLsbD 3 = false ∨ ((decodeHeader s.cfg.gP b).2.1 ≠ 4 ∧ (decodeHeader s.cfg.gP b).2.2 ≠ 4))) →
      hlLoop n off (fuel + 1) b pos check s =
        (if check = true ∧ ¬ (0 ≤ pos ∧ pos < n) ∧ off ≠ 0x7FF then
          ({ s0 with remKind := .bytes, rem := b, parseState := .waitMore } : State).raise .offsetMismatch 0x7FF
        else { s0 with remKind := .bytes, rem := b, parseState := .waitMore }).raise .ptdpIncomplete
          (BitVec.ofNat 16 b.length)) ∧
    hlLoop n off (fuel + 1) [] pos check s =
      (let s1 := if check = true ∧ ¬ (0 ≤ pos ∧ pos < n) ∧ off ≠ 0x7FF then s0.raise .offsetMismatch 0x7FF else s0
       { s1 with remKind := .empty, rem := [], parseState := .aligned })

/-- R217: OFFCHK_EN decides nothing but one OFFSET_MISMATCH report. With the check and without it a FRAME leaves the same state, but for
the CTRL bit itself and the report: either there is none, or bit 11 is pending and, while EVT_OUT_EN = 1, exactly one more word stands
among the words this FRAME emitted, the OFFSET_MISMATCH EVT word. -/
def Obligations.OffsetCheckOnlyReports : Prop :=
  ∀ (s t0 t1 : State) (f : List Byte), exec (.frame 0 f) (s.withOffchk false) = .next t0 →
    exec (.frame 0 f) (s.withOffchk true) = .next t1 →
    t1 = t0.withOffchk true ∨
    ∃ ws, t1 = { t0.withOffchk true with evtPending := t0.evtPending ||| 0x00000800, rspOut := ws } ∧
      ((s.evtOutEn = false ∧ ws = t0.rspOut) ∨
        (s.evtOutEn = true ∧ ∃ (a b : List Word) (info : BitVec 16),
          t0.rspOut = s.rspOut ++ a ++ b ∧ ws = s.rspOut ++ a ++ [0xE013#16 ++ info] ++ b))

/-- R223 for one latency class mix, with reassembly off: a stream of frames that the producer contract allows (R281), cut anywhere and
with at most three bit errors in every codeword, parses from the start of an analysis to exactly its HL PTDPs and its LLP PTDPs, each
class in order, and raises no event but PTDP_INCOMPLETE. The HL stream ends where the frames end. The first frame's LLP run leaves
room for HL bytes: where it does not, R215 raises OFFSET_OUT_OF_RANGE (notes/assumptions/18). -/
def Obligations.ProducerStreamRoundTrips : Prop :=
  ∀ (s : State) (len : Nat) (ps : List SentPtdp) (pls : List FramePlan),
    golayValid s.cfg.gP = true → s.tables = .built → s.ptdpOutEn = true → s.recOutEn = false →
    s.remKind = .none → s.rem = [] → s.llpPending = false → 5 ≤ len → len ≤ 2051 →
    ps.all SentPtdp.ok = true → pls.all (FramePlan.ok s.cfg.gP (len - 4)) = true →
    (hlStream s.cfg.gP ps).length = streamRoom s.cfg.gP (len - 4) pls →
    (∀ pl ∈ pls.head?, 0 < pl.room s.cfg.gP (len - 4)) →
    ∃ (t : State) (bs : List (List Word)), runFrames (streamFrames s.cfg.gP (len - 4) pls (hlStream s.cfg.gP ps)) s = .next t ∧
      t.rspOut = s.rspOut ++ bs.flatten ∧ (∀ b ∈ bs, isResponse b = true) ∧
      bs.filter (hasTag 0x90) = ps.map (fun p => ptdpRsp .hl p.ptdp.header p.ptdp.data) ∧
      bs.filter (hasTag 0x91) = (pls.flatMap (·.llps)).map (fun p => ptdpRsp .ll p.ptdp.header p.ptdp.data) ∧
      (t.evtPending = s.evtPending ∨ t.evtPending = s.evtPending ||| 0x00000200) ∧
      t.remKind ≠ .bytes ∧ t.llpPending = false

/-- R211: an unpacked PTDP is counted; its PTDP response is emitted exactly when PTDP_OUT_EN = 1; then it goes to the reassembler exactly
when REC_OUT_EN = 1. -/
def Obligations.UnpackedPtdpIsCountedAndReported : Prop :=
  ∀ (s s1 : State) (t : Latency) (h : PtdpHeader) (data : List Byte),
    s1 = { s with
      counters := { s.counters with ptdps := s.counters.ptdps + 1 }
      rspOut := s.rspOut ++ (if s.ctrl.getLsbD 0 then
        (0x90000000#32 ||| (t.bit.setWidth 32 <<< 24) ||| (h.fragment.code.setWidth 32 <<< 22) ||| (h.content.setWidth 32 <<< 18)
          ||| (h.reserved.setWidth 32 <<< 16) ||| h.length.setWidth 32) :: packBytes data else []) } →
    s.emitPtdp t h data = if s.ctrl.getLsbD 1 then s1.raTake t h.fragment h.content data else s1

/-- R213: the initial buffer of a frame with llp = 0, row by row, and whether its offset check is made. -/
def Obligations.InitialBufferIsTheTable : Prop :=
  ∀ (s : State) (p : List Byte) (off : BitVec 11),
    (s.remKind ≠ .bytes → 0 < off.toNat → off.toNat < 0x7FF →
      s.initialBuffer p off =
        (⟨p.drop off.toNat, off.toNat, false⟩,
          if p.length ≤ off.toNat then s.raise .offsetOutOfRange (off.setWidth 16) else s)) ∧
    (s.remKind ≠ .bytes → off = 0 ∨ off = 0x7FF → s.initialBuffer p off = (⟨p, 0, s.ctrl.getLsbD 4⟩, s)) ∧
    (s.remKind = .bytes → s.initialBuffer p off = (⟨s.rem ++ p, -(s.rem.length : Int), s.ctrl.getLsbD 4⟩, s))

/-- R215: the buffer after an LLP run that ended at cursor c, row by row; its offset check has been made already. -/
def Obligations.BufferAfterLlpRunIsTheTable : Prop :=
  ∀ (s : State) (p : List Byte) (off : BitVec 11) (c : Nat),
    (s.remKind = .none → 0 < off.toNat → off.toNat < 0x7FF →
      s.hlAfterLlp p off c =
        (⟨p.drop off.toNat, off.toNat, false⟩,
          if p.length ≤ off.toNat then s.raise .offsetOutOfRange (off.setWidth 16) else s)) ∧
    (s.remKind = .bytes → s.hlAfterLlp p off c = (⟨s.rem ++ p.drop c, (c : Int) - s.rem.length, false⟩, s)) ∧
    (s.remKind = .empty ∨ (s.remKind = .none ∧ (off = 0 ∨ off = 0x7FF)) →
      s.hlAfterLlp p off c = (⟨p.drop c, c, false⟩, s))

/-! ## Reassembly -/

/-- R271: a fill PTDP is ignored, whatever its fragment code. -/
def Obligations.FillIsIgnored : Prop :=
  ∀ (s : State) (t : Latency) (fr : Fragment) (data : List Byte), s.raTake t fr s.fillCode data = s

/-- R272, R278: a COMPLETE is a record of its own; it ends a chain in progress; one above the maximum is discarded. That
a chain that ends keeps its content code is the model's reading (notes/assumptions/20). -/
def Obligations.CompleteIsARecord : Prop :=
  ∀ (s : State) (t : Latency) (content : BitVec 4) (data : List Byte), content ≠ s.fillCode →
    (data.length ≤ s.cfg.maxRecordBytes →
      s.raTake t .complete content data =
        { s.abandon t with
          counters := { s.counters with records := s.counters.records + 1 }
          rspOut := (s.abandon t).rspOut ++ recordHead t content data.length :: packBytes data }) ∧
    (s.cfg.maxRecordBytes < data.length →
      s.raTake t .complete content data = (s.abandon t).raise .recordOverflow (t.bit.setWidth 16)) ∧
    (s.abandon t).ctx t = (if (s.ctx t).active then ⟨false, (s.ctx t).content, []⟩ else s.ctx t)

/-- R273, R274, R276, R277: FIRST opens a chain, MIDDLE extends it; an orphan is reported and discarded; an overflow drops the chain. That
a chain that ends keeps its content code is the model's reading (notes/assumptions/20). -/
def Obligations.FirstAndMiddleBuildAChain : Prop :=
  ∀ (s : State) (t : Latency) (content : BitVec 4) (data : List Byte), content ≠ s.fillCode →
    (data.length ≤ s.cfg.maxRecordBytes →
      s.raTake t .first content data = (s.abandon t).setCtx t ⟨true, content, data⟩) ∧
    (s.cfg.maxRecordBytes < data.length →
      s.raTake t .first content data = (s.abandon t).raise .recordOverflow (t.bit.setWidth 16)) ∧
    ((s.ctx t).active = false →
      s.raTake t .middle content data = s.raise .fragOrphan ((t.bit.setWidth 16 <<< 2) ||| 2)) ∧
    ((s.ctx t).active = true → (s.ctx t).buf.length + data.length ≤ s.cfg.maxRecordBytes →
      s.raTake t .middle content data = s.setCtx t ⟨true, (s.ctx t).content, (s.ctx t).buf ++ data⟩) ∧
    ((s.ctx t).active = true → s.cfg.maxRecordBytes < (s.ctx t).buf.length + data.length →
      s.raTake t .middle content data =
        (s.raise .recordOverflow (t.bit.setWidth 16)).setCtx t ⟨false, (s.ctx t).content, []⟩)

/-- R275 to R278: LAST emits the record of the whole chain, under the FIRST's content code, and closes it; without a chain it is an
orphan; an overflow drops the chain. That
a chain that ends keeps its content code is the model's reading (notes/assumptions/20). -/
def Obligations.LastEmitsTheRecord : Prop :=
  ∀ (s : State) (t : Latency) (content : BitVec 4) (data : List Byte), content ≠ s.fillCode →
    ((s.ctx t).active = false →
      s.raTake t .last content data = s.raise .fragOrphan ((t.bit.setWidth 16 <<< 2) ||| 3)) ∧
    ((s.ctx t).active = true → (s.ctx t).buf.length + data.length ≤ s.cfg.maxRecordBytes →
      s.raTake t .last content data =
        (({ s with
            counters := { s.counters with records := s.counters.records + 1 }
            rspOut := s.rspOut ++ recordHead t (s.ctx t).content ((s.ctx t).buf.length + data.length)
              :: packBytes ((s.ctx t).buf ++ data) } : State).setCtx t ⟨false, (s.ctx t).content, []⟩)) ∧
    ((s.ctx t).active = true → s.cfg.maxRecordBytes < (s.ctx t).buf.length + data.length →
      s.raTake t .last content data =
        (s.raise .recordOverflow (t.bit.setWidth 16)).setCtx t ⟨false, (s.ctx t).content, []⟩)

/-- R270: taking a PTDP of one class leaves the other class's context, the parser's state and every control register alone, and
counts at most records. -/
def Obligations.ClassesReassembleIndependently : Prop :=
  ∀ (s : State) (t : Latency) (fr : Fragment) (content : BitVec 4) (data : List Byte),
    ∃ c p k ws, s.raTake t fr content data =
      ({ s with
          counters := { s.counters with records := s.counters.records + k }
          evtPending := s.evtPending ||| p
          rspOut := s.rspOut ++ ws } : State).setCtx t c ∧
      (k = 0 ∨ k = 1) ∧ p &&& ~~~0x000E0000 = 0

/-- R279: the reference fragmenter cuts a record as the rule says, whatever reserved header bits its PTDPs are given (the rule names
none). -/
def Obligations.FragmenterCutsAsTheRuleSays : Prop :=
  ∀ (rsv : Nat → BitVec 2) (content : BitVec 4) (bytes : List Byte),
    (bytes.length ≤ 2048 → fragmentRecord rsv content bytes = [⟨.complete, content, rsv 0, bytes⟩]) ∧
    (2048 < bytes.length → ∃ k : Nat, k + 2 = (bytes.length + 2047) / 2048 ∧
      (fragmentRecord rsv content bytes).map (·.fragment) = .first :: (List.replicate k .middle ++ [.last]) ∧
      (fragmentRecord rsv content bytes).map (·.data.length) = 2048 :: (List.replicate k 2048 ++ [bytes.length - 2048 * (k + 1)]) ∧
      1 ≤ bytes.length - 2048 * (k + 1) ∧ bytes.length - 2048 * (k + 1) ≤ 2048) ∧
    (fragmentRecord rsv content bytes).flatMap (·.data) = bytes ∧
    (∀ p ∈ fragmentRecord rsv content bytes, p.content = content)

/-- The reassembly property (42_reassembly R275, R279): the fragments of any record up to the maximum, with any reserved header bits,
taken in order by an idle context, give exactly one RECORD response with the record's bytes, no event, and an idle context again; the
other context and everything else stay. -/
def Obligations.FragmentedRecordReassembles : Prop :=
  ∀ (rsv : Nat → BitVec 2) (s : State) (t : Latency) (content : BitVec 4) (bytes : List Byte), content ≠ s.fillCode →
    bytes.length ≤ s.cfg.maxRecordBytes → (s.ctx t).active = false → (s.ctx t).buf = [] →
    ∃ c : Context, c.active = false ∧ c.buf = [] ∧
      takeAll t (fragmentRecord rsv content bytes) s =
        ({ s with
            counters := { s.counters with records := s.counters.records + 1 }
            rspOut := s.rspOut ++ recordHead t content bytes.length :: packBytes bytes } : State).setCtx t c

/-! ## Unpacking -/

/-- R204, R205, R209, R210: what `unpack` answers on any bytes. Fewer than six are no header. A header's two codewords decode to its
fields, as they are or miscorrected; an uncorrectable one is GFAIL while GFAIL_RESYNC = 1; a length above 2048 is LEN; a payload not
all there is INC; the rest is OK. INC counts nothing; each other answer counts both codewords, in order, and GOLAY_UNCORRECTABLE
names the field of each uncorrectable one. -/
def Obligations.UnpackFollowsTheRule : Prop :=
  ∀ (s s1 : State) (b : List Byte) (w1 w2 : BitVec 12) (e1 e2 : BitVec 3) (n : BitVec 16) (h : PtdpHeader) (bad : Prop),
    (b.length < 6 → s.unpack b = (.inc, s)) ∧
    (6 ≤ b.length →
      (w1, e1) = gdec s.cfg.gP (b.getD 0 0 ++ b.getD 1 0 ++ b.getD 2 0) →
      (w2, e2) = gdec s.cfg.gP (b.getD 3 0 ++ b.getD 4 0 ++ b.getD 5 0) →
      n = (w2.setWidth 16 <<< 4) ||| (w1.extractLsb' 8 4).setWidth 16 →
      h.fragment.code = w1.extractLsb' 6 2 ∧ h.content = w1.extractLsb' 2 4 ∧ h.reserved = w1.extractLsb' 0 2 ∧ h.length = n →
      (bad ↔ s.ctrl.getLsbD 3 = true ∧ (e1 = 4 ∨ e2 = 4)) →
      s1 = { s with
        counters := { s.counters with
          corrBits := s.counters.corrBits + (if e1 = 4 then 0 else e1.setWidth 32) + (if e2 = 4 then 0 else e2.setWidth 32)
          uncorr := s.counters.uncorr + (if e1 = 4 then 1 else 0) + (if e2 = 4 then 1 else 0) }
        evtPending := if e1 = 4 ∨ e2 = 4 then s.evtPending ||| 0x00000400 else s.evtPending
        rspOut := s.rspOut ++ (if e1 = 4 ∧ s.evtOutEn = true then [0xE0120001] else [])
          ++ (if e2 = 4 ∧ s.evtOutEn = true then [0xE0120002] else []) } →
      (bad → s.unpack b = (.gfail, s1)) ∧
      (¬ bad → 2048 < n.toNat → s.unpack b = (.len n, s1)) ∧
      (¬ bad → n.toNat ≤ 2048 → b.length < 6 + n.toNat → s.unpack b = (.inc, s)) ∧
      (¬ bad → n.toNat ≤ 2048 → 6 + n.toNat ≤ b.length → s.unpack b = (.ok h ((b.drop 6).take n.toNat), s1)))
end

