-- ==== Sys2Proof/Laws/State.lean ====
section
/-! SUPPORT. One lemma per field per state update, so that no proof unfolds a record update. -/

namespace Sys2Proof.Machine

variable (s : State)

/-! ## emit -/

@[simp] theorem emit_cfg (w : Word) : (s.emit w).cfg = s.cfg := rfl
@[simp] theorem emit_tables (w : Word) : (s.emit w).tables = s.tables := rfl
@[simp] theorem emit_ctrl (w : Word) : (s.emit w).ctrl = s.ctrl := rfl
@[simp] theorem emit_ptfrLen (w : Word) : (s.emit w).ptfrLen = s.ptfrLen := rfl
@[simp] theorem emit_fillCode (w : Word) : (s.emit w).fillCode = s.fillCode := rfl
@[simp] theorem emit_evtPending (w : Word) : (s.emit w).evtPending = s.evtPending := rfl
@[simp] theorem emit_evtEnable (w : Word) : (s.emit w).evtEnable = s.evtEnable := rfl
@[simp] theorem emit_counters (w : Word) : (s.emit w).counters = s.counters := rfl
@[simp] theorem emit_remKind (w : Word) : (s.emit w).remKind = s.remKind := rfl
@[simp] theorem emit_rem (w : Word) : (s.emit w).rem = s.rem := rfl
@[simp] theorem emit_parseState (w : Word) : (s.emit w).parseState = s.parseState := rfl
@[simp] theorem emit_llpPending (w : Word) : (s.emit w).llpPending = s.llpPending := rfl
@[simp] theorem emit_ctxHl (w : Word) : (s.emit w).ctxHl = s.ctxHl := rfl
@[simp] theorem emit_ctxLl (w : Word) : (s.emit w).ctxLl = s.ctxLl := rfl
@[simp] theorem emit_cmdPart (w : Word) : (s.emit w).cmdPart = s.cmdPart := rfl
@[simp] theorem emit_cmdIn (w : Word) : (s.emit w).cmdIn = s.cmdIn := rfl
@[simp] theorem emit_rspOut (w : Word) : (s.emit w).rspOut = s.rspOut ++ [w] := rfl

/-! ## emitAll -/

@[simp] theorem emitAll_cfg (ws : List Word) : (s.emitAll ws).cfg = s.cfg := rfl
@[simp] theorem emitAll_tables (ws : List Word) : (s.emitAll ws).tables = s.tables := rfl
@[simp] theorem emitAll_ctrl (ws : List Word) : (s.emitAll ws).ctrl = s.ctrl := rfl
@[simp] theorem emitAll_ptfrLen (ws : List Word) : (s.emitAll ws).ptfrLen = s.ptfrLen := rfl
@[simp] theorem emitAll_fillCode (ws : List Word) : (s.emitAll ws).fillCode = s.fillCode := rfl
@[simp] theorem emitAll_evtPending (ws : List Word) : (s.emitAll ws).evtPending = s.evtPending := rfl
@[simp] theorem emitAll_evtEnable (ws : List Word) : (s.emitAll ws).evtEnable = s.evtEnable := rfl
@[simp] theorem emitAll_counters (ws : List Word) : (s.emitAll ws).counters = s.counters := rfl
@[simp] theorem emitAll_remKind (ws : List Word) : (s.emitAll ws).remKind = s.remKind := rfl
@[simp] theorem emitAll_rem (ws : List Word) : (s.emitAll ws).rem = s.rem := rfl
@[simp] theorem emitAll_parseState (ws : List Word) : (s.emitAll ws).parseState = s.parseState := rfl
@[simp] theorem emitAll_llpPending (ws : List Word) : (s.emitAll ws).llpPending = s.llpPending := rfl
@[simp] theorem emitAll_ctxHl (ws : List Word) : (s.emitAll ws).ctxHl = s.ctxHl := rfl
@[simp] theorem emitAll_ctxLl (ws : List Word) : (s.emitAll ws).ctxLl = s.ctxLl := rfl
@[simp] theorem emitAll_cmdPart (ws : List Word) : (s.emitAll ws).cmdPart = s.cmdPart := rfl
@[simp] theorem emitAll_cmdIn (ws : List Word) : (s.emitAll ws).cmdIn = s.cmdIn := rfl
@[simp] theorem emitAll_rspOut (ws : List Word) : (s.emitAll ws).rspOut = s.rspOut ++ ws := rfl

/-! ## setPending -/

@[simp] theorem setPending_cfg (e : Event) : (s.setPending e).cfg = s.cfg := rfl
@[simp] theorem setPending_tables (e : Event) : (s.setPending e).tables = s.tables := rfl
@[simp] theorem setPending_ctrl (e : Event) : (s.setPending e).ctrl = s.ctrl := rfl
@[simp] theorem setPending_ptfrLen (e : Event) : (s.setPending e).ptfrLen = s.ptfrLen := rfl
@[simp] theorem setPending_fillCode (e : Event) : (s.setPending e).fillCode = s.fillCode := rfl
@[simp] theorem setPending_evtPending (e : Event) : (s.setPending e).evtPending = s.evtPending ||| BitVec.twoPow 32 e.bit := rfl
@[simp] theorem setPending_evtEnable (e : Event) : (s.setPending e).evtEnable = s.evtEnable := rfl
@[simp] theorem setPending_counters (e : Event) : (s.setPending e).counters = s.counters := rfl
@[simp] theorem setPending_remKind (e : Event) : (s.setPending e).remKind = s.remKind := rfl
@[simp] theorem setPending_rem (e : Event) : (s.setPending e).rem = s.rem := rfl
@[simp] theorem setPending_parseState (e : Event) : (s.setPending e).parseState = s.parseState := rfl
@[simp] theorem setPending_llpPending (e : Event) : (s.setPending e).llpPending = s.llpPending := rfl
@[simp] theorem setPending_ctxHl (e : Event) : (s.setPending e).ctxHl = s.ctxHl := rfl
@[simp] theorem setPending_ctxLl (e : Event) : (s.setPending e).ctxLl = s.ctxLl := rfl
@[simp] theorem setPending_cmdPart (e : Event) : (s.setPending e).cmdPart = s.cmdPart := rfl
@[simp] theorem setPending_cmdIn (e : Event) : (s.setPending e).cmdIn = s.cmdIn := rfl
@[simp] theorem setPending_rspOut (e : Event) : (s.setPending e).rspOut = s.rspOut := rfl

/-! ## countFrame -/

@[simp] theorem countFrame_cfg : (s.countFrame).cfg = s.cfg := rfl
@[simp] theorem countFrame_tables : (s.countFrame).tables = s.tables := rfl
@[simp] theorem countFrame_ctrl : (s.countFrame).ctrl = s.ctrl := rfl
@[simp] theorem countFrame_ptfrLen : (s.countFrame).ptfrLen = s.ptfrLen := rfl
@[simp] theorem countFrame_fillCode : (s.countFrame).fillCode = s.fillCode := rfl
@[simp] theorem countFrame_evtPending : (s.countFrame).evtPending = s.evtPending := rfl
@[simp] theorem countFrame_evtEnable : (s.countFrame).evtEnable = s.evtEnable := rfl
@[simp] theorem countFrame_counters : (s.countFrame).counters = { s.counters with frames := s.counters.frames + 1 } := rfl
@[simp] theorem countFrame_remKind : (s.countFrame).remKind = s.remKind := rfl
@[simp] theorem countFrame_rem : (s.countFrame).rem = s.rem := rfl
@[simp] theorem countFrame_parseState : (s.countFrame).parseState = s.parseState := rfl
@[simp] theorem countFrame_llpPending : (s.countFrame).llpPending = s.llpPending := rfl
@[simp] theorem countFrame_ctxHl : (s.countFrame).ctxHl = s.ctxHl := rfl
@[simp] theorem countFrame_ctxLl : (s.countFrame).ctxLl = s.ctxLl := rfl
@[simp] theorem countFrame_cmdPart : (s.countFrame).cmdPart = s.cmdPart := rfl
@[simp] theorem countFrame_cmdIn : (s.countFrame).cmdIn = s.cmdIn := rfl
@[simp] theorem countFrame_rspOut : (s.countFrame).rspOut = s.rspOut := rfl

/-! ## countPtdp -/

@[simp] theorem countPtdp_cfg : (s.countPtdp).cfg = s.cfg := rfl
@[simp] theorem countPtdp_tables : (s.countPtdp).tables = s.tables := rfl
@[simp] theorem countPtdp_ctrl : (s.countPtdp).ctrl = s.ctrl := rfl
@[simp] theorem countPtdp_ptfrLen : (s.countPtdp).ptfrLen = s.ptfrLen := rfl
@[simp] theorem countPtdp_fillCode : (s.countPtdp).fillCode = s.fillCode := rfl
@[simp] theorem countPtdp_evtPending : (s.countPtdp).evtPending = s.evtPending := rfl
@[simp] theorem countPtdp_evtEnable : (s.countPtdp).evtEnable = s.evtEnable := rfl
@[simp] theorem countPtdp_counters : (s.countPtdp).counters = { s.counters with ptdps := s.counters.ptdps + 1 } := rfl
@[simp] theorem countPtdp_remKind : (s.countPtdp).remKind = s.remKind := rfl
@[simp] theorem countPtdp_rem : (s.countPtdp).rem = s.rem := rfl
@[simp] theorem countPtdp_parseState : (s.countPtdp).parseState = s.parseState := rfl
@[simp] theorem countPtdp_llpPending : (s.countPtdp).llpPending = s.llpPending := rfl
@[simp] theorem countPtdp_ctxHl : (s.countPtdp).ctxHl = s.ctxHl := rfl
@[simp] theorem countPtdp_ctxLl : (s.countPtdp).ctxLl = s.ctxLl := rfl
@[simp] theorem countPtdp_cmdPart : (s.countPtdp).cmdPart = s.cmdPart := rfl
@[simp] theorem countPtdp_cmdIn : (s.countPtdp).cmdIn = s.cmdIn := rfl
@[simp] theorem countPtdp_rspOut : (s.countPtdp).rspOut = s.rspOut := rfl

/-! ## countRecord -/

@[simp] theorem countRecord_cfg : (s.countRecord).cfg = s.cfg := rfl
@[simp] theorem countRecord_tables : (s.countRecord).tables = s.tables := rfl
@[simp] theorem countRecord_ctrl : (s.countRecord).ctrl = s.ctrl := rfl
@[simp] theorem countRecord_ptfrLen : (s.countRecord).ptfrLen = s.ptfrLen := rfl
@[simp] theorem countRecord_fillCode : (s.countRecord).fillCode = s.fillCode := rfl
@[simp] theorem countRecord_evtPending : (s.countRecord).evtPending = s.evtPending := rfl
@[simp] theorem countRecord_evtEnable : (s.countRecord).evtEnable = s.evtEnable := rfl
@[simp] theorem countRecord_counters : (s.countRecord).counters = { s.counters with records := s.counters.records + 1 } := rfl
@[simp] theorem countRecord_remKind : (s.countRecord).remKind = s.remKind := rfl
@[simp] theorem countRecord_rem : (s.countRecord).rem = s.rem := rfl
@[simp] theorem countRecord_parseState : (s.countRecord).parseState = s.parseState := rfl
@[simp] theorem countRecord_llpPending : (s.countRecord).llpPending = s.llpPending := rfl
@[simp] theorem countRecord_ctxHl : (s.countRecord).ctxHl = s.ctxHl := rfl
@[simp] theorem countRecord_ctxLl : (s.countRecord).ctxLl = s.ctxLl := rfl
@[simp] theorem countRecord_cmdPart : (s.countRecord).cmdPart = s.cmdPart := rfl
@[simp] theorem countRecord_cmdIn : (s.countRecord).cmdIn = s.cmdIn := rfl
@[simp] theorem countRecord_rspOut : (s.countRecord).rspOut = s.rspOut := rfl

/-! ## countCorrBits -/

@[simp] theorem countCorrBits_cfg (n : Word) : (s.countCorrBits n).cfg = s.cfg := rfl
@[simp] theorem countCorrBits_tables (n : Word) : (s.countCorrBits n).tables = s.tables := rfl
@[simp] theorem countCorrBits_ctrl (n : Word) : (s.countCorrBits n).ctrl = s.ctrl := rfl
@[simp] theorem countCorrBits_ptfrLen (n : Word) : (s.countCorrBits n).ptfrLen = s.ptfrLen := rfl
@[simp] theorem countCorrBits_fillCode (n : Word) : (s.countCorrBits n).fillCode = s.fillCode := rfl
@[simp] theorem countCorrBits_evtPending (n : Word) : (s.countCorrBits n).evtPending = s.evtPending := rfl
@[simp] theorem countCorrBits_evtEnable (n : Word) : (s.countCorrBits n).evtEnable = s.evtEnable := rfl
@[simp] theorem countCorrBits_counters (n : Word) : (s.countCorrBits n).counters = { s.counters with corrBits := s.counters.corrBits + n } := rfl
@[simp] theorem countCorrBits_remKind (n : Word) : (s.countCorrBits n).remKind = s.remKind := rfl
@[simp] theorem countCorrBits_rem (n : Word) : (s.countCorrBits n).rem = s.rem := rfl
@[simp] theorem countCorrBits_parseState (n : Word) : (s.countCorrBits n).parseState = s.parseState := rfl
@[simp] theorem countCorrBits_llpPending (n : Word) : (s.countCorrBits n).llpPending = s.llpPending := rfl
@[simp] theorem countCorrBits_ctxHl (n : Word) : (s.countCorrBits n).ctxHl = s.ctxHl := rfl
@[simp] theorem countCorrBits_ctxLl (n : Word) : (s.countCorrBits n).ctxLl = s.ctxLl := rfl
@[simp] theorem countCorrBits_cmdPart (n : Word) : (s.countCorrBits n).cmdPart = s.cmdPart := rfl
@[simp] theorem countCorrBits_cmdIn (n : Word) : (s.countCorrBits n).cmdIn = s.cmdIn := rfl
@[simp] theorem countCorrBits_rspOut (n : Word) : (s.countCorrBits n).rspOut = s.rspOut := rfl

/-! ## countUncorr -/

@[simp] theorem countUncorr_cfg : (s.countUncorr).cfg = s.cfg := rfl
@[simp] theorem countUncorr_tables : (s.countUncorr).tables = s.tables := rfl
@[simp] theorem countUncorr_ctrl : (s.countUncorr).ctrl = s.ctrl := rfl
@[simp] theorem countUncorr_ptfrLen : (s.countUncorr).ptfrLen = s.ptfrLen := rfl
@[simp] theorem countUncorr_fillCode : (s.countUncorr).fillCode = s.fillCode := rfl
@[simp] theorem countUncorr_evtPending : (s.countUncorr).evtPending = s.evtPending := rfl
@[simp] theorem countUncorr_evtEnable : (s.countUncorr).evtEnable = s.evtEnable := rfl
@[simp] theorem countUncorr_counters : (s.countUncorr).counters = { s.counters with uncorr := s.counters.uncorr + 1 } := rfl
@[simp] theorem countUncorr_remKind : (s.countUncorr).remKind = s.remKind := rfl
@[simp] theorem countUncorr_rem : (s.countUncorr).rem = s.rem := rfl
@[simp] theorem countUncorr_parseState : (s.countUncorr).parseState = s.parseState := rfl
@[simp] theorem countUncorr_llpPending : (s.countUncorr).llpPending = s.llpPending := rfl
@[simp] theorem countUncorr_ctxHl : (s.countUncorr).ctxHl = s.ctxHl := rfl
@[simp] theorem countUncorr_ctxLl : (s.countUncorr).ctxLl = s.ctxLl := rfl
@[simp] theorem countUncorr_cmdPart : (s.countUncorr).cmdPart = s.cmdPart := rfl
@[simp] theorem countUncorr_cmdIn : (s.countUncorr).cmdIn = s.cmdIn := rfl
@[simp] theorem countUncorr_rspOut : (s.countUncorr).rspOut = s.rspOut := rfl

/-! ## countLenErr -/

@[simp] theorem countLenErr_cfg : (s.countLenErr).cfg = s.cfg := rfl
@[simp] theorem countLenErr_tables : (s.countLenErr).tables = s.tables := rfl
@[simp] theorem countLenErr_ctrl : (s.countLenErr).ctrl = s.ctrl := rfl
@[simp] theorem countLenErr_ptfrLen : (s.countLenErr).ptfrLen = s.ptfrLen := rfl
@[simp] theorem countLenErr_fillCode : (s.countLenErr).fillCode = s.fillCode := rfl
@[simp] theorem countLenErr_evtPending : (s.countLenErr).evtPending = s.evtPending := rfl
@[simp] theorem countLenErr_evtEnable : (s.countLenErr).evtEnable = s.evtEnable := rfl
@[simp] theorem countLenErr_counters : (s.countLenErr).counters = { s.counters with lenErr := s.counters.lenErr + 1 } := rfl
@[simp] theorem countLenErr_remKind : (s.countLenErr).remKind = s.remKind := rfl
@[simp] theorem countLenErr_rem : (s.countLenErr).rem = s.rem := rfl
@[simp] theorem countLenErr_parseState : (s.countLenErr).parseState = s.parseState := rfl
@[simp] theorem countLenErr_llpPending : (s.countLenErr).llpPending = s.llpPending := rfl
@[simp] theorem countLenErr_ctxHl : (s.countLenErr).ctxHl = s.ctxHl := rfl
@[simp] theorem countLenErr_ctxLl : (s.countLenErr).ctxLl = s.ctxLl := rfl
@[simp] theorem countLenErr_cmdPart : (s.countLenErr).cmdPart = s.cmdPart := rfl
@[simp] theorem countLenErr_cmdIn : (s.countLenErr).cmdIn = s.cmdIn := rfl
@[simp] theorem countLenErr_rspOut : (s.countLenErr).rspOut = s.rspOut := rfl

/-! ## retire -/

@[simp] theorem retire_cfg : (s.retire).cfg = s.cfg := rfl
@[simp] theorem retire_tables : (s.retire).tables = s.tables := rfl
@[simp] theorem retire_ctrl : (s.retire).ctrl = s.ctrl := rfl
@[simp] theorem retire_ptfrLen : (s.retire).ptfrLen = s.ptfrLen := rfl
@[simp] theorem retire_fillCode : (s.retire).fillCode = s.fillCode := rfl
@[simp] theorem retire_evtPending : (s.retire).evtPending = s.evtPending := rfl
@[simp] theorem retire_evtEnable : (s.retire).evtEnable = s.evtEnable := rfl
@[simp] theorem retire_counters : (s.retire).counters = s.counters := rfl
@[simp] theorem retire_remKind : (s.retire).remKind = s.remKind := rfl
@[simp] theorem retire_rem : (s.retire).rem = s.rem := rfl
@[simp] theorem retire_parseState : (s.retire).parseState = s.parseState := rfl
@[simp] theorem retire_llpPending : (s.retire).llpPending = s.llpPending := rfl
@[simp] theorem retire_ctxHl : (s.retire).ctxHl = s.ctxHl := rfl
@[simp] theorem retire_ctxLl : (s.retire).ctxLl = s.ctxLl := rfl
@[simp] theorem retire_cmdPart : (s.retire).cmdPart = [] := rfl
@[simp] theorem retire_cmdIn : (s.retire).cmdIn = s.cmdIn := rfl
@[simp] theorem retire_rspOut : (s.retire).rspOut = s.rspOut := rfl

/-! ## softReset -/

@[simp] theorem softReset_cfg : (s.softReset).cfg = s.cfg := rfl
@[simp] theorem softReset_tables : (s.softReset).tables = s.tables := rfl
@[simp] theorem softReset_ctrl : (s.softReset).ctrl = s.ctrl := rfl
@[simp] theorem softReset_ptfrLen : (s.softReset).ptfrLen = s.ptfrLen := rfl
@[simp] theorem softReset_fillCode : (s.softReset).fillCode = s.fillCode := rfl
@[simp] theorem softReset_evtPending : (s.softReset).evtPending = s.evtPending := rfl
@[simp] theorem softReset_evtEnable : (s.softReset).evtEnable = s.evtEnable := rfl
@[simp] theorem softReset_counters : (s.softReset).counters = s.counters := rfl
@[simp] theorem softReset_remKind : (s.softReset).remKind = .none := rfl
@[simp] theorem softReset_rem : (s.softReset).rem = [] := rfl
@[simp] theorem softReset_parseState : (s.softReset).parseState = .aligned := rfl
@[simp] theorem softReset_llpPending : (s.softReset).llpPending = false := rfl
@[simp] theorem softReset_ctxHl : (s.softReset).ctxHl = Context.idle := rfl
@[simp] theorem softReset_ctxLl : (s.softReset).ctxLl = Context.idle := rfl
@[simp] theorem softReset_cmdPart : (s.softReset).cmdPart = s.cmdPart := rfl
@[simp] theorem softReset_cmdIn : (s.softReset).cmdIn = s.cmdIn := rfl
@[simp] theorem softReset_rspOut : (s.softReset).rspOut = s.rspOut := rfl

/-! ## awaitLlp -/

@[simp] theorem awaitLlp_cfg : (s.awaitLlp).cfg = s.cfg := rfl
@[simp] theorem awaitLlp_tables : (s.awaitLlp).tables = s.tables := rfl
@[simp] theorem awaitLlp_ctrl : (s.awaitLlp).ctrl = s.ctrl := rfl
@[simp] theorem awaitLlp_ptfrLen : (s.awaitLlp).ptfrLen = s.ptfrLen := rfl
@[simp] theorem awaitLlp_fillCode : (s.awaitLlp).fillCode = s.fillCode := rfl
@[simp] theorem awaitLlp_evtPending : (s.awaitLlp).evtPending = s.evtPending := rfl
@[simp] theorem awaitLlp_evtEnable : (s.awaitLlp).evtEnable = s.evtEnable := rfl
@[simp] theorem awaitLlp_counters : (s.awaitLlp).counters = s.counters := rfl
@[simp] theorem awaitLlp_remKind : (s.awaitLlp).remKind = s.remKind := rfl
@[simp] theorem awaitLlp_rem : (s.awaitLlp).rem = s.rem := rfl
@[simp] theorem awaitLlp_parseState : (s.awaitLlp).parseState = s.parseState := rfl
@[simp] theorem awaitLlp_llpPending : (s.awaitLlp).llpPending = true := rfl
@[simp] theorem awaitLlp_ctxHl : (s.awaitLlp).ctxHl = s.ctxHl := rfl
@[simp] theorem awaitLlp_ctxLl : (s.awaitLlp).ctxLl = s.ctxLl := rfl
@[simp] theorem awaitLlp_cmdPart : (s.awaitLlp).cmdPart = s.cmdPart := rfl
@[simp] theorem awaitLlp_cmdIn : (s.awaitLlp).cmdIn = s.cmdIn := rfl
@[simp] theorem awaitLlp_rspOut : (s.awaitLlp).rspOut = s.rspOut := rfl

/-! ## consumed -/

@[simp] theorem consumed_cfg : (s.consumed).cfg = s.cfg := rfl
@[simp] theorem consumed_tables : (s.consumed).tables = s.tables := rfl
@[simp] theorem consumed_ctrl : (s.consumed).ctrl = s.ctrl := rfl
@[simp] theorem consumed_ptfrLen : (s.consumed).ptfrLen = s.ptfrLen := rfl
@[simp] theorem consumed_fillCode : (s.consumed).fillCode = s.fillCode := rfl
@[simp] theorem consumed_evtPending : (s.consumed).evtPending = s.evtPending := rfl
@[simp] theorem consumed_evtEnable : (s.consumed).evtEnable = s.evtEnable := rfl
@[simp] theorem consumed_counters : (s.consumed).counters = s.counters := rfl
@[simp] theorem consumed_remKind : (s.consumed).remKind = .empty := rfl
@[simp] theorem consumed_rem : (s.consumed).rem = [] := rfl
@[simp] theorem consumed_parseState : (s.consumed).parseState = .aligned := rfl
@[simp] theorem consumed_llpPending : (s.consumed).llpPending = s.llpPending := rfl
@[simp] theorem consumed_ctxHl : (s.consumed).ctxHl = s.ctxHl := rfl
@[simp] theorem consumed_ctxLl : (s.consumed).ctxLl = s.ctxLl := rfl
@[simp] theorem consumed_cmdPart : (s.consumed).cmdPart = s.cmdPart := rfl
@[simp] theorem consumed_cmdIn : (s.consumed).cmdIn = s.cmdIn := rfl
@[simp] theorem consumed_rspOut : (s.consumed).rspOut = s.rspOut := rfl

/-! ## keepRemainder -/

@[simp] theorem keepRemainder_cfg (b : List Byte) : (s.keepRemainder b).cfg = s.cfg := rfl
@[simp] theorem keepRemainder_tables (b : List Byte) : (s.keepRemainder b).tables = s.tables := rfl
@[simp] theorem keepRemainder_ctrl (b : List Byte) : (s.keepRemainder b).ctrl = s.ctrl := rfl
@[simp] theorem keepRemainder_ptfrLen (b : List Byte) : (s.keepRemainder b).ptfrLen = s.ptfrLen := rfl
@[simp] theorem keepRemainder_fillCode (b : List Byte) : (s.keepRemainder b).fillCode = s.fillCode := rfl
@[simp] theorem keepRemainder_evtPending (b : List Byte) : (s.keepRemainder b).evtPending = s.evtPending := rfl
@[simp] theorem keepRemainder_evtEnable (b : List Byte) : (s.keepRemainder b).evtEnable = s.evtEnable := rfl
@[simp] theorem keepRemainder_counters (b : List Byte) : (s.keepRemainder b).counters = s.counters := rfl
@[simp] theorem keepRemainder_remKind (b : List Byte) : (s.keepRemainder b).remKind = .bytes := rfl
@[simp] theorem keepRemainder_rem (b : List Byte) : (s.keepRemainder b).rem = b := rfl
@[simp] theorem keepRemainder_parseState (b : List Byte) : (s.keepRemainder b).parseState = .waitMore := rfl
@[simp] theorem keepRemainder_llpPending (b : List Byte) : (s.keepRemainder b).llpPending = s.llpPending := rfl
@[simp] theorem keepRemainder_ctxHl (b : List Byte) : (s.keepRemainder b).ctxHl = s.ctxHl := rfl
@[simp] theorem keepRemainder_ctxLl (b : List Byte) : (s.keepRemainder b).ctxLl = s.ctxLl := rfl
@[simp] theorem keepRemainder_cmdPart (b : List Byte) : (s.keepRemainder b).cmdPart = s.cmdPart := rfl
@[simp] theorem keepRemainder_cmdIn (b : List Byte) : (s.keepRemainder b).cmdIn = s.cmdIn := rfl
@[simp] theorem keepRemainder_rspOut (b : List Byte) : (s.keepRemainder b).rspOut = s.rspOut := rfl

/-! ## hostSend -/

@[simp] theorem hostSend_cfg (ws : List Word) : (s.hostSend ws).cfg = s.cfg := rfl
@[simp] theorem hostSend_tables (ws : List Word) : (s.hostSend ws).tables = s.tables := rfl
@[simp] theorem hostSend_ctrl (ws : List Word) : (s.hostSend ws).ctrl = s.ctrl := rfl
@[simp] theorem hostSend_ptfrLen (ws : List Word) : (s.hostSend ws).ptfrLen = s.ptfrLen := rfl
@[simp] theorem hostSend_fillCode (ws : List Word) : (s.hostSend ws).fillCode = s.fillCode := rfl
@[simp] theorem hostSend_evtPending (ws : List Word) : (s.hostSend ws).evtPending = s.evtPending := rfl
@[simp] theorem hostSend_evtEnable (ws : List Word) : (s.hostSend ws).evtEnable = s.evtEnable := rfl
@[simp] theorem hostSend_counters (ws : List Word) : (s.hostSend ws).counters = s.counters := rfl
@[simp] theorem hostSend_remKind (ws : List Word) : (s.hostSend ws).remKind = s.remKind := rfl
@[simp] theorem hostSend_rem (ws : List Word) : (s.hostSend ws).rem = s.rem := rfl
@[simp] theorem hostSend_parseState (ws : List Word) : (s.hostSend ws).parseState = s.parseState := rfl
@[simp] theorem hostSend_llpPending (ws : List Word) : (s.hostSend ws).llpPending = s.llpPending := rfl
@[simp] theorem hostSend_ctxHl (ws : List Word) : (s.hostSend ws).ctxHl = s.ctxHl := rfl
@[simp] theorem hostSend_ctxLl (ws : List Word) : (s.hostSend ws).ctxLl = s.ctxLl := rfl
@[simp] theorem hostSend_cmdPart (ws : List Word) : (s.hostSend ws).cmdPart = s.cmdPart := rfl
@[simp] theorem hostSend_cmdIn (ws : List Word) : (s.hostSend ws).cmdIn = s.cmdIn ++ ws := rfl
@[simp] theorem hostSend_rspOut (ws : List Word) : (s.hostSend ws).rspOut = s.rspOut := rfl

/-! ## hostTake -/

@[simp] theorem hostTake_cfg (n : Nat) : (s.hostTake n).cfg = s.cfg := rfl
@[simp] theorem hostTake_tables (n : Nat) : (s.hostTake n).tables = s.tables := rfl
@[simp] theorem hostTake_ctrl (n : Nat) : (s.hostTake n).ctrl = s.ctrl := rfl
@[simp] theorem hostTake_ptfrLen (n : Nat) : (s.hostTake n).ptfrLen = s.ptfrLen := rfl
@[simp] theorem hostTake_fillCode (n : Nat) : (s.hostTake n).fillCode = s.fillCode := rfl
@[simp] theorem hostTake_evtPending (n : Nat) : (s.hostTake n).evtPending = s.evtPending := rfl
@[simp] theorem hostTake_evtEnable (n : Nat) : (s.hostTake n).evtEnable = s.evtEnable := rfl
@[simp] theorem hostTake_counters (n : Nat) : (s.hostTake n).counters = s.counters := rfl
@[simp] theorem hostTake_remKind (n : Nat) : (s.hostTake n).remKind = s.remKind := rfl
@[simp] theorem hostTake_rem (n : Nat) : (s.hostTake n).rem = s.rem := rfl
@[simp] theorem hostTake_parseState (n : Nat) : (s.hostTake n).parseState = s.parseState := rfl
@[simp] theorem hostTake_llpPending (n : Nat) : (s.hostTake n).llpPending = s.llpPending := rfl
@[simp] theorem hostTake_ctxHl (n : Nat) : (s.hostTake n).ctxHl = s.ctxHl := rfl
@[simp] theorem hostTake_ctxLl (n : Nat) : (s.hostTake n).ctxLl = s.ctxLl := rfl
@[simp] theorem hostTake_cmdPart (n : Nat) : (s.hostTake n).cmdPart = s.cmdPart := rfl
@[simp] theorem hostTake_cmdIn (n : Nat) : (s.hostTake n).cmdIn = s.cmdIn := rfl
@[simp] theorem hostTake_rspOut (n : Nat) : (s.hostTake n).rspOut = s.rspOut.drop n := rfl

/-! ## withFetchWord -/

@[simp] theorem withFetchWord_cfg (nbits w : Nat) : (s.withFetchWord nbits w).cfg = s.cfg := rfl
@[simp] theorem withFetchWord_tables (nbits w : Nat) : (s.withFetchWord nbits w).tables = s.tables := rfl
@[simp] theorem withFetchWord_ctrl (nbits w : Nat) : (s.withFetchWord nbits w).ctrl = s.ctrl := rfl
@[simp] theorem withFetchWord_ptfrLen (nbits w : Nat) : (s.withFetchWord nbits w).ptfrLen = s.ptfrLen := rfl
@[simp] theorem withFetchWord_fillCode (nbits w : Nat) : (s.withFetchWord nbits w).fillCode = s.fillCode := rfl
@[simp] theorem withFetchWord_evtPending (nbits w : Nat) : (s.withFetchWord nbits w).evtPending = s.evtPending := rfl
@[simp] theorem withFetchWord_evtEnable (nbits w : Nat) : (s.withFetchWord nbits w).evtEnable = s.evtEnable := rfl
@[simp] theorem withFetchWord_counters (nbits w : Nat) : (s.withFetchWord nbits w).counters = s.counters := rfl
@[simp] theorem withFetchWord_remKind (nbits w : Nat) : (s.withFetchWord nbits w).remKind = s.remKind := rfl
@[simp] theorem withFetchWord_rem (nbits w : Nat) : (s.withFetchWord nbits w).rem = s.rem := rfl
@[simp] theorem withFetchWord_parseState (nbits w : Nat) : (s.withFetchWord nbits w).parseState = s.parseState := rfl
@[simp] theorem withFetchWord_llpPending (nbits w : Nat) : (s.withFetchWord nbits w).llpPending = s.llpPending := rfl
@[simp] theorem withFetchWord_ctxHl (nbits w : Nat) : (s.withFetchWord nbits w).ctxHl = s.ctxHl := rfl
@[simp] theorem withFetchWord_ctxLl (nbits w : Nat) : (s.withFetchWord nbits w).ctxLl = s.ctxLl := rfl
@[simp] theorem withFetchWord_cmdPart (nbits w : Nat) : (s.withFetchWord nbits w).cmdPart = [] := rfl
@[simp] theorem withFetchWord_cmdIn (nbits w : Nat) : (s.withFetchWord nbits w).cmdIn = tableWords s.ptfrLen.toNat nbits w := rfl
@[simp] theorem withFetchWord_rspOut (nbits w : Nat) : (s.withFetchWord nbits w).rspOut = s.rspOut := rfl

/-! ## setCtx -/

@[simp] theorem setCtx_cfg (t : Latency) (c : Context) : (s.setCtx t c).cfg = s.cfg := by cases t <;> rfl
@[simp] theorem setCtx_tables (t : Latency) (c : Context) : (s.setCtx t c).tables = s.tables := by cases t <;> rfl
@[simp] theorem setCtx_ctrl (t : Latency) (c : Context) : (s.setCtx t c).ctrl = s.ctrl := by cases t <;> rfl
@[simp] theorem setCtx_ptfrLen (t : Latency) (c : Context) : (s.setCtx t c).ptfrLen = s.ptfrLen := by cases t <;> rfl
@[simp] theorem setCtx_fillCode (t : Latency) (c : Context) : (s.setCtx t c).fillCode = s.fillCode := by cases t <;> rfl
@[simp] theorem setCtx_evtPending (t : Latency) (c : Context) : (s.setCtx t c).evtPending = s.evtPending := by cases t <;> rfl
@[simp] theorem setCtx_evtEnable (t : Latency) (c : Context) : (s.setCtx t c).evtEnable = s.evtEnable := by cases t <;> rfl
@[simp] theorem setCtx_counters (t : Latency) (c : Context) : (s.setCtx t c).counters = s.counters := by cases t <;> rfl
@[simp] theorem setCtx_remKind (t : Latency) (c : Context) : (s.setCtx t c).remKind = s.remKind := by cases t <;> rfl
@[simp] theorem setCtx_rem (t : Latency) (c : Context) : (s.setCtx t c).rem = s.rem := by cases t <;> rfl
@[simp] theorem setCtx_parseState (t : Latency) (c : Context) : (s.setCtx t c).parseState = s.parseState := by cases t <;> rfl
@[simp] theorem setCtx_llpPending (t : Latency) (c : Context) : (s.setCtx t c).llpPending = s.llpPending := by cases t <;> rfl
@[simp] theorem setCtx_cmdPart (t : Latency) (c : Context) : (s.setCtx t c).cmdPart = s.cmdPart := by cases t <;> rfl
@[simp] theorem setCtx_cmdIn (t : Latency) (c : Context) : (s.setCtx t c).cmdIn = s.cmdIn := by cases t <;> rfl
@[simp] theorem setCtx_rspOut (t : Latency) (c : Context) : (s.setCtx t c).rspOut = s.rspOut := by cases t <;> rfl
@[simp] theorem setCtx_hl_ctxHl (c : Context) : (s.setCtx .hl c).ctxHl = c := rfl
@[simp] theorem setCtx_hl_ctxLl (c : Context) : (s.setCtx .hl c).ctxLl = s.ctxLl := rfl
@[simp] theorem setCtx_ll_ctxHl (c : Context) : (s.setCtx .ll c).ctxHl = s.ctxHl := rfl
@[simp] theorem setCtx_ll_ctxLl (c : Context) : (s.setCtx .ll c).ctxLl = c := rfl
@[simp] theorem ctx_setCtx_self (t : Latency) (c : Context) : (s.setCtx t c).ctx t = c := by cases t <;> rfl

/-! ## raise -/

@[simp] theorem raise_cfg (e : Event) (i : BitVec 16) : (s.raise e i).cfg = s.cfg := by unfold State.raise; split <;> rfl
@[simp] theorem raise_tables (e : Event) (i : BitVec 16) : (s.raise e i).tables = s.tables := by unfold State.raise; split <;> rfl
@[simp] theorem raise_ctrl (e : Event) (i : BitVec 16) : (s.raise e i).ctrl = s.ctrl := by unfold State.raise; split <;> rfl
@[simp] theorem raise_ptfrLen (e : Event) (i : BitVec 16) : (s.raise e i).ptfrLen = s.ptfrLen := by unfold State.raise; split <;> rfl
@[simp] theorem raise_fillCode (e : Event) (i : BitVec 16) : (s.raise e i).fillCode = s.fillCode := by unfold State.raise; split <;> rfl
@[simp] theorem raise_evtEnable (e : Event) (i : BitVec 16) : (s.raise e i).evtEnable = s.evtEnable := by unfold State.raise; split <;> rfl
@[simp] theorem raise_counters (e : Event) (i : BitVec 16) : (s.raise e i).counters = s.counters := by unfold State.raise; split <;> rfl
@[simp] theorem raise_remKind (e : Event) (i : BitVec 16) : (s.raise e i).remKind = s.remKind := by unfold State.raise; split <;> rfl
@[simp] theorem raise_rem (e : Event) (i : BitVec 16) : (s.raise e i).rem = s.rem := by unfold State.raise; split <;> rfl
@[simp] theorem raise_parseState (e : Event) (i : BitVec 16) : (s.raise e i).parseState = s.parseState := by unfold State.raise; split <;> rfl
@[simp] theorem raise_llpPending (e : Event) (i : BitVec 16) : (s.raise e i).llpPending = s.llpPending := by unfold State.raise; split <;> rfl
@[simp] theorem raise_ctxHl (e : Event) (i : BitVec 16) : (s.raise e i).ctxHl = s.ctxHl := by unfold State.raise; split <;> rfl
@[simp] theorem raise_ctxLl (e : Event) (i : BitVec 16) : (s.raise e i).ctxLl = s.ctxLl := by unfold State.raise; split <;> rfl
@[simp] theorem raise_cmdPart (e : Event) (i : BitVec 16) : (s.raise e i).cmdPart = s.cmdPart := by unfold State.raise; split <;> rfl
@[simp] theorem raise_cmdIn (e : Event) (i : BitVec 16) : (s.raise e i).cmdIn = s.cmdIn := by unfold State.raise; split <;> rfl
@[simp] theorem raise_evtPending (e : Event) (i : BitVec 16) :
    (s.raise e i).evtPending = s.evtPending ||| BitVec.twoPow 32 e.bit := by unfold State.raise; split <;> rfl
@[simp] theorem raise_rspOut (e : Event) (i : BitVec 16) :
    (s.raise e i).rspOut = s.rspOut ++ (if s.evtOutEn then [evtRsp e.code i] else []) := by
  unfold State.raise; split <;> simp

/-! ## countGolay -/

@[simp] theorem countGolay_cfg (e : BitVec 3) (i : BitVec 16) : (s.countGolay e i).cfg = s.cfg := by
  unfold State.countGolay; split <;> simp
@[simp] theorem countGolay_tables (e : BitVec 3) (i : BitVec 16) : (s.countGolay e i).tables = s.tables := by
  unfold State.countGolay; split <;> simp
@[simp] theorem countGolay_ctrl (e : BitVec 3) (i : BitVec 16) : (s.countGolay e i).ctrl = s.ctrl := by
  unfold State.countGolay; split <;> simp
@[simp] theorem countGolay_ptfrLen (e : BitVec 3) (i : BitVec 16) : (s.countGolay e i).ptfrLen = s.ptfrLen := by
  unfold State.countGolay; split <;> simp
@[simp] theorem countGolay_fillCode (e : BitVec 3) (i : BitVec 16) : (s.countGolay e i).fillCode = s.fillCode := by
  unfold State.countGolay; split <;> simp
@[simp] theorem countGolay_evtEnable (e : BitVec 3) (i : BitVec 16) : (s.countGolay e i).evtEnable = s.evtEnable := by
  unfold State.countGolay; split <;> simp
@[simp] theorem countGolay_remKind (e : BitVec 3) (i : BitVec 16) : (s.countGolay e i).remKind = s.remKind := by
  unfold State.countGolay; split <;> simp
@[simp] theorem countGolay_rem (e : BitVec 3) (i : BitVec 16) : (s.countGolay e i).rem = s.rem := by
  unfold State.countGolay; split <;> simp
@[simp] theorem countGolay_parseState (e : BitVec 3) (i : BitVec 16) : (s.countGolay e i).parseState = s.parseState := by
  unfold State.countGolay; split <;> simp
@[simp] theorem countGolay_llpPending (e : BitVec 3) (i : BitVec 16) : (s.countGolay e i).llpPending = s.llpPending := by
  unfold State.countGolay; split <;> simp
@[simp] theorem countGolay_ctxHl (e : BitVec 3) (i : BitVec 16) : (s.countGolay e i).ctxHl = s.ctxHl := by
  unfold State.countGolay; split <;> simp
@[simp] theorem countGolay_ctxLl (e : BitVec 3) (i : BitVec 16) : (s.countGolay e i).ctxLl = s.ctxLl := by
  unfold State.countGolay; split <;> simp
@[simp] theorem countGolay_cmdPart (e : BitVec 3) (i : BitVec 16) : (s.countGolay e i).cmdPart = s.cmdPart := by
  unfold State.countGolay; split <;> simp
@[simp] theorem countGolay_cmdIn (e : BitVec 3) (i : BitVec 16) : (s.countGolay e i).cmdIn = s.cmdIn := by
  unfold State.countGolay; split <;> simp

/-! ## buildTick -/

@[simp] theorem buildTick_cfg : s.buildTick.cfg = s.cfg := by unfold State.buildTick; split <;> rfl
@[simp] theorem buildTick_ctrl : s.buildTick.ctrl = s.ctrl := by unfold State.buildTick; split <;> rfl
@[simp] theorem buildTick_ptfrLen : s.buildTick.ptfrLen = s.ptfrLen := by unfold State.buildTick; split <;> rfl
@[simp] theorem buildTick_fillCode : s.buildTick.fillCode = s.fillCode := by unfold State.buildTick; split <;> rfl
@[simp] theorem buildTick_evtPending : s.buildTick.evtPending = s.evtPending := by unfold State.buildTick; split <;> rfl
@[simp] theorem buildTick_evtEnable : s.buildTick.evtEnable = s.evtEnable := by unfold State.buildTick; split <;> rfl
@[simp] theorem buildTick_counters : s.buildTick.counters = s.counters := by unfold State.buildTick; split <;> rfl
@[simp] theorem buildTick_remKind : s.buildTick.remKind = s.remKind := by unfold State.buildTick; split <;> rfl
@[simp] theorem buildTick_rem : s.buildTick.rem = s.rem := by unfold State.buildTick; split <;> rfl
@[simp] theorem buildTick_parseState : s.buildTick.parseState = s.parseState := by unfold State.buildTick; split <;> rfl
@[simp] theorem buildTick_llpPending : s.buildTick.llpPending = s.llpPending := by unfold State.buildTick; split <;> rfl
@[simp] theorem buildTick_ctxHl : s.buildTick.ctxHl = s.ctxHl := by unfold State.buildTick; split <;> rfl
@[simp] theorem buildTick_ctxLl : s.buildTick.ctxLl = s.ctxLl := by unfold State.buildTick; split <;> rfl
@[simp] theorem buildTick_cmdPart : s.buildTick.cmdPart = s.cmdPart := by unfold State.buildTick; split <;> rfl
@[simp] theorem buildTick_cmdIn : s.buildTick.cmdIn = s.cmdIn := by unfold State.buildTick; split <;> rfl
@[simp] theorem buildTick_rspOut : s.buildTick.rspOut = s.rspOut := by unfold State.buildTick; split <;> rfl

/-! ## receive -/

@[simp] theorem receive_cfg : s.receive.cfg = s.cfg := by unfold State.receive; split <;> rfl
@[simp] theorem receive_tables : s.receive.tables = s.tables := by unfold State.receive; split <;> rfl
@[simp] theorem receive_ctrl : s.receive.ctrl = s.ctrl := by unfold State.receive; split <;> rfl
@[simp] theorem receive_ptfrLen : s.receive.ptfrLen = s.ptfrLen := by unfold State.receive; split <;> rfl
@[simp] theorem receive_fillCode : s.receive.fillCode = s.fillCode := by unfold State.receive; split <;> rfl
@[simp] theorem receive_evtPending : s.receive.evtPending = s.evtPending := by unfold State.receive; split <;> rfl
@[simp] theorem receive_evtEnable : s.receive.evtEnable = s.evtEnable := by unfold State.receive; split <;> rfl
@[simp] theorem receive_counters : s.receive.counters = s.counters := by unfold State.receive; split <;> rfl
@[simp] theorem receive_remKind : s.receive.remKind = s.remKind := by unfold State.receive; split <;> rfl
@[simp] theorem receive_rem : s.receive.rem = s.rem := by unfold State.receive; split <;> rfl
@[simp] theorem receive_parseState : s.receive.parseState = s.parseState := by unfold State.receive; split <;> rfl
@[simp] theorem receive_llpPending : s.receive.llpPending = s.llpPending := by unfold State.receive; split <;> rfl
@[simp] theorem receive_ctxHl : s.receive.ctxHl = s.ctxHl := by unfold State.receive; split <;> rfl
@[simp] theorem receive_ctxLl : s.receive.ctxLl = s.ctxLl := by unfold State.receive; split <;> rfl
@[simp] theorem receive_rspOut : s.receive.rspOut = s.rspOut := by unfold State.receive; split <;> rfl

end Sys2Proof.Machine
end

