-- ==== Sys2Proof/Laws/Decode.lean ====
section
/-! SUPPORT. The fields of a head word and the lengths of packed bytes (30_encoding R111, R114, R115). -/

namespace Sys2Proof

@[simp] theorem headOp_headWord (o : Opcode) (a : BitVec 24) : headOp (headWord o a) = o.code := by
  refine BitVec.eq_of_getLsbD_eq fun i hi => ?_
  simp only [headOp, headWord, BitVec.getLsbD_extractLsb', BitVec.getLsbD_append]
  simp [hi]

@[simp] theorem headArg_headWord (o : Opcode) (a : BitVec 24) : headArg (headWord o a) = a := by
  refine BitVec.eq_of_getLsbD_eq fun i hi => ?_
  simp only [headArg, headWord, BitVec.getLsbD_extractLsb', BitVec.getLsbD_append]
  simp [hi]

@[simp] theorem opcodeOf_code (o : Opcode) : opcodeOf o.code = some o := by
  cases o <;> rfl

@[simp] theorem length_bytesOfWord (w : Word) : (bytesOfWord w).length = 4 := rfl

@[simp] theorem length_unpackBytes (ws : List Word) : (unpackBytes ws).length = 4 * ws.length := by
  induction ws with
  | nil => rfl
  | cons w ws ih => simp [unpackBytes, ih]; omega

/-- `ceil(n/4)` words hold `n` bytes (R82). -/
@[simp] theorem length_packBytes (bs : List Byte) : (packBytes bs).length = wordsFor bs.length := by
  induction bs using packBytes.induct with
  | case1 => rfl
  | case2 => simp [packBytes, wordsFor]
  | case3 => simp [packBytes, wordsFor]
  | case4 => simp [packBytes, wordsFor]
  | case5 a b c d rest ih => simp only [packBytes, List.length_cons, ih, wordsFor]; omega

/-- The bytes of a word are those it was made of. -/
@[simp] theorem bytesOfWord_wordOfBytes (a b c d : Byte) : bytesOfWord (wordOfBytes a b c d) = [a, b, c, d] := by
  simp only [bytesOfWord, wordOfBytes, List.cons.injEq, and_true]
  refine ⟨?_, ?_, ?_, ?_⟩ <;> refine BitVec.eq_of_getLsbD_eq fun i hi => ?_ <;>
    simp only [BitVec.getLsbD_extractLsb', BitVec.getLsbD_append] <;> simp [hi]
  · rw [if_neg (by omega), if_neg (by omega), if_neg (by omega), ← BitVec.getLsbD_eq_getElem]; congr 1; omega
  · rw [if_neg (by omega), if_neg (by omega), if_pos (by omega), ← BitVec.getLsbD_eq_getElem]; congr 1; omega

/-- Packing and unpacking bytes gives them back, padded with zero bytes. -/
theorem unpackBytes_packBytes (bs : List Byte) : ∃ pad, unpackBytes (packBytes bs) = bs ++ pad := by
  induction bs using packBytes.induct with
  | case1 => exact ⟨[], rfl⟩
  | case2 a => exact ⟨[0, 0, 0], by simp [packBytes, unpackBytes]⟩
  | case3 a b => exact ⟨[0, 0], by simp [packBytes, unpackBytes]⟩
  | case4 a b c => exact ⟨[0], by simp [packBytes, unpackBytes]⟩
  | case5 a b c d rest ih =>
    obtain ⟨pad, h⟩ := ih
    exact ⟨pad, by simp [packBytes, unpackBytes, h]⟩

/-- A FRAME's packed bytes unpack to themselves. -/
theorem take_unpackBytes_packBytes (bs : List Byte) : (unpackBytes (packBytes bs)).take bs.length = bs := by
  obtain ⟨pad, h⟩ := unpackBytes_packBytes bs
  rw [h, List.take_left']
  rfl

/-- The trailing words of a command that fits are as many as its opcode takes (R114). -/
theorem length_trail {len : Nat} {i : Instr} (h : i.fits len) : i.trail.length = trailingWords len i.opcode := by
  cases i <;> simp_all [Instr.trail, Instr.opcode, trailingWords, Instr.fits]

end Sys2Proof
end

