-- ==== Sys2Proof/Laws/Ops.lean ====
section
/-! SUPPORT. For each shared operation, one lemma that says everything it does. -/

namespace Sys2Proof.Machine

variable (s : State)

/-- The words that raising an event emits (60_exceptions R332). -/
def evtWords (e : Event) (i : BitVec 16) : List Word := if s.evtOutEn then [evtRsp e.code i] else []

/-- Raising an event sets its pending bit, emits its words, and changes nothing else (R332). -/
theorem raise_eq (e : Event) (i : BitVec 16) :
    s.raise e i = { s with
      evtPending := s.evtPending ||| BitVec.twoPow 32 e.bit
      rspOut := s.rspOut ++ evtWords s e i } := by
  unfold State.raise evtWords
  split
  · rfl
  · rw [List.append_nil]; rfl

theorem countGolay_uncorr (f : BitVec 16) : s.countGolay 4 f = s.countUncorr.raise .golayUncorrectable f := rfl

theorem countGolay_corr {e : BitVec 3} (h : e ≠ 4) (f : BitVec 16) : s.countGolay e f = s.countCorrBits (e.setWidth 32) := by
  unfold State.countGolay; rw [if_neg h]

theorem whenReady_built {r : Host.Outcome State Fault Refusal} (h : s.tables = .built) : s.whenReady r = r := by
  unfold State.whenReady; rw [h]

theorem whenReady_building {r : Host.Outcome State Fault Refusal} {n : Nat} (h : s.tables = .building n) :
    s.whenReady r = .next s := by
  unfold State.whenReady; rw [h]

theorem whenReservedZero_zero {o : Opcode} {r : Host.Outcome State Fault Refusal} :
    s.whenReservedZero o true r = r := rfl

theorem whenReservedZero_set {o : Opcode} {r : Host.Outcome State Fault Refusal} :
    s.whenReservedZero o false r = .next (s.rejectReserved o) := rfl

/-- The build goes on by one step (70_reset_and_hazards R371). -/
theorem buildTick_tables : s.buildTick.tables =
    match s.tables with
    | .building 0 => .built
    | .building (n + 1) => .building n
    | .built => .built := by
  unfold State.buildTick; split <;> simp_all

/-- Receiving moves words from `cmd_in` to the command being received and loses none (30_encoding R110). -/
theorem receive_words : s.receive.cmdPart ++ s.receive.cmdIn = s.cmdPart ++ s.cmdIn := by
  unfold State.receive
  split
  · rfl
  · next h ws hw => rw [hw]; exact List.take_append_drop _ _

/-- What receiving does where words have arrived. -/
theorem receive_cons {h : Word} {ws : List Word} (hw : s.cmdPart ++ s.cmdIn = h :: ws) :
    s.receive = { s with
      cmdPart := (h :: ws).take (commandLength s.ptfrLen.toNat h)
      cmdIn := (h :: ws).drop (commandLength s.ptfrLen.toNat h) } := by
  unfold State.receive; rw [hw]

/-- `abandon(t)` of an active chain (42_reassembly section 2). -/
theorem abandon_active {t : Latency} (h : (s.ctx t).active = true) :
    s.abandon t = (s.raise .fragAbandoned (abandonInfo t (s.ctx t).buf)).dropChain t := by
  unfold State.abandon; rw [if_pos h]

theorem abandon_idle {t : Latency} (h : (s.ctx t).active = false) : s.abandon t = s := by
  unfold State.abandon; rw [if_neg (by simp [h])]

/-- A step, once what the poll leaves has been decoded. -/
theorem step_eq : step s = runDecoded (decode s.poll.ptfrLen.toNat s.poll.cmdPart) s.poll := rfl

end Sys2Proof.Machine
end

