-- ==== Sys2Proof/Laws/Frame.lean ====
section
/-! SUPPORT. What `unpack` answers (41_ptfr_parser R209), and that the loops' fuel decides nothing. -/

namespace Sys2Proof.Machine

/-- The state after a header's two decodes have been counted (R210). -/
def countHeader (s : State) (b : List Byte) : State :=
  (s.countGolay (decodeHeader s.cfg.gP b).2.1 1).countGolay (decodeHeader s.cfg.gP b).2.2 2

/-- An unpacked PTDP lies inside the buffer, its payload is the `n` bytes after the header, and its header was counted (R209). -/
theorem unpack_ok {s s1 : State} {b : List Byte} {h : PtdpHeader} {data : List Byte}
    (hu : s.unpack b = (.ok h data, s1)) :
    h = (decodeHeader s.cfg.gP b).1 ∧ ptdpSize h ≤ b.length ∧ h.length.toNat ≤ maxPtdpPayload ∧
    data = slice b ptdpHdrBytes (ptdpHdrBytes + h.length.toNat) ∧ s1 = countHeader s b := by
  unfold State.unpack at hu
  split at hu
  · simp at hu
  · simp only at hu
    split at hu
    · simp at hu
    · split at hu
      · simp at hu
      · split at hu
        · simp at hu
        · simp only [Prod.mk.injEq, Unpacked.ok.injEq] at hu
          obtain ⟨⟨rfl, rfl⟩, rfl⟩ := hu
          simp only [ptdpSize, ptdpHdrBytes, maxPtdpPayload, countHeader, true_and, and_true] at *
          omega

/-- An incomplete PTDP changes nothing, and leaves fewer than 2054 bytes (R209, R220). -/
theorem unpack_inc {s s1 : State} {b : List Byte} (hu : s.unpack b = (.inc, s1)) : s1 = s ∧ b.length ≤ remCap := by
  unfold State.unpack at hu
  split at hu
  · simp only [Prod.mk.injEq, true_and, ptdpHdrBytes, remCap] at *
    exact ⟨hu.symm, by omega⟩
  · simp only at hu
    split at hu
    · simp at hu
    · split at hu
      · simp at hu
      · split at hu
        · simp only [Prod.mk.injEq, true_and, ptdpHdrBytes, remCap, maxPtdpPayload] at *
          exact ⟨hu.symm, by omega⟩
        · simp at hu

/-- A length error was counted, and its length is above 2048 (R205, R209). -/
theorem unpack_len {s s1 : State} {b : List Byte} {n : BitVec 16} (hu : s.unpack b = (.len n, s1)) :
    maxPtdpPayload < n.toNat ∧ s1 = countHeader s b := by
  unfold State.unpack at hu
  split at hu
  · simp at hu
  · simp only at hu
    split at hu
    · simp at hu
    · split at hu
      · simp only [Prod.mk.injEq, Unpacked.len.injEq] at hu
        obtain ⟨rfl, rfl⟩ := hu
        exact ⟨by assumption, rfl⟩
      · split at hu <;> simp at hu

/-- A Golay failure was counted (R209). -/
theorem unpack_gfail {s s1 : State} {b : List Byte} (hu : s.unpack b = (.gfail, s1)) :
    s.gfailResync = true ∧ s1 = countHeader s b := by
  unfold State.unpack at hu
  split at hu
  · simp at hu
  · simp only at hu
    split at hu
    · next h =>
      simp only [Prod.mk.injEq, true_and] at hu
      exact ⟨h.1, hu.symm⟩
    · split at hu
      · simp at hu
      · split at hu <;> simp at hu

/-- The HL loop's fuel decides nothing once it exceeds the number of bytes. -/
theorem hlLoop_fuel (n : Nat) (off : BitVec 11) : ∀ (fuel : Nat) (b : List Byte) (pos : Int) (c : Bool) (s : State),
    b.length < fuel → hlLoop n off (fuel + 1) b pos c s = hlLoop n off fuel b pos c s := by
  intro fuel
  induction fuel with
  | zero => intro b pos c s h; omega
  | succ fuel ih =>
    intro b pos c s h
    rw [hlLoop, hlLoop]
    split
    · rfl
    · split <;> try rfl
      next hu =>
        have hs := (unpack_ok hu).2.1
        simp only [ptdpSize, ptdpHdrBytes] at hs
        exact ih _ _ _ _ (by simp only [List.length_drop, ptdpSize, ptdpHdrBytes]; omega)

/-- The LLP run's fuel decides nothing once it exceeds the number of bytes left. -/
theorem llpRun_fuel (p : List Byte) (off : BitVec 11) : ∀ (fuel c : Nat) (s : State),
    p.length - c < fuel → llpRun p off (fuel + 1) c s = llpRun p off fuel c s := by
  intro fuel
  induction fuel with
  | zero => intro c s h; omega
  | succ fuel ih =>
    intro c s h
    rw [llpRun, llpRun]
    split <;> try rfl
    next hu =>
      have hs := (unpack_ok hu).2.1
      simp only [ptdpSize, ptdpHdrBytes, List.length_drop] at hs
      simp only
      split
      · rfl
      · split
        · split
          · rfl
          · exact ih _ _ (by simp only [ptdpSize, ptdpHdrBytes]; omega)
        · rfl

end Sys2Proof.Machine
end

