-- ==== Sys2Proof/Laws/Golay.lean ====
section
/-! SUPPORT. The Golay unit: `mulM` is linear (40_golay R151), what `findFlips` answers, and that the default parameter
set is valid (R157). -/

namespace Sys2Proof.Machine

/-! ## Linearity of `mulM` (R22, R151) -/

@[simp] theorem mulRows_zero (rs : List (BitVec 12)) : ∀ i, mulRows 0#12 i rs = 0#12 := by
  induction rs with
  | nil => intro i; rfl
  | cons r rs ih => intro i; simp [mulRows, ih]

theorem mulRows_xor (v w : BitVec 12) (rs : List (BitVec 12)) :
    ∀ i, mulRows (v ^^^ w) i rs = mulRows v i rs ^^^ mulRows w i rs := by
  induction rs with
  | nil => intro i; simp [mulRows]
  | cons r rs ih =>
    intro i
    simp only [mulRows, ih, BitVec.getLsbD_xor]
    cases v.getLsbD i <;> cases w.getLsbD i <;> ext j hj <;> simp <;>
      cases r[j] <;> cases (mulRows v (i + 1) rs)[j] <;> cases (mulRows w (i + 1) rs)[j] <;> rfl

@[simp] theorem mulM_zero (m : Rows) : mulM 0#12 m = 0#12 := mulRows_zero _ _

theorem mulM_xor (v w : BitVec 12) (m : Rows) : mulM (v ^^^ w) m = mulM v m ^^^ mulM w m :=
  mulRows_xor v w _ _

/-- A product of a product multiplies each row. -/
theorem mulM_mulRows (d : BitVec 12) (h : Rows) (rs : List (BitVec 12)) :
    ∀ i, mulM (mulRows d i rs) h = mulRows d i (rs.map fun r => mulM r h) := by
  induction rs with
  | nil => intro i; exact mulM_zero h
  | cons r rs ih =>
    intro i
    simp only [mulRows, List.map_cons, mulM_xor, ih]
    cases d.getLsbD i <;> simp

/-! ## The halves of a codeword -/

@[simp] theorem dataHalf_append (a b : BitVec 12) : dataHalf (a ++ b) = a := by
  refine BitVec.eq_of_getLsbD_eq fun i hi => ?_
  simp only [dataHalf, BitVec.getLsbD_extractLsb', BitVec.getLsbD_append]
  simp [hi]

@[simp] theorem parityHalf_append (a b : BitVec 12) : parityHalf (a ++ b) = b := by
  refine BitVec.eq_of_getLsbD_eq fun i hi => ?_
  simp only [parityHalf, BitVec.getLsbD_extractLsb', BitVec.getLsbD_append]
  simp [hi]

theorem dataHalf_xor (r t : BitVec 24) : dataHalf (r ^^^ t) = dataHalf r ^^^ dataHalf t := by
  unfold dataHalf; ext i hi; simp

theorem parityHalf_xor (r t : BitVec 24) : parityHalf (r ^^^ t) = parityHalf r ^^^ parityHalf t := by
  unfold parityHalf; ext i hi; simp

theorem halves_append (r : BitVec 24) : dataHalf r ++ parityHalf r = r := by
  refine BitVec.eq_of_getLsbD_eq fun i hi => ?_
  simp only [dataHalf, parityHalf, BitVec.getLsbD_extractLsb', BitVec.getLsbD_append]
  by_cases h : i < 12
  · simp [h]
  · have h2 : i - 12 < 12 := by omega
    have h3 : 12 + (i - 12) = i := by omega
    simp [h, h2, h3]

/-! ## `findFlips` -/

/-- The exclusive or of the patterns of a list of flips. -/
def flipBits (cs : List (BitVec 24 × BitVec 12)) : BitVec 24 := cs.foldr (fun c e => e ^^^ c.1) 0

/-- The exclusive or of the syndromes of a list of flips. -/
def flipSyn (cs : List (BitVec 24 × BitVec 12)) : BitVec 12 := cs.foldr (fun c e => e ^^^ c.2) 0

/-- A pattern that `findFlips` answers is made of at most `k` of the flips, and has the syndrome asked for. -/
theorem findFlips_some {cs : List (BitVec 24 × BitVec 12)} :
    ∀ {k : Nat} {s : BitVec 12} {e : BitVec 24}, findFlips cs k s = some e →
      ∃ sub, sub.Sublist cs ∧ sub.length ≤ k ∧ flipBits sub = e ∧ flipSyn sub = s := by
  induction cs with
  | nil =>
    intro k s e h
    simp only [findFlips] at h
    split at h
    · cases h; exact ⟨[], List.Sublist.slnil, Nat.zero_le _, rfl, by simp [flipSyn, *]⟩
    · cases h
  | cons c cs ih =>
    intro k s e h
    cases k with
    | zero =>
      simp only [findFlips] at h
      split at h
      · cases h; exact ⟨[], by simp, Nat.zero_le _, rfl, by simp [flipSyn, *]⟩
      · cases h
    | succ k =>
      simp only [findFlips] at h
      split at h
      · cases h; exact ⟨[], by simp, Nat.zero_le _, rfl, by simp [flipSyn, *]⟩
      · split at h
        · next e' he' =>
          cases h
          obtain ⟨sub, hs, hl, hb, hy⟩ := ih he'
          refine ⟨c :: sub, hs.cons_cons c, by simpa using hl, ?_, ?_⟩
          · rw [← hb]; rfl
          · show flipSyn sub ^^^ c.2 = s
            rw [hy, BitVec.xor_assoc, BitVec.xor_self, BitVec.xor_zero]
        · obtain ⟨sub, hs, hl, hb, hy⟩ := ih h
          exact ⟨sub, hs.cons c, hl, hb, hy⟩

/-- Where `findFlips` answers none, no choice of at most `k` flips has that syndrome. -/
theorem findFlips_none {cs : List (BitVec 24 × BitVec 12)} :
    ∀ {k : Nat} {s : BitVec 12}, findFlips cs k s = none →
      ∀ sub, sub.Sublist cs → sub.length ≤ k → flipSyn sub ≠ s := by
  induction cs with
  | nil =>
    intro k s h sub hs _ hy
    rw [List.sublist_nil.mp hs] at hy
    simp [findFlips, ← hy, flipSyn] at h
  | cons c cs ih =>
    intro k s h sub hs hl hy
    cases k with
    | zero =>
      have : sub = [] := List.length_eq_zero_iff.mp (by omega)
      subst this
      simp [findFlips, ← hy, flipSyn] at h
    | succ k =>
      simp only [findFlips] at h
      split at h
      · cases h
      · split at h
        · cases h
        · next hn =>
          cases hs with
          | cons _ hs' => exact ih h sub hs' hl hy
          | cons_cons _ hs' =>
            refine ih hn _ hs' (by simpa using hl) ?_
            rw [← hy]
            show _ = (flipSyn _ ^^^ c.2) ^^^ c.2
            rw [BitVec.xor_assoc, BitVec.xor_self, BitVec.xor_zero]

/-! ## Every pattern is an exclusive or of flips -/

theorem syn_xor (g : Rows) (r t : BitVec 24) : syn g (r ^^^ t) = syn g r ^^^ syn g t := by
  simp only [syn, synT, dataHalf_xor, parityHalf_xor, mulM_xor]
  ac_rfl

/-- The flips of the one bits of a pattern. -/
def flipsOf (g : Rows) (e : BitVec 24) : List (BitVec 24 × BitVec 12) :=
  ((List.range 24).filter fun i => e.getLsbD i).map fun i => (BitVec.twoPow 24 i, syn g (BitVec.twoPow 24 i))

theorem flipsOf_sublist (g : Rows) (e : BitVec 24) : (flipsOf g e).Sublist (singleFlips g) :=
  List.filter_sublist.map _

theorem length_flipsOf (g : Rows) (e : BitVec 24) : (flipsOf g e).length = popcount e := by
  rw [flipsOf, List.length_map, popcount, List.countP_eq_length_filter]

theorem getLsbD_flipBits (g : Rows) (j : Nat) (hj : j < 24) (l : List Nat) (hl : l.Nodup) :
    (flipBits (l.map fun i => (BitVec.twoPow 24 i, syn g (BitVec.twoPow 24 i)))).getLsbD j = decide (j ∈ l) := by
  induction l with
  | nil => simp [flipBits]
  | cons i l ih =>
    have hn := List.nodup_cons.mp hl
    have hc := ih hn.2
    show ((flipBits (l.map _)) ^^^ BitVec.twoPow 24 i).getLsbD j = _
    rw [BitVec.getLsbD_xor, hc, BitVec.getLsbD_twoPow]
    by_cases h : i = j
    · subst h; simp [hj, hn.1]
    · simp [h, Ne.symm h]

theorem flipBits_flipsOf (g : Rows) (e : BitVec 24) : flipBits (flipsOf g e) = e := by
  refine BitVec.eq_of_getLsbD_eq fun j hj => ?_
  rw [flipsOf, getLsbD_flipBits g j hj _ (List.nodup_range.filter _)]
  simp [hj]

theorem flipSyn_eq (g : Rows) (l : List Nat) :
    flipSyn (l.map fun i => (BitVec.twoPow 24 i, syn g (BitVec.twoPow 24 i))) =
      syn g (flipBits (l.map fun i => (BitVec.twoPow 24 i, syn g (BitVec.twoPow 24 i)))) := by
  induction l with
  | nil => simp [flipSyn, flipBits, syn, synT, dataHalf, parityHalf, mulM_zero]
  | cons i l ih => exact (congrArg (· ^^^ _) ih).trans (syn_xor g _ _).symm

theorem flipSyn_flipsOf (g : Rows) (e : BitVec 24) : flipSyn (flipsOf g e) = syn g e := by
  rw [flipsOf, flipSyn_eq, ← flipsOf, flipBits_flipsOf]

/-- Where no pattern is found for a syndrome, no pattern of weight at most 3 has it. -/
theorem patternOf_none {g : Rows} {x : BitVec 12} (h : patternOf g x = none) (e : BitVec 24) (he : popcount e ≤ 3) :
    syn g e ≠ x := by
  rw [← flipSyn_flipsOf]
  exact findFlips_none h _ (flipsOf_sublist g e) (by rwa [length_flipsOf])

/-! ## The default parameter set is valid (R157) -/

/-- The one bits among the low `k` bits of a number, by halving it. -/
def onesBelow : Nat → Nat → Nat
  | 0, _ => 0
  | k + 1, n => n % 2 + onesBelow k (n / 2)

theorem countP_testBit (k : Nat) : ∀ n, (List.range k).countP (fun i => n.testBit i) = onesBelow k n := by
  induction k with
  | zero => intro n; rfl
  | succ k ih =>
    intro n
    rw [List.range_succ_eq_map, List.countP_cons, List.countP_map, onesBelow, ← ih, Nat.add_comm]
    congr 1
    · rcases Nat.mod_two_eq_zero_or_one n with h | h <;> simp [Nat.testBit_zero, h]
    · refine List.countP_congr fun i _ => ?_
      simp [Function.comp, Nat.testBit_succ]

theorem popcount_eq_onesBelow {w : Nat} (v : BitVec w) : popcount v = onesBelow w v.toNat :=
  countP_testBit w v.toNat

/-- A walk over the exclusive ors of `acc` with every choice of the given words: each is 0 or has weight at least 8. -/
def walkWeights : List (BitVec 24) → BitVec 24 → Bool
  | [], acc => acc == 0 || 8 ≤ onesBelow 24 acc.toNat
  | r :: rs, acc => walkWeights rs acc && walkWeights rs (acc ^^^ r)

/-- The choice of words that the bits of `d` from `i` on make. -/
def choose (d : BitVec 12) : Nat → List (BitVec 24) → BitVec 24
  | _, [] => 0
  | i, r :: rs => (if d.getLsbD i then r else 0) ^^^ choose d (i + 1) rs

theorem walkWeights_sound (d : BitVec 12) (rs : List (BitVec 24)) :
    ∀ i acc, walkWeights rs acc = true → acc ^^^ choose d i rs = 0 ∨ 8 ≤ popcount (acc ^^^ choose d i rs) := by
  induction rs with
  | nil => intro i acc h; simpa [walkWeights, choose, popcount_eq_onesBelow] using h
  | cons r rs ih =>
    intro i acc h
    simp only [walkWeights, Bool.and_eq_true] at h
    simp only [choose]
    cases d.getLsbD i
    · simpa using ih (i + 1) acc h.1
    · simpa [BitVec.xor_assoc] using ih (i + 1) _ h.2

/-- The codewords of the twelve unit data words. -/
def unitCodewords (g : Rows) : List (BitVec 24) := g.toList.zipIdx.map fun x => BitVec.twoPow 12 x.2 ++ x.1

theorem choose_unit (d : BitVec 12) (rs : List (BitVec 12)) :
    ∀ i, choose d i ((rs.zipIdx i).map fun x => BitVec.twoPow 12 x.2 ++ x.1)
      = mulRows d i ((rs.zipIdx i).map fun x => BitVec.twoPow 12 x.2) ++ mulRows d i rs := by
  induction rs with
  | nil => intro i; simp only [List.zipIdx_nil, List.map_nil, choose, mulRows]; rfl
  | cons r rs ih =>
    intro i
    simp only [List.zipIdx_cons, List.map_cons, choose, mulRows, ih]
    cases d.getLsbD i
    · simp
    · simp only [if_true]
      exact BitVec.xor_append

theorem getLsbD_mulRows_unit (d : BitVec 12) (rs : List (BitVec 12)) (j : Nat) :
    ∀ i, (mulRows d i ((rs.zipIdx i).map fun x => BitVec.twoPow 12 x.2)).getLsbD j
      = (decide (i ≤ j ∧ j < i + rs.length) && d.getLsbD j) := by
  induction rs with
  | nil => intro i; simp [mulRows]
  | cons r rs ih =>
    intro i
    simp only [List.zipIdx_cons, List.map_cons, mulRows, BitVec.getLsbD_xor, ih, List.length_cons]
    by_cases hj : j = i
    · subst hj
      cases h : d.getLsbD j
      · simp
      · have : j < 12 := BitVec.lt_of_getLsbD h
        simp [this]
    · have : (decide (i ≤ j ∧ j < i + (rs.length + 1))) = decide (i + 1 ≤ j ∧ j < i + 1 + rs.length) := by
        simp only [decide_eq_decide]; omega
      rw [this]
      cases d.getLsbD i <;> simp [Ne.symm hj]

/-- Multiplying by the unit rows changes nothing. -/
theorem mulRows_units (d : BitVec 12) (rs : List (BitVec 12)) (h : rs.length = 12) :
    mulRows d 0 ((rs.zipIdx).map fun x => BitVec.twoPow 12 x.2) = d := by
  refine BitVec.eq_of_getLsbD_eq fun j hj => ?_
  rw [getLsbD_mulRows_unit]
  simp [h, hj]

/-- The codewords are the choices among the unit codewords. -/
theorem encT_eq_choose (g : Rows) (d : BitVec 12) : encT g d = choose d 0 (unitCodewords g) := by
  unfold unitCodewords
  rw [choose_unit, mulRows_units _ _ (by simp)]
  rfl

/-- What makes a parameter set valid, checked on the unit data words and by one walk over the code. -/
theorem golayValid_of_walk (g : Rows) (hw : walkWeights (unitCodewords g) 0 = true)
    (hi : (g.toList.map fun r => mulM r (hPOf g)) = (g.toList.zipIdx).map fun x => BitVec.twoPow 12 x.2) :
    golayValid g = true := by
  simp only [golayValid, Bool.and_eq_true, List.all_eq_true, Bool.or_eq_true, beq_iff_eq, decide_eq_true_eq]
  refine ⟨fun d _ => ?_, fun d _ => ?_⟩
  · have h := walkWeights_sound d _ 0 0 hw
    rw [show (0 : BitVec 24) ^^^ choose d 0 (unitCodewords g) = encT g d by rw [encT_eq_choose]; exact BitVec.zero_xor] at h
    rcases h with h | h
    · left
      have h0 := congrArg dataHalf h
      rw [encT, dataHalf_append] at h0
      exact h0
    · right; exact h
  · show mulM (mulRows d 0 g.toList) (hPOf g) = d
    rw [mulM_mulRows, hi, mulRows_units _ _ (by simp)]

theorem golayValid_default : golayValid Config.defaultGP = true :=
  golayValid_of_walk _ (by decide +kernel) (by decide +kernel)

/-- A valid parameter set, as statements over data words (R157). -/
theorem golayValid_iff (g : Rows) : golayValid g = true ↔
    (∀ d : BitVec 12, d ≠ 0 → 8 ≤ popcount (encT g d)) ∧ (∀ d : BitVec 12, mulM (par g d) (hPOf g) = d) := by
  have hall : ∀ d : BitVec 12, d ∈ allData := fun d => by
    simp only [allData, List.mem_map, List.mem_range]
    exact ⟨d.toNat, d.isLt, by simp⟩
  simp only [golayValid, Bool.and_eq_true, List.all_eq_true, Bool.or_eq_true, beq_iff_eq, decide_eq_true_eq]
  constructor
  · rintro ⟨h1, h2⟩
    exact ⟨fun d hd => (h1 d (hall d)).resolve_left hd, fun d => h2 d (hall d)⟩
  · rintro ⟨h1, h2⟩
    exact ⟨fun d _ => (em (d = 0)).imp_right (h1 d), fun d _ => h2 d⟩

end Sys2Proof.Machine
end

