-- ==== Sys2Proof/Laws/PerInstr.lean ====
section
/-! SUPPORT. One lemma per command for statements about all commands. Family `WordCount`: a command's length is decidable
from its head word and PTFR_LEN alone (30_encoding R114, R129). -/

namespace Sys2Proof.Laws.WordCount

/-- Whatever PTFR_LEN value a command fits, its head word tells how many words it has. -/
def Statement (i : Instr) : Prop :=
  ∀ len, i.fits len → commandLength len (headWord i.opcode i.arg) = (encode i).length

/-- The head word of any command that fits tells its length. -/
theorem of_fits (i : Instr) : Statement i := by
  intro len h
  simp only [commandLength, headOp_headWord, opcodeOf_code, encode, List.length_cons, length_trail h]
  omega

theorem nop (rsv : BitVec 24) : Statement (.nop rsv) := of_fits _
theorem genc (rsv m : BitVec 12) : Statement (.genc rsv m) := of_fits _
theorem gdec (r : BitVec 24) : Statement (.gdec r) := of_fits _
theorem gerr (r : BitVec 24) : Statement (.gerr r) := of_fits _
theorem frame (rsv : BitVec 24) (f : List Byte) : Statement (.frame rsv f) := of_fits _
theorem srst (rsv : BitVec 24) : Statement (.srst rsv) := of_fits _
theorem csrr (rsv : BitVec 16) (a : BitVec 8) : Statement (.csrr rsv a) := of_fits _
theorem csrw (rsv : BitVec 16) (a : BitVec 8) (v : Word) : Statement (.csrw rsv a v) := of_fits _

end Sys2Proof.Laws.WordCount
end

