-- ==== Sys2Proof/Laws/Ports.lean ====
section
/-! SUPPORT. A run's response stream (70_reset_and_hazards R377, R378): taking words changes no stream and no observation. -/

namespace Sys2Proof.Machine

@[simp] theorem Run.responses_launch (s : State) : (Run.launch s).responses = s.rspOut := rfl

@[simp] theorem Run.responses_send (r : Run) (ws : List Word) : (r.send ws).responses = r.responses := rfl

/-- The host's taking words moves them and loses none. -/
@[simp] theorem Run.responses_take (r : Run) (n : Nat) : (r.take n).responses = r.responses := by
  simp [Run.take, Run.responses, State.hostTake, State.hostWords]

/-- The rate at which the host takes words is not observed. -/
@[simp] theorem Run.observe_take (r : Run) (n : Nat) : (r.take n).observe = r.observe := by
  simp only [Run.observe, Run.responses_take]; rfl

/-- At the end of a run the whole stream has been delivered. -/
theorem Run.responses_ended {r : Run} (h : r.ended) : r.responses = r.taken := by
  rw [Run.responses, h.2.2, List.append_nil]

/-- What one step of a run does, where the step of its block is a next state. -/
theorem Run.advance_next {r : Run} {t : State} (h : Machine.step r.state = .next t) : r.advance = .next ⟨t, r.taken⟩ := by
  rw [Run.advance, h]

end Sys2Proof.Machine
end

