-- ==== Sys2Proof/Tests/Slice0.lean ====
section
/-! SUPPORT. Small tests: ill-formed terms are refused, words written out from the spec's encodings decode, single steps give the
responses of 95_test_vectors, and for every obligation with hypotheses a witness that meets them. -/

namespace Sys2Proof.Tests

open Sys2Proof.Machine

/-- The response words of one step from a state with these words on `cmd_in`; none where the step stops. -/
def answers (s : State) (ws : List Word) : Option (List Word) :=
  match step (s.hostSend ws) with
  | .next t => some t.rspOut
  | .fault _ => none
  | .refused _ => none

/-- A field of the state after one step from a state with these words on `cmd_in`. -/
def afterStep {α : Type} (s : State) (ws : List Word) (field : State → α) : Option α :=
  match step (s.hostSend ws) with
  | .next t => some (field t)
  | .fault _ => none
  | .refused _ => none

/-- The reset state while the tables are being built, with `n` steps to go. -/
def building (n : Nat) : State := { State.reset with tables := .building n }

/-- A frame of `n` zero bytes. -/
def zeros (n : Nat) : List Byte := List.replicate n 0

/-- A PTDP of two payload bytes, sent with three errors in its first codeword and none in its second. -/
def sent : SentPtdp := ⟨⟨.complete, 3, 0, [0xA1, 0xA2]⟩, 0x000007, 0⟩

/-- The same PTDP with no errors. -/
def clean : SentPtdp := ⟨⟨.complete, 3, 0, [0xA1, 0xA2]⟩, 0, 0⟩

/-- The reset state with bit 3 of CTRL, GFAIL_RESYNC, set. -/
def gfail : State := { State.reset with ctrl := 0x1D }

/-- The reset state with bit 1 of CTRL, REC_OUT_EN, set and both chains in progress. -/
def chains : State := { State.reset with ctrl := 0x17, ctxHl := ⟨true, 5, [1, 2]⟩, ctxLl := ⟨true, 6, []⟩ }

/-- The reset state of a block whose records hold at most 4 bytes, with an HL chain of 2 bytes in progress. -/
def shortRecords : State :=
  { State.resetWith { Config.standard with maxRecordBytes := 4 } with ctrl := 0x17, ctxHl := ⟨true, 5, [1, 2]⟩ }

/-! ## Well-formedness -/

theorem test_nop_reserved_is_ill_formed : (Instr.nop 0x000001).wellFormed = false := by decide
theorem test_genc_reserved_is_ill_formed : (Instr.genc 0x800 0xABC).wellFormed = false := by decide
theorem test_frame_reserved_is_ill_formed : (Instr.frame 0x800000 (zeros 5)).wellFormed = false := by decide
theorem test_frame_too_short_is_ill_formed : (Instr.frame 0 (zeros 4)).wellFormed = false := by decide
theorem test_frame_too_long_is_ill_formed : (Instr.frame 0 (zeros 2052)).wellFormed = false := by decide +kernel
theorem test_srst_reserved_is_ill_formed : (Instr.srst 0x000001).wellFormed = false := by decide
theorem test_csrr_reserved_is_ill_formed : (Instr.csrr 0x0001 0x01).wellFormed = false := by decide
theorem test_csrw_reserved_is_ill_formed : (Instr.csrw 0x8000 0x01 0).wellFormed = false := by decide
theorem test_longest_frame_is_well_formed : (Instr.frame 0 (zeros 2051)).wellFormed = true := by decide +kernel
theorem test_gdec_has_no_reserved_bits : (Instr.gdec 0xFFFFFF).wellFormed = true := by decide

/-! ## Words written out bit by bit from the opcode map (30_encoding R111, R112) -/

theorem test_decode_nop : decode 24 [0b00000000_000000000000000000000000#32] = .command (.nop 0) [] := by decide
theorem test_decode_genc :
    decode 24 [0b00000001_000000000000_101010111100#32] = .command (.genc 0 0xABC) [] := by decide
theorem test_decode_gdec :
    decode 24 [0b00000010_101010011100000100010110#32] = .command (.gdec 0xA9C116) [] := by decide
theorem test_decode_gerr :
    decode 24 [0b00000011_000000000000000000000001#32] = .command (.gerr 0x000001) [] := by decide
theorem test_decode_srst : decode 24 [0b00010001_000000000000000000000000#32] = .command (.srst 0) [] := by decide
theorem test_decode_csrr :
    decode 24 [0b00100000_0000000000000000_00011111#32] = .command (.csrr 0 0x1F) [] := by decide
theorem test_decode_csrw :
    decode 24 [0b00100001_0000000000000000_00000011#32, 0b00000000000000000000100000000011#32] =
      .command (.csrw 0 0x03 2051) [] := by decide
/-- Six frame bytes, the last two in the top half of the second trailing word, whose pad bytes are ignored (R115). -/
theorem test_decode_frame :
    decode 6 [0b00010000_000000000000000000000000#32, 0b01000000_00000001_00000010_00000011#32,
        0b10101010_10111011_11111111_11111111#32] =
      .command (.frame 0 [0x40, 0x01, 0x02, 0x03, 0xAA, 0xBB]) [] := by decide
theorem test_decode_illegal : decode 24 [0b00010010_000000000000000000000000#32] = .illegal 0x12 [] := by decide
/-- A reserved bit stays in the term, so that R116 can reject it. -/
theorem test_decode_keeps_reserved_bits :
    decode 24 [0b00000001_000000000001_101010111100#32] = .command (.genc 0x001 0xABC) [] := by decide
/-- Vector Vo: FRAME with L = 26 has seven trailing words. -/
theorem test_frame_length_follows_ptfr_len : commandLength 26 0x10000000 = 8 := by decide
theorem test_table_word_csrw : decodeTableWord 64 0x0000001821000003 = some (.csrw 0 0x03 0x18) := by decide +kernel
theorem test_table_word_frame : decodeTableWord 32 0x10000000 = some (.frame 0 (zeros 24)) := by decide +kernel

/-! ## One step of each command (expected words from 95_test_vectors) -/

theorem test_nop : answers State.reset [0x00000000] = some [] := by decide +kernel
/-- 95 section 2.1. -/
theorem test_genc : answers State.reset [0x01000ABC] = some [0x81ABC11E] := by decide +kernel
/-- 95 section 2.1, the last row of the GENC table. -/
theorem test_genc_reserved : answers State.reset [0x01001ABC] = some [0xE0020001] := by decide +kernel
/-- 95 section 1.4. -/
theorem test_gdec : answers State.reset [0x02A9C116] = some [0x82002ABC] := by decide +kernel
/-- 95 section 1.3, four flips. -/
theorem test_gdec_four_flips : answers State.reset [0x02AB311E] = some [0x8200454C] := by decide +kernel
/-- 95 section 2.1, four flips. -/
theorem test_gerr : answers State.reset [0x03ABC111] = some [0x83000004] := by decide +kernel
/-- 95 section 2.1, five flips are miscounted as three. -/
theorem test_gerr_five_flips : answers State.reset [0x03ABC16B] = some [0x83000003] := by decide +kernel
/-- Vector Vf. -/
theorem test_frame_offset_out_of_range :
    answers State.reset [0x10000000, 0x40019325, 0, 0, 0, 0, 0] = some [0x98400019, 0xE0140019, 0x9F100000] := by
  decide +kernel
/-- Vector Vb. -/
theorem test_frame_bad_marker :
    answers State.reset [0x10000000, 0x408088D9, 0x11472200, 0x0000075A, 0x61051A00, 0x00000102, 0x03040506] =
      some [0x98408008, 0x91140001, 0x07000000, 0xE015005A, 0x90100006, 0x01020304, 0x05060000, 0x9F100000] := by
  decide +kernel
/-- SRST clears a chain and emits nothing (43_control R301). -/
theorem test_srst : afterStep chains [0x11000000] (fun t => (t.ctxHl, t.rspOut)) = some (⟨false, 0, []⟩, []) := by decide +kernel
/-- 10_state R42: STATUS reads 1 at reset with the tables in ROM. -/
theorem test_csrr_status : answers State.reset [0x20000002] = some [0xC0000002, 0x00000001] := by decide +kernel
/-- 43_control R302: an unimplemented address raises CSR_UNIMPL and reads 0. -/
theorem test_csrr_unimplemented : answers State.reset [0x20000007] = some [0xE0040007, 0xC0000007, 0] := by decide +kernel
/-- 10_state R43: 4 is no legal frame length. -/
theorem test_csrw_ptfr_len_ignored :
    afterStep State.reset [0x21000003, 0x00000004] (fun t => (t.ptfrLen, t.rspOut)) = some (24, [0xE0030003]) := by decide +kernel
/-- 10_state R46: EVT_ENABLE holds its implemented bits only. -/
theorem test_csrw_evt_enable :
    afterStep State.reset [0x21000009, 0xFFFFFFFF] (·.evtEnable) = some 0x000FFF0F := by decide +kernel
/-- 30_encoding R117: an illegal head word is one word, and the next one is a command. -/
theorem test_illegal_head : afterStep State.reset [0x04000000, 0x00000000] (fun t => (t.cmdIn, t.rspOut)) =
    some ([0], [0xE0010004]) := by decide +kernel
/-- 70_reset_and_hazards R372: GENC waits for the tables. -/
theorem test_genc_held : afterStep (building 1) [0x01000ABC] (fun t => (t.cmdPart, t.rspOut)) = some ([0x01000ABC], []) := by
  decide +kernel
/-- A zero FRAME placed where the next step takes its words runs as the first command after reset. -/
theorem test_first_command :
    (match step (State.reset.withFetchWord 32 0x10000000) with
      | .next t => some t.counters.frames
      | .fault _ => none
      | .refused _ => none) = some 1 := by decide +kernel

/-! ## Witnesses: states and operands that meet the hypotheses of the obligations -/

theorem witness_ResetGivesSpecValues : limitsValid State.reset.cfg = true := by decide

theorem witness_InstantiateRefusesBadConfigurations_refused :
    (∃ d : BitVec 12, d ≠ 0 ∧ popcount (encT (Vector.replicate 12 0) d) < 8) ∧
    ¬ (5 ≤ 4 ∧ 4 ≤ 2051) ∧ ¬ (5 ≤ 2052 ∧ 2052 ≤ 2051) ∧ ¬ (1 ≤ 0 ∧ 0 ≤ 1048575) ∧
    ¬ (1 ≤ 1048576 ∧ 1048576 ≤ 1048575) ∧ ¬ 16 < 16 :=
  ⟨⟨1, by decide +kernel⟩, by decide, by decide, by decide, by decide, by decide⟩

theorem witness_InstantiateRefusesBadConfigurations_inverse :
    ∃ d : BitVec 12, mulM (par (Vector.replicate 12 0) d) (hPOf (Vector.replicate 12 0)) ≠ d := ⟨1, by decide +kernel⟩

theorem witness_InstantiateRefusesBadConfigurations_accepted :
    (∀ d : BitVec 12, d ≠ 0 → 8 ≤ popcount (encT Config.standard.gP d)) ∧
    (∀ d : BitVec 12, mulM (par Config.standard.gP d) (hPOf Config.standard.gP) = d) ∧
    (5 ≤ Config.standard.ptfrLenReset ∧ Config.standard.ptfrLenReset ≤ 2051) ∧
    (1 ≤ Config.standard.maxRecordBytes ∧ Config.standard.maxRecordBytes ≤ 1048575) ∧ Config.standard.fillCodeReset < 16 :=
  ⟨((golayValid_iff _).mp golayValid_default).1, ((golayValid_iff _).mp golayValid_default).2, by decide, by decide, by decide⟩

theorem witness_ResetStateIsLegal :
    limitsValid { Config.standard with ptfrLenReset := 5, maxRecordBytes := 1, fillCodeReset := 15 } = true := by decide

theorem witness_StepKeepsLegalState :
    (chains.hostSend [0x10000000, 0, 0, 0, 0, 0, 0]).Inv ∧
    ∃ t, step (chains.hostSend [0x10000000, 0, 0, 0, 0, 0, 0]) = .next t := ⟨by decide +kernel, ⟨_, rfl⟩⟩

theorem witness_StepNeverStopsTheBlock : chains.Inv := by decide

theorem witness_DecodeOfEncodeIsTheCommand : (Instr.frame 0 (zeros 5)).fits 5 ∧ (Instr.frame 0 (zeros 2051)).fits 2051 :=
  ⟨rfl, List.length_replicate⟩

theorem witness_FrameBytesComeFromTheirWords :
    [0x40000000#32, 0xBB000000].length = (5 + 3) / 4 ∧ [0x40000000#32, 0xBB123456].length = (5 + 3) / 4 ∧
    ∀ k, k < 5 → packedByte [0x40000000, 0xBB123456] k = packedByte [0x40000000, 0xBB000000] k := by decide

theorem witness_PackedBytesAreBigEndian :
    (4 < (zeros 5).length) ∧ (zeros 5).length ≤ 5 ∧ 7 < 4 * (packBytes (zeros 5)).length := by decide

/-- GENC with a NOP behind it; and a FRAME of five bytes whose pad bytes are not zero. -/
theorem witness_StepRunsTheDecodedCommand :
    (State.reset.hostSend [0x01000ABC, 0x00000000]).cmdPart ++ (State.reset.hostSend [0x01000ABC, 0x00000000]).cmdIn =
      [0x01000ABC] ++ [0x00000000] ∧
    decode State.reset.ptfrLen.toNat ([0x01000ABC] ++ [0x00000000]) = .command (.genc 0 0xABC) [0x00000000] ∧
    decode 5 ([0x10000000, 0x40000000, 0xBB123456] ++ []) = .command (.frame 0 [0x40, 0, 0, 0, 0xBB]) [] := by decide

theorem witness_IncompleteCommandWaits :
    decode State.reset.ptfrLen.toNat (State.reset.cmdPart ++ State.reset.cmdIn) = .incomplete ∧
    decode 24 ([0x10000000] ++ [0, 0, 0, 0, 0]) = .incomplete := by decide

theorem witness_CommandWordsConsumedInOrder : ∃ t, step (State.reset.hostSend [0x01000ABC, 0x00000000]) = .next t :=
  ⟨_, rfl⟩

theorem witness_IllegalHeadIsConsumedAlone :
    opcodeOf ((0x04000000#32).extractLsb' 24 8) = none ∧ opcodeOf ((0xFF000000#32).extractLsb' 24 8) = none ∧
    (State.reset.hostSend [0x04000000]).cmdPart ++ (State.reset.hostSend [0x04000000]).cmdIn = 0x04000000 :: [] := by decide

theorem witness_ReservedBitsRejectTheCommand :
    (Instr.genc 0x001 0).reservedZero = false ∧ (held (Instr.genc 0x001 0).opcode = true → State.reset.tables = .built) ∧
    (Instr.nop 0x800000).reservedZero = false ∧
    (held (Instr.nop 0x800000).opcode = true → (building 1).tables = .built) := by decide

theorem witness_TableBuildHoldsGolayAndFrame :
    (building 1).tables = .building (0 + 1) ∧ held (Instr.genc 0 0).opcode = true ∧ held (Instr.nop 0).opcode = false ∧
    (building 0).tables = .building 0 ∧ (Instr.genc 0 0).lengthLegal = true ∧
    ((building 1).hostSend [0x01000000]).cmdPart ++ ((building 1).hostSend [0x01000000]).cmdIn = encode (.genc 0 0) ++ [] ∧
    ((building 1).hostSend [0x00000000]).cmdPart ++ ((building 1).hostSend [0x00000000]).cmdIn = encode (.nop 0) ++ [] ∧
    ((building 0).hostSend [0x01000000]).cmdPart ++ ((building 0).hostSend [0x01000000]).cmdIn = encode (.genc 0 0) ++ [] := by
  decide

theorem witness_TableBuildEnds :
    (∃ t, Host.Core.run Sys2Proof.core 1 (building 1) = .next t) ∧ (∃ t, Host.Core.run Sys2Proof.core 2 (building 1) = .next t) ∧
    (building 1).tables = .building 1 ∧ State.reset.tables = .built ∧
    ∃ t, Host.Core.run Sys2Proof.core 1 State.reset = .next t := ⟨⟨_, rfl⟩, ⟨_, rfl⟩, rfl, rfl, ⟨_, rfl⟩⟩

theorem witness_PendingBitsAreSticky : ∃ t, exec (.csrw 0 0x08 1) { State.reset with evtPending := 3 } = .next t := ⟨_, rfl⟩

theorem witness_StatusIsTheLiveView :
    State.reset.rem.length ≤ 2053 ∧ ({ State.reset with rem := zeros 2053 } : State).rem.length ≤ 2053 :=
  by decide +kernel

theorem witness_CsrrAnswersTheValue :
    ((0x1F#8, 0#32) ∈ [(0x00#8, 0x47370001#32), (0x1F, 0)]) ∧ Csr.cntClr ∈ allCsrs ∧ Csr.cntClr.addr = 0x1F ∧
    0x05#8 ∉ [0x00#8, 0x01#8, 0x02#8, 0x03#8, 0x04#8, 0x08#8, 0x09#8, 0x10#8, 0x11#8, 0x12#8, 0x13#8, 0x14#8, 0x15#8, 0x1F#8] ∧
    0x20#8 ∉ [0x00#8, 0x01#8, 0x02#8, 0x03#8, 0x04#8, 0x08#8, 0x09#8, 0x10#8, 0x11#8, 0x12#8, 0x13#8, 0x14#8, 0x15#8, 0x1F#8] ∧
    (0x8000 : BitVec 16) ≠ 0 := by decide

theorem witness_CsrwWritesByAddress :
    (5 ≤ (5#32).toNat ∧ (5#32).toNat ≤ 2051) ∧ (5 ≤ (2051#32).toNat ∧ (2051#32).toNat ≤ 2051) ∧
    ¬ (5 ≤ (4#32).toNat ∧ (4#32).toNat ≤ 2051) ∧ ¬ (5 ≤ (2052#32).toNat ∧ (2052#32).toNat ≤ 2051) ∧
    0x00#8 ∈ [0x00#8, 0x02#8, 0x10#8, 0x11#8, 0x12#8, 0x13#8, 0x14#8, 0x15#8] ∧
    0x05#8 ∉ [0x00#8, 0x01#8, 0x02#8, 0x03#8, 0x04#8, 0x08#8, 0x09#8, 0x10#8, 0x11#8, 0x12#8, 0x13#8, 0x14#8, 0x15#8, 0x1F#8] ∧
    (1 : BitVec 16) ≠ 0 := by decide

theorem witness_NopDoesNothing : (0x800000 : BitVec 24) ≠ 0 := by decide

theorem witness_SrstClearsParserAndContexts : (0x000001 : BitVec 24) ≠ 0 := by decide

theorem witness_CommandsLeaveOthersStateAlone :
    (∃ t, exec (.nop 0) chains = .next t) ∧ (Instr.nop 0).opcode ≠ .csrw ∧ (Instr.nop 0).opcode ≠ .frame ∧
    (Instr.nop 0).opcode ≠ .srst := ⟨⟨_, rfl⟩, by decide, by decide, by decide⟩

theorem witness_ResponsesAreWholeAndTagged :
    limitsValid State.reset.cfg = true ∧ ∃ t, step (State.reset.hostSend [0x20000010]) = .next t := ⟨by decide, ⟨_, rfl⟩⟩

theorem witness_GencAnswersTheCodeword : State.reset.tables = .built ∧ (0x800 : BitVec 12) ≠ 0 := by decide

theorem witness_GdecAnswersDataAndCount : State.reset.tables = .built := rfl

theorem witness_GerrAnswersTheCount : chains.tables = .built := rfl

theorem witness_SyndromesTellLightPatternsApart :
    golayValid Config.defaultGP = true ∧ popcount (0xE00000#24) ≤ 3 ∧ syn Config.defaultGP 0xE00000 = syn Config.defaultGP 0xE00000 :=
  ⟨golayValid_default, by decide, rfl⟩

theorem witness_TablesAreTheFilledTables :
    golayValid Config.defaultGP = true ∧ (1 ≤ popcount (0x800000#24) ∧ popcount (0x800000#24) ≤ 3) ∧
    (1 ≤ popcount (0x800003#24) ∧ popcount (0x800003#24) ≤ 3) ∧
    syn Config.defaultGP 0x00000F ≠ 0 ∧
    ∀ e : BitVec 24, 1 ≤ popcount e → popcount e ≤ 3 → syn Config.defaultGP e ≠ syn Config.defaultGP 0x00000F :=
  ⟨golayValid_default, by decide, by decide, by decide +kernel, fun e _ => patternOf_none (by decide +kernel) e⟩

theorem witness_UpToThreeFlipsAreCorrected :
    golayValid Config.defaultGP = true ∧ popcount (0#24) ≤ 3 ∧ popcount (0x104020#24) ≤ 3 :=
  ⟨golayValid_default, by decide, by decide⟩

theorem witness_FourFlipsAreUncorrectable : golayValid Config.defaultGP = true ∧ popcount (0x00F000#24) = 4 :=
  ⟨golayValid_default, by decide⟩

theorem witness_ErrorCountsOfAnyWord :
    golayValid Config.defaultGP = true ∧ (gdec Config.defaultGP 0x00000F).2 = 4 := ⟨golayValid_default, by decide +kernel⟩

theorem witness_FrameAnswersHeaderToDone :
    State.reset.tables = .built ∧ (5 ≤ (zeros 5).length ∧ (zeros 5).length ≤ 2051) ∧
    (5 ≤ (zeros 2051).length ∧ (zeros 2051).length ≤ 2051) := by decide +kernel

theorem witness_OnlyIllFormedFramesFault :
    exec (.frame 0 (zeros 4)) State.reset = .fault .illFormedFrame ∧
    decode 5 [0x10000000, 0, 0] = .command (.frame 0 (zeros 5)) [] := ⟨rfl, by decide⟩

theorem witness_FrameOutcomesAreTheTable :
    State.reset.tables = .built ∧ ∃ t, exec (.frame 0 (zeros 5)) State.reset = .next t := ⟨rfl, ⟨_, rfl⟩⟩

/-- The shortest frame with the smallest offset past its payload, 1, sent without an error and with three. -/
theorem witness_OffsetBeyondPayloadParsesNothing :
    State.reset.tables = .built ∧ State.reset.remKind ≠ .bytes ∧
    gdec State.reset.cfg.gP (codewordAt [0x40, 0x00, 0x1C, 0x75, 0xAA] 1) = (0#1 ++ 1#11, 0) ∧
    gdec State.reset.cfg.gP (codewordAt [0x40, 0x00, 0x1C, 0x72, 0xAA] 1) = (0#1 ++ 1#11, 3) ∧
    (0#3).toNat ≤ 3 ∧ (3#3).toNat ≤ 3 ∧ [0x40#8, 0x00, 0x1C, 0x75, 0xAA].length - 4 ≤ (1#11).toNat ∧ (1#11) ≠ 0x7FF ∧
    (5 ≤ [0x40#8, 0x00, 0x1C, 0x72, 0xAA].length ∧ [0x40#8, 0x00, 0x1C, 0x72, 0xAA].length ≤ 2051) := by decide +kernel

/-- An uncorrectable protected field with GFAIL_RESYNC = 1 and no chain in progress, and the same field with GFAIL_RESYNC = 0; `s1` and
`s2` are defined by the equations of the statement. -/
theorem witness_ProtectedFieldDecidesTheFrame :
    gfail.tables = .built ∧ gfail.ctrl.getLsbD 3 = true ∧ gfail.ctxHl.active = false ∧ gfail.ctxLl.active = false ∧
    gdec gfail.cfg.gP (codewordAt [0x40, 0x00, 0x00, 0x0F, 0xAA] 1) = (0xFFF, 4) ∧
    State.reset.tables = .built ∧ State.reset.ctrl.getLsbD 3 = false ∧
    gdec State.reset.cfg.gP (codewordAt [0x40, 0x00, 0x00, 0x0F, 0xAA] 1) = (0xFFF, 4) ∧
    (5 ≤ [0x40#8, 0x00, 0x00, 0x0F, 0xAA].length ∧ [0x40#8, 0x00, 0x00, 0x0F, 0xAA].length ≤ 2051) := by decide +kernel

theorem witness_ResyncDropsRemainderAndChains : State.reset.recOutEn = false ∧ chains.recOutEn = true := by decide

theorem witness_SentPtdpUnpacks :
    golayValid State.reset.cfg.gP = true ∧ sent.ok = true ∧ 0 < (sent.wire State.reset.cfg.gP).length ∧
    7 < (sent.wire State.reset.cfg.gP).length := ⟨golayValid_default, by decide, by decide +kernel, by decide +kernel⟩

/-- The header codewords of vector Vg, a length of 2049; an uncorrectable header with GFAIL_RESYNC = 1; five bytes, no header. -/
theorem witness_FailedPtdpResyncs :
    (∃ s1, State.reset.unpack [0x10, 0xC8, 0x72, 0x08, 0x01, 0xED] = (.len 2049, s1)) ∧
    (∃ s1, gfail.unpack [0x20, 0xCC, 0x1C, 0x00, 0x00, 0x0F] = (.gfail, s1)) ∧
    (∃ s1, State.reset.unpack ((zeros 6).drop 1) = (.inc, s1)) := by
  refine ⟨⟨_, Prod.ext ?_ rfl⟩, ⟨_, Prod.ext ?_ rfl⟩, ⟨_, rfl⟩⟩ <;> decide +kernel

/-- The headers of vectors Vg and Vh: uncorrectable with GFAIL_RESYNC = 1; lengths 2049 and 2048 (its payload missing); a header
of zeros, a whole PTDP; five bytes, no header. -/
theorem witness_UnpackFollowsTheRule :
    (zeros 5).length < 6 ∧ 6 ≤ (zeros 6).length ∧
    gdec gfail.cfg.gP 0x00000F = (0xFFF, 4) ∧ gfail.ctrl.getLsbD 3 = true ∧
    (gdec State.reset.cfg.gP 0x10C872 = (0x10C, 0) ∧ gdec State.reset.cfg.gP 0x0801ED = (0x080, 0) ∧
      2048 < (((0x080#12).setWidth 16 <<< 4) ||| ((0x10C#12).extractLsb' 8 4).setWidth 16).toNat) ∧
    (gdec State.reset.cfg.gP 0x00CBA8 = (0x00C, 0) ∧
      (((0x080#12).setWidth 16 <<< 4) ||| ((0x00C#12).extractLsb' 8 4).setWidth 16).toNat = 2048) ∧
    gdec State.reset.cfg.gP 0 = (0, 0) ∧ Fragment.complete.code = (0#12).extractLsb' 6 2 := by decide +kernel

/-- A frame that ends with an LLP PTDP, and one that ends with its 0xFF marker. -/
theorem witness_LlpAtTheEndOfTheFrameWaits :
    golayValid State.reset.cfg.gP = true ∧ State.reset.tables = .built ∧ State.reset.recOutEn = false ∧
    State.reset.ptdpOutEn = true ∧ clean.ok = true ∧ clean.err1 = 0 ∧ clean.err2 = 0 ∧
    (0x40#8 :: (bytesOfCodeword (encT State.reset.cfg.gP (1#1 ++ 0x7FF#11)) ++ clean.wire State.reset.cfg.gP)).length = 12 ∧
    (0x40#8 :: (bytesOfCodeword (encT State.reset.cfg.gP (1#1 ++ 0x7FF#11)) ++ clean.wire State.reset.cfg.gP ++ [0xFF])).length
      = 13 :=
  ⟨golayValid_default, rfl, by decide, by decide, by decide, rfl, rfl, by decide +kernel, by decide +kernel⟩

theorem witness_MarkerDecidesTheLlpRun :
    golayValid State.reset.cfg.gP = true ∧ sent.ok = true ∧ (0xFF#8 = 0xFF ∧ ([] : List Byte) = []) ∧ [0x00#8] ≠ [] ∧
    0x00#8 ≠ 0xFF ∧ 0x5A#8 ≠ 0xFF := ⟨golayValid_default, by decide, by decide, by decide, by decide, by decide⟩

/-- Fewer than six bytes; a whole header that says 2048, its payload missing (vector Vg); and a PTDP of no payload, whole. -/
theorem witness_HlLoopFollowsTheRule :
    (0 < (zeros 5).length ∧ (zeros 5).length < 6) ∧
    (decodeHeader State.reset.cfg.gP [0x00, 0xCB, 0xA8, 0x08, 0x01, 0xED]).1.length.toNat = 2048 ∧
    State.reset.ctrl.getLsbD 3 = false ∧
    (State.reset.unpack (zeros 6)).1 = .ok ⟨.complete, 0, 0, 0⟩ [] := by decide +kernel

theorem witness_OffsetCheckOnlyReports :
    (∃ t0, exec (.frame 0 (zeros 5)) (State.reset.withOffchk false) = .next t0) ∧
    ∃ t1, exec (.frame 0 (zeros 5)) (State.reset.withOffchk true) = .next t1 := ⟨⟨_, rfl⟩, ⟨_, rfl⟩⟩

/-- One frame of 21 bytes: an LLP PTDP with its marker, then an HL PTDP that fills the rest. -/
theorem witness_ProducerStreamRoundTrips :
    golayValid State.reset.cfg.gP = true ∧ State.reset.tables = .built ∧ State.reset.ptdpOutEn = true ∧
    State.reset.recOutEn = false ∧ State.reset.remKind = .none ∧ State.reset.rem = [] ∧ State.reset.llpPending = false ∧
    [sent].all SentPtdp.ok = true ∧ [FramePlan.mk 0x40 [clean] 0x800001].all (FramePlan.ok State.reset.cfg.gP (21 - 4)) = true ∧
    (hlStream State.reset.cfg.gP [sent]).length = streamRoom State.reset.cfg.gP (21 - 4) [⟨0x40, [clean], 0x800001⟩] ∧
    ∀ pl ∈ [FramePlan.mk 0x40 [clean] 0x800001].head?, 0 < pl.room State.reset.cfg.gP (21 - 4) :=
  ⟨golayValid_default, rfl, by decide, by decide, rfl, rfl, rfl, by decide, by decide +kernel, by decide +kernel, by decide +kernel⟩

theorem witness_UnpackedPtdpIsCountedAndReported : ∃ s1 : State, s1 = { State.reset with
    counters := { State.reset.counters with ptdps := State.reset.counters.ptdps + 1 }
    rspOut := State.reset.rspOut ++ (if State.reset.ctrl.getLsbD 0 then 0x900C0000 :: packBytes [] else []) } := ⟨_, rfl⟩

theorem witness_InitialBufferIsTheTable :
    State.reset.remKind ≠ .bytes ∧ (0 < (1#11).toNat ∧ (1#11).toNat < 0x7FF) ∧ (0 < (0x7FE#11).toNat ∧ (0x7FE#11).toNat < 0x7FF) ∧
    ((0#11) = 0 ∨ (0#11) = 0x7FF) ∧ ((0x7FF#11) = 0 ∨ (0x7FF#11) = 0x7FF) ∧
    ({ State.reset with remKind := .bytes, rem := [0xAA], parseState := .waitMore } : State).remKind = .bytes := by decide

theorem witness_BufferAfterLlpRunIsTheTable :
    State.reset.remKind = .none ∧ (0 < (0x7FE#11).toNat ∧ (0x7FE#11).toNat < 0x7FF) ∧
    ({ State.reset with remKind := .bytes, rem := [0xAA], parseState := .waitMore } : State).remKind = .bytes ∧
    ({ State.reset with remKind := .empty } : State).remKind = .empty ∧
    (State.reset.remKind = .none ∧ ((0x7FF#11) = 0 ∨ (0x7FF#11) = 0x7FF)) := by decide

/-- Four bytes are the longest record of this block; five are too many. -/
theorem witness_CompleteIsARecord :
    (5 : BitVec 4) ≠ shortRecords.fillCode ∧ (zeros 4).length ≤ shortRecords.cfg.maxRecordBytes ∧
    shortRecords.cfg.maxRecordBytes < (zeros 5).length := by decide

theorem witness_FirstAndMiddleBuildAChain :
    (5 : BitVec 4) ≠ shortRecords.fillCode ∧ (zeros 4).length ≤ shortRecords.cfg.maxRecordBytes ∧
    shortRecords.cfg.maxRecordBytes < (zeros 5).length ∧ (shortRecords.ctx .ll).active = false ∧
    (shortRecords.ctx .hl).active = true ∧
    (shortRecords.ctx .hl).buf.length + (zeros 2).length ≤ shortRecords.cfg.maxRecordBytes ∧
    shortRecords.cfg.maxRecordBytes < (shortRecords.ctx .hl).buf.length + (zeros 3).length := by decide

theorem witness_LastEmitsTheRecord :
    (5 : BitVec 4) ≠ shortRecords.fillCode ∧ (shortRecords.ctx .ll).active = false ∧ (shortRecords.ctx .hl).active = true ∧
    (shortRecords.ctx .hl).buf.length + (zeros 2).length ≤ shortRecords.cfg.maxRecordBytes ∧
    shortRecords.cfg.maxRecordBytes < (shortRecords.ctx .hl).buf.length + (zeros 3).length := by decide

theorem witness_FragmenterCutsAsTheRuleSays : (zeros 2048).length ≤ 2048 ∧ 2048 < (zeros 2049).length := by decide +kernel

theorem witness_FragmentedRecordReassembles :
    (5 : BitVec 4) ≠ State.reset.fillCode ∧ (zeros 2049).length ≤ State.reset.cfg.maxRecordBytes ∧
    (State.reset.ctx .hl).active = false ∧ (State.reset.ctx .hl).buf = [] :=
  by decide +kernel

end Sys2Proof.Tests
end

