-- ==== Sys2Proof/Proofs/Scope.lean ====
section
/-! PROOFS. The one fault the model has, and why no command word sequence reaches it (00_scope R15, 60_exceptions R337). -/

namespace Sys2Proof

/-! ## Decoded commands carry the frame length in effect (R114, R115) -/

/-- Exactly the trailing words of an opcode hold all the frame bytes its command takes. -/
theorem commandOf_fits {len : Nat} {o : Opcode} {arg : BitVec 24} {trail : List Word}
    (h : trail.length = trailingWords len o) : (commandOf len o arg trail).fits len := by
  cases o with
  | frame =>
    have hlen : trail.length = (len + 3) / 4 := h
    simp only [commandOf, Instr.fits, List.length_take, length_unpackBytes]
    omega
  | nop | genc | gdec | gerr | srst | csrr | csrw => trivial

theorem decode_fits {len : Nat} {ws rest : List Word} {i : Instr} (h : decode len ws = .command i rest) :
    i.fits len := by
  unfold decode at h
  split at h
  · cases h
  · split at h
    · cases h
    · split at h
      · cases h
      · next harrived =>
        obtain ⟨rfl, -⟩ := Decoded.command.inj h
        exact commandOf_fits (List.length_take_of_le (Nat.le_of_not_lt harrived))

theorem lengthLegal_of_fits {len : Nat} {i : Instr} (hmin : ptfrLenMin ≤ len) (hmax : len ≤ ptfrLenMax)
    (h : i.fits len) : i.lengthLegal = true := by
  cases i with
  | frame rsv f =>
    obtain rfl : f.length = len := h
    simp [Instr.lengthLegal, hmin, hmax]
  | nop | genc | gdec | gerr | srst | csrr | csrw => rfl

/-! ## What `exec` can answer -/

namespace Machine

/-- The outcome is a next state, or the fault that `i` has no legal frame length (notes/assumptions/16). -/
def NextOrIllFormed (i : Instr) (out : Host.Outcome State Fault Refusal) : Prop :=
  (∃ t, out = .next t) ∨ (i.lengthLegal = false ∧ out = .fault .illFormedFrame)

section Closure

variable {i : Instr} {s : State} {out : Host.Outcome State Fault Refusal}

theorem NextOrIllFormed.next (t : State) : NextOrIllFormed i (.next t) := .inl ⟨t, rfl⟩

/-- The hold answers a next state (70_reset_and_hazards R372). -/
theorem NextOrIllFormed.whenReady (h : NextOrIllFormed i out) : NextOrIllFormed i (s.whenReady out) := by
  cases hs : s.tables with
  | built => rwa [whenReady_built s hs]
  | building n => rw [whenReady_building s hs]; exact .next s

/-- The rejection of reserved bits answers a next state (30_encoding R116). -/
theorem NextOrIllFormed.whenReservedZero {o : Opcode} {zero : Bool} (h : NextOrIllFormed i out) :
    NextOrIllFormed i (s.whenReservedZero o zero out) := by
  cases zero with
  | true => exact h
  | false => exact .next (s.rejectReserved o)

end Closure

theorem execFrame_nextOrIllFormed (rsv : BitVec 24) (f : List Byte) (s : State) :
    NextOrIllFormed (.frame rsv f) (execFrame rsv f s) := by
  refine .whenReady (.whenReservedZero ?_)
  split
  · exact .next _
  · next hlen => exact .inr ⟨Bool.eq_false_of_not_eq_true hlen, rfl⟩

theorem exec_nextOrIllFormed (i : Instr) (s : State) : NextOrIllFormed i (exec i s) := by
  cases i with
  | frame rsv f => exact execFrame_nextOrIllFormed rsv f s
  | genc => exact .whenReady (.whenReservedZero (.next _))
  | gdec | gerr => exact .whenReady (.next _)
  | nop | srst | csrr | csrw => exact .whenReservedZero (.next _)

/-- Settles O38: `exec` answers a next state or the ill-formed FRAME's fault, and a decoded command carries `len` frame bytes. -/
theorem onlyIllFormedFramesFault : Obligations.OnlyIllFormedFramesFault := by
  refine ⟨fun s i r hfault => ?_, fun s i r hrefused => ?_, fun len ws rest i hmin hmax hdec => ?_⟩
  · obtain ⟨t, hnext⟩ | ⟨hlen, hill⟩ := exec_nextOrIllFormed i s
    · cases hfault.symm.trans hnext
    · cases hfault.symm.trans hill
      exact ⟨hlen, rfl⟩
  · obtain ⟨t, hnext⟩ | ⟨-, hill⟩ := exec_nextOrIllFormed i s
    · cases hrefused.symm.trans hnext
    · cases hrefused.symm.trans hill
  · exact lengthLegal_of_fits hmin hmax (decode_fits hdec)

end Machine

end Sys2Proof
end

