-- ==== Sys2Proof/Proofs/Commands.lean ====
section
/-! PROOFS. What one command and one step can do, said once: every next state of `exec` and of `step` is one of the cases here
(30_encoding R114, R116, R117; 70_reset_and_hazards R372). -/

-- Proofs are elaborated one after another: in parallel, they and the tests' kernel checks exceed the check's memory limit.
set_option deprecated.oldSectionVars true

namespace Sys2Proof.Machine

/-- A next state under the hold: the command is held or runs (R372). -/
theorem whenReady_next {s t : State} {run : Host.Outcome State Fault Refusal} (h : s.whenReady run = .next t) :
    t = s ∨ run = .next t := by
  cases hs : s.tables with
  | built => rw [whenReady_built s hs] at h; exact .inr h
  | building n =>
    rw [whenReady_building s hs] at h
    exact .inl (Host.Outcome.next.inj h).symm

/-- A next state under the check of the reserved bits: the command is rejected or runs (R116). -/
theorem whenReservedZero_next {s t : State} {o : Opcode} {zero : Bool} {run : Host.Outcome State Fault Refusal}
    (h : s.whenReservedZero o zero run = .next t) :
    (zero = false ∧ t = s.rejectReserved o) ∨ (zero = true ∧ run = .next t) := by
  cases zero with
  | true => exact .inr ⟨rfl, h⟩
  | false => exact .inl ⟨rfl, (Host.Outcome.next.inj h).symm⟩

/-- The state after a command that runs, neither held nor rejected (40_golay R162 to R164, 41_ptfr_parser R212, 43_control R300 to
R303). -/
def afterCommand (s : State) : Instr → State
  | .nop _ => s.retire
  | .genc _ m => s.retire.emit (gencRsp (encT s.cfg.gP m))
  | .gdec r => s.retire.emit (gdecRsp (gdec s.cfg.gP r).2 (gdec s.cfg.gP r).1)
  | .gerr r => s.retire.emit (gerrRsp (gdec s.cfg.gP r).2)
  | .frame _ f => s.retire.parseFrame f
  | .srst _ => s.retire.softReset
  | .csrr _ a => s.retire.csrRead a
  | .csrw _ a v => s.retire.csrWriteAt a v

/-- `CommandEffect s i t`: `t` is what executing `i` in `s` can answer. The command is held, is rejected, or runs. -/
def CommandEffect (s : State) (i : Instr) (t : State) : Prop :=
  (held i.opcode = true ∧ t = s) ∨ (i.reservedZero = false ∧ t = s.rejectReserved i.opcode) ∨
    (i.reservedZero = true ∧ t = afterCommand s i)

section Effect

variable {s t : State} {i : Instr} {run : Host.Outcome State Fault Refusal}

theorem CommandEffect.of_whenReady (hi : held i.opcode = true) (h : s.whenReady run = .next t)
    (hrun : run = .next t → CommandEffect s i t) : CommandEffect s i t := by
  obtain rfl | hr := whenReady_next h
  · exact .inl ⟨hi, rfl⟩
  · exact hrun hr

theorem CommandEffect.of_whenReservedZero (h : s.whenReservedZero i.opcode i.reservedZero run = .next t)
    (hrun : run = .next t → t = afterCommand s i) : CommandEffect s i t := by
  obtain ⟨hz, rfl⟩ | ⟨hz, hr⟩ := whenReservedZero_next h
  · exact .inr (.inl ⟨hz, rfl⟩)
  · exact .inr (.inr ⟨hz, hrun hr⟩)

/-- Every next state of `exec` is one of the effects. -/
theorem exec_effect (h : exec i s = .next t) : CommandEffect s i t := by
  have hnext {u : State} (hr : (.next u : Host.Outcome State Fault Refusal) = .next t) : t = u :=
    (Host.Outcome.next.inj hr).symm
  cases i with
  | nop | srst | csrr | csrw => exact .of_whenReservedZero h hnext
  | genc => exact .of_whenReady rfl h fun h => .of_whenReservedZero h hnext
  | gdec | gerr => exact .of_whenReady rfl h fun hr => .inr (.inr ⟨rfl, hnext hr⟩)
  | frame rsv f =>
    refine .of_whenReady rfl h fun h => .of_whenReservedZero h fun hr => ?_
    split at hr
    · exact hnext hr
    · cases hr

end Effect

/-- A step waits, rejects an illegal head word, or executes a command (R65, R117). -/
theorem step_next {s t : State} (h : step s = .next t) :
    t = s.poll ∨ (∃ op, t = s.poll.rejectIllegal op) ∨ ∃ i, CommandEffect s.poll i t := by
  rw [step_eq] at h
  cases hd : decode s.poll.ptfrLen.toNat s.poll.cmdPart with
  | incomplete => rw [hd] at h; cases h; exact .inl rfl
  | illegal op rest => rw [hd] at h; cases h; exact .inr (.inl ⟨op, rfl⟩)
  | command i rest => rw [hd] at h; exact .inr (.inr ⟨i, exec_effect h⟩)

end Sys2Proof.Machine
end

