-- ==== Sys2Proof/Proofs/FrameRun.lean ====
section
/-! PROOFS. What the work on a frame's bytes can do, said once: `FrameRun s t` holds where a sequence of the parser's and the
reassembler's single actions leads from `s` to `t`, and `parseFrame` is such a sequence (41_ptfr_parser R212, 42_reassembly R270).
A claim about FRAME follows by induction over the actions, with no look at the loops. -/

-- Proofs are elaborated one after another: in parallel, they and the tests' kernel checks exceed the check's memory limit.
set_option deprecated.oldSectionVars true

namespace Sys2Proof.Machine

/-! ## The single actions -/

/-- The responses of a FRAME (30_encoding R123 to R126), with records of at most `max` bytes. -/
def FrameResponse (max : Nat) (ws : List Word) : Prop :=
  (∃ f0 llp e0 off, ws = [ptfrHdr f0 llp e0 off]) ∨
  (∃ τ h data, data.length = h.length.toNat ∧ ws = ptdpRsp τ h data) ∨
  (∃ τ content bytes, bytes.length ≤ max ∧ ws = recordRsp τ content bytes) ∨
  (∃ p k llp n, ws = [frameDoneRsp p k llp n])

/-- One action of the parser or the reassembler: raise a frame event (bit 8 or above, 60_exceptions R331), count, respond, set a
context, set `llp_pending`, end the buffer in one of R216's two ways, lose synchronisation (R218). -/
def FrameAct (max : Nat) (s t : State) : Prop :=
  (∃ e info, 8 ≤ e.bit ∧ t = s.raise e info) ∨
  (∃ k, t = { s with counters := k }) ∨
  (∃ ws, FrameResponse max ws ∧ t = s.emitAll ws) ∨
  (∃ τ c, c.legal max = true ∧ t = s.setCtx τ c) ∨
  (∃ b, t = { s with llpPending := b }) ∨
  t = s.consumed ∨
  (∃ b, b ≠ [] ∧ b.length ≤ remCap ∧ t = s.keepRemainder b) ∨
  t = { s with remKind := .empty, rem := [], parseState := .resync, llpPending := false }

theorem FrameAct.cfg_eq {max : Nat} {s t : State} (hact : FrameAct max s t) : t.cfg = s.cfg := by
  obtain ⟨e, info, -, rfl⟩ | ⟨k, rfl⟩ | ⟨ws, -, rfl⟩ | ⟨τ, c, -, rfl⟩ | ⟨b, rfl⟩ | rfl | ⟨b, -, -, rfl⟩ | rfl := hact
  · exact raise_cfg s e info
  · rfl
  · rfl
  · exact setCtx_cfg s τ c
  all_goals rfl

theorem Context.legal_iff {max : Nat} {c : Context} :
    c.legal max = true ↔ c.buf.length ≤ max ∧ (c.active = true ∨ c.buf = []) := by
  rw [Context.legal, Bool.and_eq_true, decide_eq_true_iff, Bool.or_eq_true, List.isEmpty_iff]

/-- `t` comes from `s` by actions of the parser and the reassembler. -/
def FrameRun (s : State) : State → Prop := Relation.ReflTransGen (FrameAct s.cfg.maxRecordBytes) s

namespace FrameRun

variable {s t : State}

theorem start (s : State) : FrameRun s s := .refl

theorem raise (h : FrameRun s t) (e : Event) (info : BitVec 16) (he : 8 ≤ e.bit) : FrameRun s (t.raise e info) :=
  h.tail (.inl ⟨e, info, he, rfl⟩)

theorem count (h : FrameRun s t) (k : Counters) : FrameRun s { t with counters := k } :=
  h.tail (.inr (.inl ⟨k, rfl⟩))

theorem respond {ws : List Word} (h : FrameRun s t) (hws : FrameResponse s.cfg.maxRecordBytes ws) :
    FrameRun s (t.emitAll ws) :=
  h.tail (.inr (.inr (.inl ⟨ws, hws, rfl⟩)))

theorem setCtx {c : Context} (h : FrameRun s t) (τ : Latency) (hlen : c.buf.length ≤ s.cfg.maxRecordBytes)
    (hidle : c.active = true ∨ c.buf = []) : FrameRun s (t.setCtx τ c) :=
  h.tail (.inr (.inr (.inr (.inl ⟨τ, c, Context.legal_iff.mpr ⟨hlen, hidle⟩, rfl⟩))))

theorem pendLlp (h : FrameRun s t) (b : Bool) : FrameRun s { t with llpPending := b } :=
  h.tail (.inr (.inr (.inr (.inr (.inl ⟨b, rfl⟩)))))

theorem consumed (h : FrameRun s t) : FrameRun s t.consumed :=
  h.tail (.inr (.inr (.inr (.inr (.inr (.inl rfl))))))

theorem keepRemainder {b : List Byte} (h : FrameRun s t) (hne : b ≠ []) (hcap : b.length ≤ remCap) :
    FrameRun s (t.keepRemainder b) :=
  h.tail (.inr (.inr (.inr (.inr (.inr (.inr (.inl ⟨b, hne, hcap, rfl⟩)))))))

theorem loseSync (h : FrameRun s t) :
    FrameRun s { t with remKind := .empty, rem := [], parseState := .resync, llpPending := false } :=
  h.tail (.inr (.inr (.inr (.inr (.inr (.inr (.inr rfl)))))))

theorem cfg_eq (h : FrameRun s t) : t.cfg = s.cfg := by
  induction h with
  | refl => rfl
  | tail _ hact ih => exact hact.cfg_eq.trans ih

/-- Each operation of the parser branches on its state: both branches are runs. -/
theorem branch {c : Prop} [Decidable c] {t u : State} (ht : c → FrameRun s t) (hu : ¬c → FrameRun s u) :
    FrameRun s (if c then t else u) :=
  iteInduction (motive := FrameRun s) ht hu

theorem countGolay (h : FrameRun s t) (e : BitVec 3) (field : BitVec 16) : FrameRun s (t.countGolay e field) :=
  branch (fun _ => (h.count _).raise .golayUncorrectable field (by decide)) fun _ => h.count _

/-! ## Reassembly (42_reassembly R270 to R278) -/

theorem dropChain (h : FrameRun s t) (τ : Latency) : FrameRun s (t.dropChain τ) :=
  h.setCtx τ (Nat.zero_le _) (.inr rfl)

theorem abandon (h : FrameRun s t) (τ : Latency) : FrameRun s (t.abandon τ) :=
  branch (fun _ => (h.raise .fragAbandoned _ (by decide)).dropChain τ) fun _ => h

theorem raiseOverflow (h : FrameRun s t) (τ : Latency) : FrameRun s (t.raiseOverflow τ) :=
  h.raise .recordOverflow _ (by decide)

theorem raiseOrphan (h : FrameRun s t) (τ : Latency) (fr : Fragment) :
    FrameRun s (t.raise .fragOrphan (orphanInfo τ fr)) :=
  h.raise .fragOrphan _ (by decide)

theorem record {bytes : List Byte} (h : FrameRun s t) (τ : Latency) (content : BitVec 4)
    (hlen : bytes.length ≤ s.cfg.maxRecordBytes) : FrameRun s (t.record τ content bytes) :=
  (h.count _).respond (.inr (.inr (.inl ⟨τ, content, bytes, hlen, rfl⟩)))

/-- What is not above the configured maximum is not above that of the start. -/
theorem le_max (h : FrameRun s t) {n : Nat} (hn : ¬t.cfg.maxRecordBytes < n) : n ≤ s.cfg.maxRecordBytes :=
  h.cfg_eq ▸ Nat.le_of_not_lt hn

theorem takeComplete (h : FrameRun s t) (τ : Latency) (content : BitVec 4) (data : List Byte) :
    FrameRun s (t.takeComplete τ content data) :=
  branch (fun _ => (h.abandon τ).raiseOverflow τ) fun hlen => (h.abandon τ).record τ content (h.le_max hlen)

theorem takeFirst (h : FrameRun s t) (τ : Latency) (content : BitVec 4) (data : List Byte) :
    FrameRun s (t.takeFirst τ content data) :=
  branch (fun _ => (h.abandon τ).raiseOverflow τ) fun hlen => (h.abandon τ).setCtx τ (h.le_max hlen) (.inl rfl)

/-- A chain and the payload that extends it. -/
theorem length_append_le_max (h : FrameRun s t) {a b : List Byte} (hn : ¬t.cfg.maxRecordBytes < a.length + b.length) :
    (a ++ b).length ≤ s.cfg.maxRecordBytes :=
  List.length_append ▸ h.le_max hn

theorem takeMiddle (h : FrameRun s t) (τ : Latency) (data : List Byte) : FrameRun s (t.takeMiddle τ data) :=
  branch
    (fun hactive => branch (fun _ => (h.raiseOverflow τ).dropChain τ) fun hlen =>
      h.setCtx τ (h.length_append_le_max hlen) (.inl hactive))
    fun _ => h.raiseOrphan τ .middle

theorem takeLast (h : FrameRun s t) (τ : Latency) (data : List Byte) : FrameRun s (t.takeLast τ data) :=
  branch
    (fun _ => branch (fun _ => (h.raiseOverflow τ).dropChain τ) fun hlen =>
      (h.record τ _ (h.length_append_le_max hlen)).dropChain τ)
    fun _ => h.raiseOrphan τ .last

theorem raTake (h : FrameRun s t) (τ : Latency) (fr : Fragment) (content : BitVec 4) (data : List Byte) :
    FrameRun s (t.raTake τ fr content data) :=
  branch (fun _ => h) fun _ =>
    match fr with
    | .complete => h.takeComplete τ content data
    | .first => h.takeFirst τ content data
    | .middle => h.takeMiddle τ data
    | .last => h.takeLast τ data

/-! ## Unpacking and RESYNC (41_ptfr_parser R209 to R211, R218) -/

/-- A PTDP reported with the payload its header announces. -/
theorem emitPtdp {hdr : PtdpHeader} {data : List Byte} (h : FrameRun s t) (τ : Latency)
    (hlen : data.length = hdr.length.toNat) : FrameRun s (t.emitPtdp τ hdr data) :=
  have hreported : FrameRun s (if t.countPtdp.ptdpOutEn then t.countPtdp.emitAll (ptdpRsp τ hdr data) else t.countPtdp) :=
    branch (fun _ => (h.count _).respond (.inr (.inl ⟨τ, hdr, data, hlen, rfl⟩))) fun _ => h.count _
  branch (fun _ => hreported.raTake τ hdr.fragment hdr.content data) fun _ => hreported

theorem resync (h : FrameRun s t) : FrameRun s t.resync :=
  branch (fun _ => (h.loseSync.abandon .hl).abandon .ll) fun _ => h.loseSync

theorem lengthError (h : FrameRun s t) (n : BitVec 16) : FrameRun s (t.lengthError n) :=
  ((h.count _).raise .ptdpLengthError n (by decide)).resync

theorem countHeader (h : FrameRun s t) (b : List Byte) : FrameRun s (countHeader t b) :=
  (h.countGolay _ 1).countGolay _ 2

theorem unpack {t' : State} {b : List Byte} {u : Unpacked} (h : FrameRun s t) (hu : t.unpack b = (u, t')) :
    FrameRun s t' := by
  cases u with
  | ok hdr data => obtain ⟨-, -, -, -, rfl⟩ := unpack_ok hu; exact h.countHeader b
  | inc => obtain ⟨rfl, -⟩ := unpack_inc hu; exact h
  | len n => obtain ⟨-, rfl⟩ := unpack_len hu; exact h.countHeader b
  | gfail => obtain ⟨-, rfl⟩ := unpack_gfail hu; exact h.countHeader b

end FrameRun

/-- The payload of an unpacked PTDP has the length its header announces (R205, R209). -/
theorem unpack_ok_length {s s1 : State} {b : List Byte} {h : PtdpHeader} {data : List Byte}
    (hu : s.unpack b = (.ok h data, s1)) : data.length = h.length.toNat := by
  obtain ⟨-, hsize, -, rfl, -⟩ := unpack_ok hu
  have hsize' : ptdpHdrBytes + h.length.toNat ≤ b.length := hsize
  rw [slice, List.length_drop, List.length_take, Nat.min_eq_left hsize', Nat.add_sub_cancel_left]

/-- The state an LLP run ends in. -/
def LlpEnd.state : LlpEnd → State
  | .done s => s
  | .hl _ s => s

namespace FrameRun

variable {s t : State}

/-! ## The LLP run (R214) -/

theorem checkLlpOffset (h : FrameRun s t) (off : BitVec 11) (c : Nat) : FrameRun s (t.checkLlpOffset off c) :=
  branch (fun _ => h.raise .offsetMismatch _ (by decide)) fun _ => h

theorem llpRun_state (p : List Byte) (off : BitVec 11) (fuel : Nat) :
    ∀ {c : Nat} {t : State}, FrameRun s t → FrameRun s (llpRun p off fuel c t).state := by
  induction fuel with
  | zero => intro c t h; exact h
  | succ fuel ih =>
    intro c t h
    rw [llpRun]
    split
    · next n t1 hu => exact (h.unpack hu).lengthError n
    · next t1 hu => exact (h.unpack hu).resync
    · next t1 hu => exact ((h.unpack hu).raise .llpIncomplete _ (by decide)).resync
    · next hdr data t1 hu =>
      have h2 := (h.unpack hu).emitPtdp .ll (unpack_ok_length hu)
      extract_lets t2 m
      split
      · exact (h2.raise .missingLlpMarker 0 (by decide)).pendLlp true
      · split
        · split
          · exact h2.pendLlp true
          · exact ih h2
        · split
          · exact h2.checkLlpOffset off _
          · exact (h2.raise .badLlpMarker _ (by decide)).checkLlpOffset off _

/-! ## The HL buffer and the HL loop (R213, R215 to R217) -/

theorem positioned (h : FrameRun s t) (p : List Byte) (off : BitVec 11) : FrameRun s (t.positioned p off).2 :=
  branch (fun _ => h.raise .offsetOutOfRange _ (by decide)) fun _ => h

theorem positionedIf (h : FrameRun s t) (p : List Byte) (off : BitVec 11) (b : Bool) (buf : HlBuffer) :
    FrameRun s (if b then t.positioned p off else (buf, t)).2 := by
  cases b with
  | true => exact h.positioned p off
  | false => exact h

theorem initialBuffer (h : FrameRun s t) (p : List Byte) (off : BitVec 11) : FrameRun s (t.initialBuffer p off).2 := by
  rw [State.initialBuffer]
  cases t.remKind with
  | none | empty => exact h.positionedIf p off _ _
  | bytes => exact h

theorem hlAfterLlp (h : FrameRun s t) (p : List Byte) (off : BitVec 11) (c : Nat) :
    FrameRun s (t.hlAfterLlp p off c).2 := by
  rw [State.hlAfterLlp]
  cases t.remKind with
  | none => exact h.positionedIf p off _ _
  | empty | bytes => exact h

theorem offsetProbe (h : FrameRun s t) (n : Nat) (off : BitVec 11) (check : Bool) (pos : Int) :
    FrameRun s (t.offsetProbe n off check pos) :=
  branch (fun _ => h.raise .offsetMismatch _ (by decide)) fun _ => h

theorem offsetFinal (h : FrameRun s t) (off : BitVec 11) (check : Bool) : FrameRun s (t.offsetFinal off check) :=
  branch (fun _ => h.raise .offsetMismatch _ (by decide)) fun _ => h

theorem hlLoop (n : Nat) (off : BitVec 11) (fuel : Nat) :
    ∀ {b : List Byte} {pos : Int} {check : Bool} {t : State},
      FrameRun s t → FrameRun s (hlLoop n off fuel b pos check t) := by
  induction fuel with
  | zero => intro b pos check t h; exact h
  | succ fuel ih =>
    intro b pos check t h
    have h0 := h.offsetProbe n off check pos
    refine branch (fun _ => (h0.offsetFinal off _).consumed) fun hne => ?_
    split
    · next t1 hu =>
      have hkept := (h0.unpack hu).keepRemainder hne (unpack_inc hu).2
      exact (hkept.offsetFinal off _).raise .ptdpIncomplete _ (by decide)
    · next m t1 hu => exact (h0.unpack hu).lengthError m
    · next t1 hu => exact (h0.unpack hu).resync
    · next hdr data t1 hu => exact ih ((h0.unpack hu).emitPtdp .hl (unpack_ok_length hu))

/-! ## FRAME (R212) -/

theorem runHl (h : FrameRun s t) (n : Nat) (off : BitVec 11) (b : HlBuffer) : FrameRun s (t.runHl n off b) :=
  hlLoop n off _ h

theorem parsePayload (h : FrameRun s t) (p : List Byte) (llp : Bool) (off : BitVec 11) :
    FrameRun s (t.parsePayload p llp off) := by
  refine branch (fun _ => ?_) fun _ => (h.initialBuffer p off).runHl _ _ _
  have hrun : FrameRun s (llpRun p off (p.length + 1) 0 t).state := llpRun_state p off _ h
  cases hend : llpRun p off (p.length + 1) 0 t with
  | done t1 => rwa [hend] at hrun
  | hl c t1 =>
    rw [hend] at hrun
    exact (hrun.hlAfterLlp p off c).runHl _ _ _

theorem enterPayload (h : FrameRun s t) (llp : Bool) : FrameRun s (t.enterPayload llp) :=
  pendLlp (branch (fun _ => h.raise .llpStateMismatch 0 (by decide)) fun _ => h) false

theorem frameDone (h : FrameRun s t) : FrameRun s t.frameDone :=
  h.respond (.inr (.inr (.inr ⟨_, _, _, _, rfl⟩)))

theorem parseDecoded (h : FrameRun s t) (f : List Byte) (w0 : BitVec 12) (e0 : BitVec 3) :
    FrameRun s (t.parseDecoded f w0 e0) :=
  have h1 := ((h.count _).respond (.inl ⟨byteAt f 0, llpOf w0, e0, offOf w0, rfl⟩)).countGolay e0 0
  branch (fun _ => h1.resync.frameDone) fun _ => ((h1.enterPayload _).parsePayload _ _ _).frameDone

theorem parseFrame (h : FrameRun s t) (f : List Byte) : FrameRun s (t.parseFrame f) :=
  h.parseDecoded f _ _

end FrameRun

/-! ## What FRAME leaves unchanged -/

theorem or_and_eq_zero {p q m : Word} (hp : p &&& m = 0) (hq : q &&& m = 0) : (p ||| q) &&& m = 0 := by
  rw [BitVec.and_comm] at hp hq ⊢
  rw [BitVec.and_or_distrib_left, hp, hq, BitVec.or_self]

/-- A frame event's bit lies in the frame events' mask (60_exceptions R330, R331). -/
theorem twoPow_bit_frameEvents {e : Event} (he : 8 ≤ e.bit) : BitVec.twoPow 32 e.bit &&& ~~~frameEvents = 0 := by
  revert he
  cases e <;> decide

theorem frameWrites_retire (s : State) : FrameWrites s s.retire :=
  ⟨[], 0#32, _, _, _, _, _, _, _, by rw [List.append_nil, BitVec.or_zero]; rfl, rfl⟩

/-- One more action writes no more than FRAME may write. -/
theorem FrameAct.frameWrites {max : Nat} {s t u : State} (hact : FrameAct max t u) (h : FrameWrites s t) :
    FrameWrites s u := by
  obtain ⟨ws, p, k, rk, rm, ps, lp, hc, lc, rfl, hp⟩ := h
  obtain ⟨e, info, he, rfl⟩ | ⟨k, rfl⟩ | ⟨ws', -, rfl⟩ | ⟨τ, c, -, rfl⟩ | ⟨b, rfl⟩ | rfl | ⟨b, -, -, rfl⟩ | rfl := hact
  · rw [raise_eq, List.append_assoc, BitVec.or_assoc]
    exact ⟨_, _, _, _, _, _, _, _, _, rfl, or_and_eq_zero hp (twoPow_bit_frameEvents he)⟩
  · exact ⟨_, _, _, _, _, _, _, _, _, rfl, hp⟩
  · rw [State.emitAll, List.append_assoc]
    exact ⟨_, _, _, _, _, _, _, _, _, rfl, hp⟩
  · cases τ <;> exact ⟨_, _, _, _, _, _, _, _, _, rfl, hp⟩
  all_goals exact ⟨_, _, _, _, _, _, _, _, _, rfl, hp⟩

/-- Work on a frame, begun with the command's words consumed, writes only what FRAME may write. -/
theorem FrameRun.frameWrites {s t : State} (h : FrameRun s.retire t) : FrameWrites s t := by
  induction h with
  | refl => exact frameWrites_retire s
  | tail _ hact ih => exact hact.frameWrites ih

theorem frameWrites_parseFrame (s : State) (f : List Byte) : FrameWrites s (s.retire.parseFrame f) :=
  ((FrameRun.start _).parseFrame f).frameWrites

end Sys2Proof.Machine
end

