-- ==== Sys2Proof/Proofs/Writes.lean ====
section
/-! PROOFS. Which part of the state a command can write (10_state R33, R41 to R48; 20_memory R80; 42_reassembly R282), with the
settled statement about it. -/

-- Proofs are elaborated one after another: in parallel, they and the tests' kernel checks exceed the check's memory limit.
set_option deprecated.oldSectionVars true

namespace Sys2Proof.Machine

/-- `t` is `s` but for pending events, the words of the command received and the responses: all that a command writes which is held
or rejected, or is NOP, GENC, GDEC, GERR or CSRR. -/
def AnswerWrites (s t : State) : Prop :=
  ∃ p part r, t = { s with evtPending := p, cmdPart := part, rspOut := r }

/-- `t` is `s` but for the CSR file, the words of the command received and the responses: all that CSRW writes. -/
def CsrWrites (s t : State) : Prop :=
  ∃ c l f p e k part r, t = { s with
    ctrl := c, ptfrLen := l, fillCode := f, evtPending := p, evtEnable := e, counters := k, cmdPart := part, rspOut := r }

theorem raise_answerWrites (s : State) (e : Event) (info : BitVec 16) : AnswerWrites s (s.raise e info) :=
  ⟨_, _, _, raise_eq s e info⟩

theorem AnswerWrites.csrWrites {s t : State} (h : AnswerWrites s t) : CsrWrites s t := by
  obtain ⟨p, part, r, rfl⟩ := h
  exact ⟨_, _, _, _, _, _, _, _, rfl⟩

theorem csrRead_answerWrites (s : State) (a : BitVec 8) : AnswerWrites s (s.csrRead a) := by
  rw [State.csrRead]
  cases csrAt a with
  | some c => exact ⟨_, _, _, rfl⟩
  | none =>
    rw [raise_eq]
    exact ⟨_, _, _, rfl⟩

theorem writePtfrLen_csrWrites (s : State) (v : Word) : CsrWrites s (s.writePtfrLen v) := by
  unfold State.writePtfrLen
  split
  · exact ⟨_, _, _, _, _, _, _, _, rfl⟩
  · exact (raise_answerWrites s _ _).csrWrites

theorem csrWrite_csrWrites (s : State) (c : Csr) (v : Word) : CsrWrites s (s.csrWrite c v) := by
  cases c with
  | id | status | cntFrames | cntPtdps | cntRecords | cntCorrBits | cntUncorr | cntLenErr =>
    exact (raise_answerWrites s _ _).csrWrites
  | ptfrLen => exact writePtfrLen_csrWrites s v
  | ctrl | fillCode | evtPending | evtEnable | cntClr => exact ⟨_, _, _, _, _, _, _, _, rfl⟩

theorem csrWriteAt_csrWrites (s : State) (a : BitVec 8) (v : Word) : CsrWrites s (s.csrWriteAt a v) := by
  rw [State.csrWriteAt]
  cases csrAt a with
  | some c => exact csrWrite_csrWrites s c v
  | none => exact (raise_answerWrites s _ _).csrWrites

/-- Writing to a state whose command words are consumed is writing to the state before. -/
theorem AnswerWrites.of_retire {s t : State} (h : AnswerWrites s.retire t) : AnswerWrites s t := by
  obtain ⟨p, part, r, rfl⟩ := h
  exact ⟨_, _, _, rfl⟩

theorem CsrWrites.of_retire {s t : State} (h : CsrWrites s.retire t) : CsrWrites s t := by
  obtain ⟨c, l, f, p, e, k, part, r, rfl⟩ := h
  exact ⟨_, _, _, _, _, _, _, _, rfl⟩

/-- The four kinds of command by what they write. -/
theorem CommandEffect.writes {s t : State} {i : Instr} (h : CommandEffect s i t) :
    AnswerWrites s t ∨ (i.opcode = .frame ∧ FrameWrites s t) ∨ (i.opcode = .srst ∧ t = s.retire.softReset) ∨
      (i.opcode = .csrw ∧ CsrWrites s t) := by
  obtain ⟨-, rfl⟩ | ⟨-, rfl⟩ | ⟨-, rfl⟩ := h
  · exact .inl ⟨_, _, _, rfl⟩
  · exact .inl (raise_answerWrites s.retire _ _).of_retire
  · cases i with
    | nop | genc | gdec | gerr => exact .inl ⟨_, _, _, rfl⟩
    | csrr rsv a => exact .inl (csrRead_answerWrites s.retire a).of_retire
    | frame rsv f => exact .inr (.inl ⟨rfl, frameWrites_parseFrame s f⟩)
    | srst => exact .inr (.inr (.inl ⟨rfl, rfl⟩))
    | csrw rsv a v => exact .inr (.inr (.inr ⟨rfl, (csrWriteAt_csrWrites s.retire a v).of_retire⟩))

/-- Settles O27: each kind of command writes only its own part of the state. -/
theorem commandsLeaveOthersStateAlone : Obligations.CommandsLeaveOthersStateAlone := by
  intro s t i hexec
  obtain ⟨p, part, r, rfl⟩ | ⟨hi, ws, p, k, rk, rm, ps, lp, hc, lc, rfl, -⟩ | ⟨hi, rfl⟩ |
      ⟨hi, c, l, f, p, e, k, part, r, rfl⟩ :=
    (exec_effect hexec).writes
  · exact ⟨rfl, rfl, rfl, fun _ => ⟨rfl, rfl, rfl, rfl, rfl, rfl⟩, fun _ _ => ⟨rfl, rfl, rfl, rfl, rfl, rfl⟩,
      fun _ _ => rfl⟩
  · exact ⟨rfl, rfl, rfl, fun _ => ⟨rfl, rfl, rfl, rfl, rfl, rfl⟩, fun hne => absurd hi hne, fun hne => absurd hi hne⟩
  · exact ⟨rfl, rfl, rfl, fun _ => ⟨rfl, rfl, rfl, rfl, rfl, rfl⟩, fun _ hne => absurd hi hne,
      fun _ _ => rfl⟩
  · exact ⟨rfl, rfl, rfl, fun hne => absurd hi hne, fun _ _ => ⟨rfl, rfl, rfl, rfl, rfl, rfl⟩,
      fun _ hne => absurd hi hne⟩

end Sys2Proof.Machine
end

