-- ==== Sys2Proof/Proofs/Legal.lean ====
section
/-! PROOFS. Every value the block holds stays legal: at reset, through each operation, through a step (10_state R43 to R61,
41_ptfr_parser R219, R220). -/

-- Proofs are elaborated one after another: in parallel, they and the tests' kernel checks exceed the check's memory limit.
set_option deprecated.oldSectionVars true

namespace Sys2Proof.Machine

/-! ## The CSR fields (10_state R43, R45, R46) -/

theorem csrsLegal_iff (s : State) : s.csrsLegal = true ↔
    ptfrLenMin ≤ s.ptfrLen.toNat ∧ s.ptfrLen.toNat ≤ ptfrLenMax ∧
    s.evtPending &&& ~~~evtMask = 0 ∧ s.evtEnable &&& ~~~evtMask = 0 := by
  rw [State.csrsLegal, Bool.and_eq_true, Bool.and_eq_true, Bool.and_eq_true, decide_eq_true_iff, decide_eq_true_iff,
    beq_iff_eq, beq_iff_eq, and_assoc, and_assoc]

theorem and_and_eq_zero {p m : Word} (hp : p &&& m = 0) (q : Word) : (p &&& q) &&& m = 0 := by
  rw [BitVec.and_assoc, BitVec.and_comm q, ← BitVec.and_assoc, hp]
  exact BitVec.zero_and

theorem twoPow_bit_evtMask (e : Event) : BitVec.twoPow 32 e.bit &&& ~~~evtMask = 0 := by
  cases e <;> decide

theorem raise_csrsLegal {s : State} (h : s.csrsLegal = true) (e : Event) (info : BitVec 16) :
    (s.raise e info).csrsLegal = true := by
  obtain ⟨hmin, hmax, hpending, henable⟩ := (csrsLegal_iff s).mp h
  rw [csrsLegal_iff, raise_ptfrLen, raise_evtPending, raise_evtEnable]
  exact ⟨hmin, hmax, or_and_eq_zero hpending (twoPow_bit_evtMask e), henable⟩

theorem writePtfrLen_csrsLegal {s : State} (h : s.csrsLegal = true) (v : Word) :
    (s.writePtfrLen v).csrsLegal = true := by
  unfold State.writePtfrLen
  split
  · next hv =>
    obtain ⟨-, -, hevents⟩ := (csrsLegal_iff s).mp h
    have hlen : (v.setWidth 12).toNat = v.toNat := by
      rw [BitVec.toNat_setWidth]
      exact Nat.mod_eq_of_lt (lt_of_le_of_lt hv.2 (by decide))
    rw [csrsLegal_iff]
    dsimp only
    rw [hlen]
    exact ⟨hv.1, hv.2, hevents⟩
  · exact raise_csrsLegal h _ _

theorem csrWrite_csrsLegal {s : State} (h : s.csrsLegal = true) (c : Csr) (v : Word) :
    (s.csrWrite c v).csrsLegal = true := by
  cases c with
  | id | status | cntFrames | cntPtdps | cntRecords | cntCorrBits | cntUncorr | cntLenErr => exact raise_csrsLegal h _ _
  | ctrl | fillCode | cntClr => exact h
  | ptfrLen => exact writePtfrLen_csrsLegal h v
  | evtPending =>
    rw [csrsLegal_iff] at h ⊢
    obtain ⟨hmin, hmax, hpending, henable⟩ := h
    exact ⟨hmin, hmax, and_and_eq_zero hpending (~~~v), henable⟩
  | evtEnable =>
    rw [csrsLegal_iff] at h ⊢
    obtain ⟨hmin, hmax, hpending, -⟩ := h
    exact ⟨hmin, hmax, hpending, by rw [State.csrWrite, BitVec.and_assoc, BitVec.and_not_self]; exact BitVec.and_zero⟩

/-! ## The whole invariant -/

/-- With the parser's state unchanged, only the CSR fields are left to check. -/
theorem inv_of_sameParser {s t : State} (h : s.Inv) (hcfg : t.cfg = s.cfg) (hparser : SameParser s t)
    (hcsrs : t.csrsLegal = true) : t.Inv := by
  obtain ⟨hkind, hrem, hstate, -, hhl, hll⟩ := hparser
  obtain ⟨hlimits, -, hremainder, hctxHl, hctxLl⟩ := h
  rw [State.Inv, State.remainderLegal, hcfg, hkind, hrem, hstate, hhl, hll]
  exact ⟨hlimits, hcsrs, hremainder, hctxHl, hctxLl⟩

theorem raise_sameParser (s : State) (e : Event) (info : BitVec 16) : SameParser s (s.raise e info) := by
  rw [raise_eq]
  exact ⟨rfl, rfl, rfl, rfl, rfl, rfl⟩

theorem raise_inv {s : State} (h : s.Inv) (e : Event) (info : BitVec 16) : (s.raise e info).Inv :=
  inv_of_sameParser h (raise_cfg s e info) (raise_sameParser s e info) (raise_csrsLegal h.2.1 e info)

theorem emitAll_inv {s : State} (h : s.Inv) (ws : List Word) : (s.emitAll ws).Inv := h

theorem csrRead_inv {s : State} (h : s.Inv) (a : BitVec 8) : (s.csrRead a).Inv := by
  rw [State.csrRead]
  cases csrAt a with
  | some c => exact emitAll_inv h _
  | none => exact emitAll_inv (raise_inv h _ _) _

theorem csrWriteAt_csrsLegal {s : State} (h : s.csrsLegal = true) (a : BitVec 8) (v : Word) :
    (s.csrWriteAt a v).csrsLegal = true := by
  rw [State.csrWriteAt]
  cases csrAt a with
  | some c => exact csrWrite_csrsLegal h c v
  | none => exact raise_csrsLegal h _ _

theorem csrWriteAt_inv {s : State} (h : s.Inv) (a : BitVec 8) (v : Word) : (s.csrWriteAt a v).Inv := by
  have hcsrs := csrWriteAt_csrsLegal h.2.1 a v
  obtain ⟨c, l, f, p, e, k, part, r, hw⟩ := csrWriteAt_csrWrites s a v
  rw [hw] at hcsrs ⊢
  exact inv_of_sameParser h rfl ⟨rfl, rfl, rfl, rfl, rfl, rfl⟩ hcsrs

theorem idle_legal (max : Nat) : Context.idle.legal max = true := by
  simp [Context.legal, Context.idle]

theorem softReset_inv {s : State} (h : s.Inv) : s.softReset.Inv := by
  obtain ⟨hlimits, hcsrs, -, -, -⟩ := h
  exact ⟨hlimits, hcsrs, rfl, idle_legal _, idle_legal _⟩

theorem keepRemainder_remainderLegal (s : State) {b : List Byte} (hne : b ≠ []) (hcap : b.length ≤ remCap) :
    (s.keepRemainder b).remainderLegal = true := by
  cases b with
  | nil => exact absurd rfl hne
  | cons x xs =>
    show (true && decide ((x :: xs).length ≤ remCap) && true && true) = true
    rw [decide_eq_true hcap]
    rfl

/-- An action of the parser or the reassembler keeps the invariant. -/
theorem FrameAct.inv {s t : State} (hact : FrameAct s.cfg.maxRecordBytes s t) (hs : s.Inv) : t.Inv := by
  obtain ⟨e, info, -, rfl⟩ | ⟨k, rfl⟩ | ⟨ws, -, rfl⟩ | ⟨τ, c, hc, rfl⟩ | ⟨b, rfl⟩ | rfl | ⟨b, hne, hcap, rfl⟩ | rfl := hact
  · exact raise_inv hs e info
  · exact hs
  · exact hs
  · obtain ⟨hlimits, hcsrs, hremainder, hctxHl, hctxLl⟩ := hs
    cases τ with
    | hl => exact ⟨hlimits, hcsrs, hremainder, hc, hctxLl⟩
    | ll => exact ⟨hlimits, hcsrs, hremainder, hctxHl, hc⟩
  · exact hs
  all_goals obtain ⟨hlimits, hcsrs, -, hctxs⟩ := hs
  · exact ⟨hlimits, hcsrs, rfl, hctxs⟩
  · exact ⟨hlimits, hcsrs, keepRemainder_remainderLegal s hne hcap, hctxs⟩
  · exact ⟨hlimits, hcsrs, rfl, hctxs⟩

/-- The work on a frame keeps the invariant: every action does. -/
theorem FrameRun.inv {s t : State} (h : FrameRun s t) (hs : s.Inv) : t.Inv := by
  induction h with
  | refl => exact hs
  | tail hrun hact ih => exact FrameAct.inv (cfg_eq hrun ▸ hact) ih

theorem afterCommand_inv {s : State} (hs : s.Inv) (i : Instr) : (afterCommand s i).Inv := by
  have hretire : s.retire.Inv := hs
  cases i with
  | nop | genc | gdec | gerr => exact hretire
  | frame rsv f => exact ((FrameRun.start _).parseFrame f).inv hretire
  | srst => exact softReset_inv hretire
  | csrr rsv a => exact csrRead_inv hretire a
  | csrw rsv a v => exact csrWriteAt_inv hretire a v

/-- A rejected command's words are consumed, and an event is raised (R116, R117). -/
theorem reject_inv {s : State} (hs : s.Inv) (e : Event) (info : BitVec 16) : (s.retire.raise e info).Inv :=
  raise_inv (s := s.retire) hs e info

theorem CommandEffect.inv {s t : State} {i : Instr} (h : CommandEffect s i t) (hs : s.Inv) : t.Inv := by
  obtain ⟨-, rfl⟩ | ⟨-, rfl⟩ | ⟨-, rfl⟩ := h
  · exact hs
  · exact reject_inv hs _ _
  · exact afterCommand_inv hs i

theorem buildTick_inv {s : State} (h : s.Inv) : s.buildTick.Inv := by
  unfold State.buildTick
  split <;> exact h

theorem receive_inv {s : State} (h : s.Inv) : s.receive.Inv := by
  unfold State.receive
  split <;> exact h

theorem poll_inv {s : State} (h : s.Inv) : s.poll.Inv := receive_inv (buildTick_inv h)

/-- Settles O4: the poll, the rejection of an illegal head word and every effect of a command keep the invariant. -/
theorem stepKeepsLegalState : Obligations.StepKeepsLegalState := by
  intro s t hs hstep
  obtain rfl | ⟨op, rfl⟩ | ⟨i, heffect⟩ := step_next hstep
  · exact poll_inv hs
  · exact reject_inv (poll_inv hs) _ _
  · exact heffect.inv (poll_inv hs)

theorem resetWith_inv {c : Config} (h : limitsValid c = true) : (State.resetWith c).Inv := by
  refine ⟨h, ?_, rfl, idle_legal _, idle_legal _⟩
  simp only [limitsValid, Bool.and_eq_true, decide_eq_true_eq] at h
  obtain ⟨⟨⟨hmin, hmax⟩, -⟩, -⟩ := h
  have hlen : (BitVec.ofNat 12 c.ptfrLenReset).toNat = c.ptfrLenReset := by
    rw [BitVec.toNat_ofNat]
    exact Nat.mod_eq_of_lt (lt_of_le_of_lt hmax (by decide))
  rw [csrsLegal_iff]
  dsimp only [State.resetWith]
  rw [hlen]
  exact ⟨hmin, hmax, rfl, rfl⟩

/-- Settles O3: PTFR_LEN is the one field whose legality depends on the limits. -/
theorem resetStateIsLegal : Obligations.ResetStateIsLegal :=
  ⟨resetWith_inv (by decide), fun _ h => resetWith_inv h⟩

end Sys2Proof.Machine
end

