-- ==== Sys2Proof/Proofs/Csr.lean ====
section
/-! PROOFS. The CSR file as the host sees it: STATUS, what a write leaves to read, `irq` (10_state R40 to R50). -/

-- Proofs are elaborated one after another: in parallel, they and the tests' kernel checks exceed the check's memory limit.
set_option deprecated.oldSectionVars true

namespace Sys2Proof.Machine

/-! ## STATUS (R42) -/

section Status

variable (s : State)

theorem getLsbD_bit_zero (b : Bool) : (bit b).getLsbD 0 = b := by
  cases b <;> rfl

theorem status_tablesReady : s.status.getLsbD 0 = s.tablesReady := by
  rw [State.status, BitVec.getLsbD_append, if_pos (by decide)]
  exact getLsbD_bit_zero _

theorem status_parseState : s.status.extractLsb' 1 2 = s.parseState.code := by
  rw [State.status, BitVec.extractLsb'_append_eq_of_le (by decide), BitVec.extractLsb'_append_eq_of_add_le (by decide)]
  exact BitVec.extractLsb'_eq_self

theorem status_remKind : s.status.extractLsb' 3 2 = s.remKind.code := by
  rw [State.status]
  iterate 2 rw [BitVec.extractLsb'_append_eq_of_le (by decide)]
  rw [BitVec.extractLsb'_append_eq_of_add_le (by decide)]
  exact BitVec.extractLsb'_eq_self

theorem status_llpPending : s.status.getLsbD 5 = s.llpPending := by
  rw [State.status]
  iterate 3 rw [BitVec.getLsbD_append, if_neg (by decide)]
  rw [BitVec.getLsbD_append, if_pos (by decide)]
  exact getLsbD_bit_zero _

theorem status_hlActive : s.status.getLsbD 6 = s.ctxHl.active := by
  rw [State.status]
  iterate 4 rw [BitVec.getLsbD_append, if_neg (by decide)]
  rw [BitVec.getLsbD_append, if_pos (by decide)]
  exact getLsbD_bit_zero _

theorem status_llActive : s.status.getLsbD 7 = s.ctxLl.active := by
  rw [State.status]
  iterate 5 rw [BitVec.getLsbD_append, if_neg (by decide)]
  rw [BitVec.getLsbD_append, if_pos (by decide)]
  exact getLsbD_bit_zero _

theorem status_remLen : s.status.extractLsb' 8 12 = BitVec.ofNat 12 s.rem.length := by
  rw [State.status]
  iterate 6 rw [BitVec.extractLsb'_append_eq_of_le (by decide)]
  rw [BitVec.extractLsb'_append_eq_of_add_le (by decide)]
  exact BitVec.extractLsb'_eq_self

theorem status_high : s.status.extractLsb' 20 12 = 0 := by
  rw [State.status]
  iterate 7 rw [BitVec.extractLsb'_append_eq_of_le (by decide)]
  exact BitVec.extractLsb'_eq_self

theorem tablesReady_iff : s.tablesReady = true ↔ s.tables = .built := by
  unfold State.tablesReady
  cases s.tables with
  | building n => exact ⟨nofun, nofun⟩
  | built => exact ⟨fun _ => rfl, fun _ => rfl⟩

end Status

theorem resetWith_status (c : Config) : (State.resetWith c).status = if c.tableBuild = .rom then 1 else 0 := by
  cases hb : c.tableBuild with
  | rom =>
    simp only [State.resetWith, State.status, State.tablesReady, GuTables.atReset, hb]
    rfl
  | build =>
    simp only [State.resetWith, State.status, State.tablesReady, GuTables.atReset, hb]
    rfl

/-- Settles O21: STATUS field by field, its reset reading, and the write that is ignored. -/
theorem statusIsTheLiveView : Obligations.StatusIsTheLiveView := by
  refine ⟨fun s hrem => ⟨?_, ?_, ?_, status_llpPending s, status_hlActive s, status_llActive s, ?_, status_high s⟩,
    resetWith_status, fun s v => rfl⟩
  · rw [State.csrValue, status_tablesReady, tablesReady_iff]
  · rw [State.csrValue, status_parseState]
    cases s.parseState <;> rfl
  · rw [State.csrValue, status_remKind]
    cases s.remKind <;> rfl
  · rw [State.csrValue, status_remLen, BitVec.toNat_ofNat]
    exact Nat.mod_eq_of_lt (lt_of_le_of_lt hrem (by decide))

/-! ## What a CSR reads after a write (R40 to R48) -/

theorem csrWriteAt_addr (s : State) (c : Csr) (v : Word) : s.csrWriteAt c.addr v = s.csrWrite c v := by
  cases c <;> rfl

/-- An ignored write shows in EVT_PENDING alone. -/
theorem csrIgnore_csrValue (s : State) (c : Csr) {d : Csr} (hd : d ≠ .evtPending) :
    (s.csrIgnore c).csrValue d = s.csrValue d := by
  rw [State.csrIgnore, raise_eq]
  cases d with
  | evtPending => exact absurd rfl hd
  | id | ctrl | status | ptfrLen | fillCode | evtEnable => rfl
  | cntFrames | cntPtdps | cntRecords | cntCorrBits | cntUncorr | cntLenErr | cntClr => rfl

theorem writePtfrLen_reads (s : State) (v : Word) : (s.writePtfrLen v).csrValue .ptfrLen =
    if 5 ≤ v.toNat ∧ v.toNat ≤ 2051 then v else s.csrValue .ptfrLen := by
  by_cases hv : 5 ≤ v.toNat ∧ v.toNat ≤ 2051
  · rw [State.writePtfrLen, if_pos hv, if_pos hv]
    apply BitVec.eq_of_toNat_eq
    simp only [State.csrValue, BitVec.toNat_setWidth]
    omega
  · rw [State.writePtfrLen, if_neg hv, if_neg hv]
    exact csrIgnore_csrValue s .ptfrLen (by decide)

/-- Keeping the low `k` bits of a word is masking the others. -/
theorem setWidth_setWidth_eq_and (v : Word) {k : Nat} (hk : k ≤ 32) :
    (v.setWidth k).setWidth 32 = v &&& BitVec.ofNat 32 (2 ^ k - 1) := by
  have hpow : 2 ^ k ≤ 2 ^ 32 := Nat.pow_le_pow_right (by decide) hk
  have hmask : 2 ^ k - 1 < 2 ^ 32 := lt_of_lt_of_le (Nat.sub_one_lt (Nat.two_pow_pos k).ne') hpow
  apply BitVec.eq_of_toNat_eq
  rw [BitVec.toNat_setWidth, BitVec.toNat_setWidth, BitVec.toNat_and, BitVec.toNat_ofNat, Nat.mod_eq_of_lt hmask,
    Nat.and_two_pow_sub_one_eq_mod]
  exact Nat.mod_eq_of_lt (lt_of_lt_of_le (Nat.mod_lt _ (Nat.two_pow_pos k)) hpow)

/-- Settles O24: each writable CSR reads its new value masked, each read-only one its old value. -/
theorem csrReadsBackAfterWrite : Obligations.CsrReadsBackAfterWrite := by
  intro s v
  refine ⟨setWidth_setWidth_eq_and v (by decide), writePtfrLen_reads s v, setWidth_setWidth_eq_and v (by decide), rfl, rfl,
    fun c hc => ?_, fun c hc => ?_⟩
  · cases c with
    | cntFrames | cntPtdps | cntRecords | cntCorrBits | cntUncorr | cntLenErr | cntClr => rfl
    | id | ctrl | status | ptfrLen | fillCode | evtPending | evtEnable => exact absurd hc (by decide)
  · rw [csrWriteAt_addr]
    cases c with
    | id | cntFrames | cntPtdps | cntRecords | cntCorrBits | cntUncorr | cntLenErr =>
      exact csrIgnore_csrValue s _ (by decide)
    | ctrl | status | ptfrLen | fillCode | evtPending | evtEnable | cntClr => exact absurd hc (by decide)

/-! ## `irq` (R50) -/

theorem irq_iff (s : State) :
    s.irq = true ↔ ∃ k, k < 32 ∧ s.evtPending.getLsbD k = true ∧ s.evtEnable.getLsbD k = true := by
  rw [State.irq, bne_iff_ne, ne_eq, BitVec.eq_of_getLsbD_eq_iff]
  simp only [BitVec.getLsbD_and, BitVec.ofNat_eq_ofNat, BitVec.getLsbD_zero, not_forall, exists_prop, Bool.not_eq_false,
    Bool.and_eq_true]

/-- Settles O19: `irq` bit by bit, and 0 with nothing pending. -/
theorem irqIsPendingAndEnabled : Obligations.IrqIsPendingAndEnabled :=
  ⟨irq_iff, fun _ => show ((0 : Word) &&& 0 != 0) = false by decide⟩

end Sys2Proof.Machine
end

