-- ==== Sys2Proof/Proofs/Wait.lean ====
section
/-! PROOFS. A step whose command is not complete (10_state R65, 30_encoding R110). -/

-- Proofs are elaborated one after another: in parallel, they and the tests' kernel checks exceed the check's memory limit.
set_option deprecated.oldSectionVars true

namespace Sys2Proof.Machine

/-- An incomplete command has fewer words than its head word announces (R114). -/
theorem length_lt_commandLength {len : Nat} {h : Word} {ws : List Word} (hd : decode len (h :: ws) = .incomplete) :
    (h :: ws).length < commandLength len h := by
  rw [decode] at hd
  rw [commandLength]
  split at hd
  · cases hd
  · next o ho =>
    split at hd
    · next hmissing =>
      simp only [ho, List.length_cons]
      omega
    · cases hd

/-- While the command is incomplete, receiving takes every word there is. -/
theorem receive_incomplete {s : State} (hd : decode s.ptfrLen.toNat (s.cmdPart ++ s.cmdIn) = .incomplete) :
    s.receive = { s with cmdPart := s.cmdPart ++ s.cmdIn, cmdIn := [] } := by
  cases hw : s.cmdPart ++ s.cmdIn with
  | nil =>
    obtain ⟨hpart, hin⟩ := List.append_eq_nil_iff.mp hw
    rw [State.receive, hw]
    cases s
    cases hpart
    cases hin
    rfl
  | cons h ws =>
    rw [hw] at hd
    have hlt := length_lt_commandLength hd
    rw [receive_cons s hw, List.take_of_length_le hlt.le, List.drop_of_length_le hlt.le]

/-- Settles O11: the poll takes all the words, and they still decode to no command. -/
theorem incompleteCommandWaits : Obligations.IncompleteCommandWaits := by
  intro s hd
  have hpoll : s.poll = { s.buildTick with cmdPart := s.cmdPart ++ s.cmdIn, cmdIn := [] } := by
    rw [State.poll, receive_incomplete (by rwa [buildTick_ptfrLen, buildTick_cmdPart, buildTick_cmdIn]), buildTick_cmdPart,
      buildTick_cmdIn]
  rw [step_eq, hpoll]
  dsimp only
  rw [buildTick_ptfrLen, hd, runDecoded]

end Sys2Proof.Machine
end

