-- ==== Sys2Proof/Proofs/Bytes.lean ====
section
/-! PROOFS. Byte packing as positions: byte `k` of a word sequence (20_memory R82, 30_encoding R128). -/

-- Proofs are elaborated one after another: in parallel, they and the tests' kernel checks exceed the check's memory limit.
set_option deprecated.oldSectionVars true

namespace Sys2Proof

open Machine

/-- Four bytes on, a byte is in the next word. -/
theorem packedByte_cons_add_four (w : Word) (ws : List Word) (k : Nat) :
    packedByte (w :: ws) (k + 4) = packedByte ws k := by
  rw [packedByte, packedByte, Nat.add_div_right k (by decide), Nat.add_mod_right, List.getD_cons_succ]

/-- The bits R82 names for byte `k` hold byte `k` of the unpacked words; behind the last word both are 0. -/
theorem packedByte_eq_getD_unpackBytes (ws : List Word) (k : Nat) : packedByte ws k = (unpackBytes ws).getD k 0 := by
  induction ws generalizing k with
  | nil => exact BitVec.extractLsb'_zero
  | cons w ws ih =>
    match k with
    | 0 | 1 | 2 | 3 => rfl
    | k + 4 => exact (packedByte_cons_add_four w ws k).trans (ih k)

/-- Packed bytes unpack to themselves and zero pad bytes. -/
theorem unpackBytes_packBytes_eq_append_zeros (bs : List Byte) :
    ∃ n, unpackBytes (packBytes bs) = bs ++ List.replicate n 0 := by
  induction bs using packBytes.induct with
  | case1 => exact ⟨0, rfl⟩
  | case2 a => exact ⟨3, by rw [packBytes, unpackBytes, bytesOfWord_wordOfBytes]; rfl⟩
  | case3 a b => exact ⟨2, by rw [packBytes, unpackBytes, bytesOfWord_wordOfBytes]; rfl⟩
  | case4 a b c => exact ⟨1, by rw [packBytes, unpackBytes, bytesOfWord_wordOfBytes]; rfl⟩
  | case5 a b c d rest ih =>
    obtain ⟨n, h⟩ := ih
    exact ⟨n, by rw [packBytes, unpackBytes, bytesOfWord_wordOfBytes, h]; rfl⟩

/-- Byte `k` of packed bytes, and 0 behind the last one. -/
theorem packedByte_packBytes (bs : List Byte) (k : Nat) : packedByte (packBytes bs) k = bs.getD k 0 := by
  obtain ⟨n, hpad⟩ := unpackBytes_packBytes_eq_append_zeros bs
  rw [packedByte_eq_getD_unpackBytes, hpad]
  obtain hk | hk := Nat.lt_or_ge k bs.length
  · exact List.getD_append bs _ 0 k hk
  · rw [List.getD_append_right bs _ 0 k hk, List.getD_eq_getElem?_getD, List.getElem?_getD_replicate_default_eq,
      List.getD_eq_default bs 0 hk]

/-- Settles O9: the byte at every position, inside the bytes and behind them. -/
theorem packedBytesAreBigEndian : Obligations.PackedBytesAreBigEndian := fun bs =>
  ⟨length_packBytes bs, fun k _ => packedByte_packBytes bs k,
    fun k hk _ => (packedByte_packBytes bs k).trans (List.getD_eq_default bs 0 hk), take_unpackBytes_packBytes bs⟩

end Sys2Proof
end

