-- ==== Sys2Proof/Proofs/CommandStream.lean ====
section
/-! PROOFS. The words of `cmd_in` step by step: every step from a legal state answers, and what it consumes is no word or one
command's (20_memory R87, R89). -/

-- Proofs are elaborated one after another: in parallel, they and the tests' kernel checks exceed the check's memory limit.
set_option deprecated.oldSectionVars true

namespace Sys2Proof.Machine

/-! ## A step answers a next state -/

/-- A command decoded while PTFR_LEN is legal executes: the one fault is that of a frame length no PTFR_LEN allows. -/
theorem exec_decoded_next {s : State} (hs : s.Inv) {ws rest : List Word} {i : Instr}
    (hd : decode s.ptfrLen.toNat ws = .command i rest) : ∃ t, exec i s = .next t := by
  obtain ⟨-, hcsrs, -⟩ := hs
  obtain ⟨hmin, hmax, -⟩ := (csrsLegal_iff s).mp hcsrs
  obtain hnext | ⟨hillegal, -⟩ := exec_nextOrIllFormed i s
  · exact hnext
  · cases hillegal.symm.trans (lengthLegal_of_fits hmin hmax (decode_fits hd))

/-- Settles O5: the poll keeps the state legal, and each answer of the decoder leads to a next state. -/
theorem stepNeverStopsTheBlock : Obligations.StepNeverStopsTheBlock := by
  intro s hs
  rw [step_eq]
  cases hd : decode s.poll.ptfrLen.toNat s.poll.cmdPart with
  | incomplete => exact ⟨_, rfl⟩
  | illegal op rest => exact ⟨_, rfl⟩
  | command i rest => exact exec_decoded_next (poll_inv hs) hd

/-! ## How many words a command has (30_encoding R114, R117) -/

theorem commandLength_pos (len : Nat) (h : Word) : 0 < commandLength len h := by
  unfold commandLength
  split <;> omega

/-- A command is incomplete exactly where words that its head word announces are missing (R65, R114). -/
theorem decode_eq_incomplete_iff {len : Nat} {h : Word} {ws : List Word} :
    decode len (h :: ws) = .incomplete ↔ (h :: ws).length < commandLength len h := by
  refine ⟨length_lt_commandLength, fun hlt => ?_⟩
  rw [commandLength, List.length_cons] at hlt
  rw [decode]
  split at hlt
  · next o ho =>
    simp only [ho]
    exact if_pos (by omega)
  · omega

/-- The words of one command, without those behind them, are a whole command. -/
theorem decode_take_commandLength {len : Nat} {h : Word} {ws : List Word} (hlen : commandLength len h ≤ (h :: ws).length) :
    decode len ((h :: ws).take (commandLength len h)) ≠ .incomplete := by
  obtain ⟨n, hn⟩ := Nat.exists_eq_add_one.mpr (commandLength_pos len h)
  rw [hn] at hlen
  rw [hn, List.take_succ_cons, ne_eq, decode_eq_incomplete_iff, hn, ← List.take_succ_cons, List.length_take_of_le hlen]
  exact lt_irrefl _

/-- Words behind a whole command do not change it. -/
theorem decode_append {len : Nat} {ws rest : List Word} {i : Instr} (hd : decode len ws = .command i rest)
    (more : List Word) : decode len (ws ++ more) = .command i (rest ++ more) := by
  cases ws with
  | nil => cases hd
  | cons h ws =>
    rw [List.cons_append]
    cases hop : opcodeOf (headOp h) with
    | none =>
      simp only [decode, hop] at hd
      cases hd
    | some o =>
      simp only [decode, hop] at hd ⊢
      split at hd
      · cases hd
      · next harrived =>
        have hle := Nat.le_of_not_lt harrived
        cases hd
        rw [if_neg (by rw [List.length_append]; omega), List.take_append_of_le_length hle, List.drop_append_of_le_length hle]

/-! ## What becomes of a command's words -/

theorem csrRead_cmdPart (s : State) (a : BitVec 8) : (s.csrRead a).cmdPart = s.cmdPart := by
  rw [State.csrRead]
  cases csrAt a with
  | some c => rfl
  | none => exact raise_cmdPart s _ _

theorem csrWriteAt_cmdPart (s : State) (a : BitVec 8) (v : Word) : (s.csrWriteAt a v).cmdPart = s.cmdPart := by
  have hraise (e : Event) (info : BitVec 16) : (s.raise e info).cmdPart = s.cmdPart := raise_cmdPart s e info
  rw [State.csrWriteAt]
  cases csrAt a with
  | none => exact hraise _ _
  | some c =>
    cases c with
    | id | status | cntFrames | cntPtdps | cntRecords | cntCorrBits | cntUncorr | cntLenErr => exact hraise _ _
    | ctrl | fillCode | evtPending | evtEnable | cntClr => rfl
    | ptfrLen => exact iteInduction (motive := fun t : State => t.cmdPart = s.cmdPart) (fun _ => rfl) fun _ => hraise _ _

theorem afterCommand_cmdPart (s : State) (i : Instr) : (afterCommand s i).cmdPart = [] := by
  cases i with
  | nop | genc | gdec | gerr | srst => rfl
  | frame rsv f =>
    obtain ⟨ws, p, k, rk, rm, ps, lp, hc, lc, hwrites, -⟩ := frameWrites_parseFrame s f
    rw [afterCommand, hwrites]
  | csrr rsv a => exact csrRead_cmdPart s.retire a
  | csrw rsv a v => exact csrWriteAt_cmdPart s.retire a v

/-- What `exec` is where the table build does not hold the command: the check of its reserved bits, then the command. -/
theorem exec_of_ready {s : State} {i : Instr} (hready : held i.opcode = true → s.tables = .built) :
    exec i s = s.whenReservedZero i.opcode i.reservedZero
      (if i.lengthLegal then .next (afterCommand s i) else .fault .illFormedFrame) := by
  cases i with
  | nop | srst | csrr | csrw => rfl
  | genc | gdec | gerr | frame => exact whenReady_built s (hready rfl)

/-- What `exec` is while the table build holds the command (R372). -/
theorem exec_of_held {s : State} {i : Instr} (hheld : held i.opcode = true) (hs : s.tables ≠ .built) :
    exec i s = .next s := by
  cases htables : s.tables with
  | built => exact absurd htables hs
  | building n =>
    cases i with
    | genc | gdec | gerr | frame => exact whenReady_building s htables
    | nop | srst | csrr | csrw => cases hheld

/-- A command is held, or its words are consumed and those behind it wait on. -/
theorem exec_words {s t : State} {i : Instr} (h : exec i s = .next t) :
    (held i.opcode = true ∧ s.tables ≠ .built ∧ t = s) ∨ (t.cmdPart = [] ∧ t.cmdIn = s.cmdIn) := by
  obtain ⟨-, -, hcmdIn, -⟩ := commandsLeaveOthersStateAlone s t i h
  by_cases hready : held i.opcode = true → s.tables = .built
  · rw [exec_of_ready hready] at h
    obtain ⟨-, rfl⟩ | ⟨-, hrun⟩ := whenReservedZero_next h
    · exact .inr ⟨raise_cmdPart _ _ _, hcmdIn⟩
    · split at hrun
      · cases hrun
        exact .inr ⟨afterCommand_cmdPart s i, hcmdIn⟩
      · cases hrun
  · obtain ⟨hheld, hs⟩ := Classical.not_imp.mp hready
    rw [exec_of_held hheld hs] at h
    exact .inl ⟨hheld, hs, (Host.Outcome.next.inj h).symm⟩

/-- A step whose poll has the words of a whole command holds it or consumes those words. -/
theorem step_words {s t : State} (h : step s = .next t) (hd : decode s.poll.ptfrLen.toNat s.poll.cmdPart ≠ .incomplete) :
    (∃ i rest, decode s.poll.ptfrLen.toNat s.poll.cmdPart = .command i rest ∧ held i.opcode = true ∧
        s.poll.tables ≠ .built ∧ t = s.poll) ∨ (t.cmdPart = [] ∧ t.cmdIn = s.poll.cmdIn) := by
  rw [step_eq] at h
  cases hdec : decode s.poll.ptfrLen.toNat s.poll.cmdPart with
  | incomplete => exact absurd hdec hd
  | illegal op rest =>
    rw [hdec] at h
    cases h
    exact .inr ⟨raise_cmdPart _ _ _, raise_cmdIn _ _ _⟩
  | command i rest =>
    rw [hdec] at h
    obtain ⟨hheld, htables, rfl⟩ | hconsumed := exec_words h
    · exact .inl ⟨i, rest, rfl, hheld, htables, rfl⟩
    · exact .inr hconsumed

theorem poll_ptfrLen (s : State) : s.poll.ptfrLen = s.ptfrLen := by
  rw [State.poll, receive_ptfrLen, buildTick_ptfrLen]

/-- Where words have arrived, the poll divides them behind the first command. -/
theorem poll_cons {s : State} {h : Word} {ws : List Word} (hw : s.cmdPart ++ s.cmdIn = h :: ws) :
    s.poll.cmdPart = (h :: ws).take (commandLength s.ptfrLen.toNat h) ∧
    s.poll.cmdIn = (h :: ws).drop (commandLength s.ptfrLen.toNat h) := by
  rw [State.poll, receive_cons s.buildTick (by rwa [buildTick_cmdPart, buildTick_cmdIn]), buildTick_ptfrLen]
  exact ⟨rfl, rfl⟩

/-- Settles O12: a step waits for words, or has a whole command, which it holds or whose words it consumes. -/
theorem commandWordsConsumedInOrder : Obligations.CommandWordsConsumedInOrder := by
  intro s t hstep
  by_cases hwait : decode s.ptfrLen.toNat (s.cmdPart ++ s.cmdIn) = .incomplete
  · rw [incompleteCommandWaits s hwait] at hstep
    cases hstep
    exact ⟨[], (List.append_nil _).symm, .inl ⟨rfl, .inl hwait⟩⟩
  · cases hw : s.cmdPart ++ s.cmdIn with
    | nil => exact absurd (by rw [hw, decode]) hwait
    | cons h ws =>
      rw [hw] at hwait
      have hlen : commandLength s.ptfrLen.toNat h ≤ (h :: ws).length := not_lt.mp (mt decode_eq_incomplete_iff.mpr hwait)
      obtain ⟨hpart, hin⟩ := poll_cons hw
      have hwhole : decode s.poll.ptfrLen.toNat s.poll.cmdPart ≠ .incomplete := by
        rw [poll_ptfrLen, hpart]
        exact decode_take_commandLength hlen
      have hwords : s.poll.cmdPart ++ s.poll.cmdIn = h :: ws := by
        rw [hpart, hin, List.take_append_drop]
      obtain ⟨i, rest, hdec, hheld, htables, rfl⟩ | ⟨hnone, hbehind⟩ := step_words hstep hwhole
      · refine ⟨[], hwords.symm, .inl ⟨rfl, .inr ⟨i, rest ++ s.poll.cmdIn, ?_, hheld, htables⟩⟩⟩
        rw [← hwords, ← poll_ptfrLen]
        exact decode_append hdec _
      · refine ⟨s.poll.cmdPart, ?_, .inr ⟨h, ws, rfl, hnone, hpart, ?_⟩⟩
        · rw [hnone, hbehind, List.nil_append, hwords]
        · rw [hpart, List.length_take_of_le hlen]

end Sys2Proof.Machine
end

