-- ==== Sys2Proof/Proofs/Responses.lean ====
section
/-! PROOFS. The response stream: every action of the block appends whole responses, each with a tag of the table (30_encoding R118 to
R127). -/

-- Proofs are elaborated one after another: in parallel, they and the tests' kernel checks exceed the check's memory limit.
set_option deprecated.oldSectionVars true

namespace Sys2Proof.Machine

/-! ## Tags (R118) -/

theorem rspTag_gencRsp (c : BitVec 24) : rspTag (gencRsp c) = 0x81 := BitVec.extractLsb'_append_eq_left

theorem rspTag_gdecRsp (e : BitVec 3) (d : BitVec 12) : rspTag (gdecRsp e d) = 0x82 := by
  rw [rspTag, gdecRsp]
  iterate 2 rw [BitVec.extractLsb'_append_eq_of_le (by decide)]
  exact BitVec.extractLsb'_append_eq_left

theorem rspTag_gerrRsp (e : BitVec 3) : rspTag (gerrRsp e) = 0x83 := by
  rw [rspTag, gerrRsp, BitVec.extractLsb'_append_eq_of_le (by decide)]
  exact BitVec.extractLsb'_append_eq_left

theorem rspTag_csrrHead (a : BitVec 8) : rspTag (csrrHead a) = 0xC0 := by
  rw [rspTag, csrrHead, BitVec.extractLsb'_append_eq_of_le (by decide)]
  exact BitVec.extractLsb'_append_eq_left

theorem rspTag_ptfrHdr (f0 : Byte) (llp : Bool) (e0 : BitVec 3) (off : BitVec 11) :
    rspTag (ptfrHdr f0 llp e0 off) = 0x98 := by
  rw [rspTag, ptfrHdr]
  iterate 4 rw [BitVec.extractLsb'_append_eq_of_le (by decide)]
  exact BitVec.extractLsb'_append_eq_left

theorem rspTag_frameDoneRsp (p : ParseState) (k : RemKind) (llp : Bool) (n : Nat) :
    rspTag (frameDoneRsp p k llp n) = 0x9F := by
  rw [rspTag, frameDoneRsp]
  iterate 4 rw [BitVec.extractLsb'_append_eq_of_le (by decide)]
  exact BitVec.extractLsb'_append_eq_left

theorem rspTag_evtRsp (code : BitVec 8) (info : BitVec 16) : rspTag (evtRsp code info) = 0xE0 := by
  rw [rspTag, evtRsp, BitVec.extractLsb'_append_eq_of_le (by decide)]
  exact BitVec.extractLsb'_append_eq_left

/-- The class bit is the lowest bit of a PTDP response's tag (R124). -/
theorem rspTag_ptdpHead (τ : Latency) (h : PtdpHeader) :
    rspTag (ptdpHead τ h) = match τ with | .hl => 0x90 | .ll => 0x91 := by
  rw [rspTag, ptdpHead]
  iterate 4 rw [BitVec.extractLsb'_append_eq_of_le (by decide)]
  cases τ <;> rfl

/-- The class bit is the lowest bit of a RECORD response's tag (R125). -/
theorem rspTag_recordHead (τ : Latency) (content : BitVec 4) (n : Nat) :
    rspTag (recordHead τ content n) = match τ with | .hl => 0xB0 | .ll => 0xB1 := by
  rw [rspTag, recordHead]
  iterate 2 rw [BitVec.extractLsb'_append_eq_of_le (by decide)]
  cases τ <;> rfl

/-! ## Whole responses (R118) -/

/-- The tags of the responses that are one word (R119 to R121, R123, R126, R127). -/
def oneWordTags : List (BitVec 8) := [0x81, 0x82, 0x83, 0x98, 0x9F, 0xE0]

theorem isResponse_cons {w : Word} {ws : List Word} (h : rspLength w = some (1 + ws.length)) :
    isResponse (w :: ws) = true :=
  beq_iff_eq.mpr (h.trans (congrArg some (Nat.add_comm 1 _)))

theorem isResponse_of_oneWordTag {w : Word} {tag : BitVec 8} (h : rspTag w = tag) (htag : tag ∈ oneWordTags) :
    isResponse [w] = true := by
  refine isResponse_cons ?_
  rw [rspLength, h]
  fin_cases htag <;> rfl

theorem isResponse_csrr (a : BitVec 8) (v : Word) : isResponse [csrrHead a, v] = true :=
  isResponse_cons (by rw [rspLength, rspTag_csrrHead]; rfl)

/-- A PTDP response has the payload words its head word announces (R124, R128). -/
theorem isResponse_ptdpRsp (τ : Latency) {h : PtdpHeader} {data : List Byte} (hlen : data.length = h.length.toNat) :
    isResponse (ptdpRsp τ h data) = true := by
  refine isResponse_cons ?_
  have hfield : (ptdpHead τ h).extractLsb' 0 16 = h.length := BitVec.extractLsb'_append_eq_right
  rw [length_packBytes, hlen, rspLength, rspTag_ptdpHead, hfield]
  cases τ <;> rfl

/-- A RECORD response has the payload words its head word announces, its length field being wide enough (R18, R125, R128). -/
theorem isResponse_recordRsp (τ : Latency) (content : BitVec 4) {bytes : List Byte} (hlen : bytes.length ≤ recordBytesLimit) :
    isResponse (recordRsp τ content bytes) = true := by
  refine isResponse_cons ?_
  have hfield : ((recordHead τ content bytes.length).extractLsb' 0 20).toNat = bytes.length := by
    rw [recordHead, BitVec.extractLsb'_append_eq_right, BitVec.toNat_ofNat]
    exact Nat.mod_eq_of_lt (lt_of_le_of_lt hlen (by decide))
  rw [length_packBytes, rspLength, rspTag_recordHead, hfield]
  cases τ <;> rfl

/-- The responses of a FRAME are whole where the limits are legal. -/
theorem FrameResponse.isResponse {max : Nat} {ws : List Word} (h : FrameResponse max ws) (hmax : max ≤ recordBytesLimit) :
    isResponse ws = true := by
  obtain ⟨f0, llp, e0, off, rfl⟩ | ⟨τ, h, data, hlen, rfl⟩ | ⟨τ, content, bytes, hlen, rfl⟩ | ⟨p, k, llp, n, rfl⟩ := h
  · exact isResponse_of_oneWordTag (rspTag_ptfrHdr f0 llp e0 off) (by decide)
  · exact isResponse_ptdpRsp τ hlen
  · exact isResponse_recordRsp τ content (hlen.trans hmax)
  · exact isResponse_of_oneWordTag (rspTag_frameDoneRsp p k llp n) (by decide)

/-! ## What each action appends -/

/-- The response words of `t` are those of `s`, with whole responses after them. -/
def EmitsWhole (s t : State) : Prop :=
  ∃ bs : List (List Word), t.rspOut = s.rspOut ++ bs.flatten ∧ ∀ b ∈ bs, isResponse b = true

namespace EmitsWhole

variable {s t u : State}

theorem of_eq (h : t.rspOut = s.rspOut) : EmitsWhole s t :=
  ⟨[], h.trans (List.append_nil _).symm, nofun⟩

theorem of_append {ws : List Word} (h : t.rspOut = s.rspOut ++ ws) (hws : isResponse ws = true) : EmitsWhole s t :=
  ⟨[ws], by rw [h, List.flatten_singleton], fun _ hb => List.mem_singleton.mp hb ▸ hws⟩

theorem trans (hst : EmitsWhole s t) (htu : EmitsWhole t u) : EmitsWhole s u := by
  obtain ⟨bs, hs, hbs⟩ := hst
  obtain ⟨cs, ht, hcs⟩ := htu
  exact ⟨bs ++ cs, by rw [ht, hs, List.flatten_append, List.append_assoc],
    fun b hb => (List.mem_append.mp hb).elim (hbs b) (hcs b)⟩

theorem emit {w : Word} {tag : BitVec 8} (h : rspTag w = tag) (htag : tag ∈ oneWordTags) : EmitsWhole s (s.emit w) :=
  of_append (emit_rspOut s w) (isResponse_of_oneWordTag h htag)

theorem raise (s : State) (e : Event) (info : BitVec 16) : EmitsWhole s (s.raise e info) :=
  iteInduction (motive := EmitsWhole s) (fun _ => emit (rspTag_evtRsp e.code info) (by decide)) fun _ => of_eq rfl

end EmitsWhole

theorem FrameAct.emitsWhole {max : Nat} {s t : State} (hact : FrameAct max s t) (hmax : max ≤ recordBytesLimit) :
    EmitsWhole s t := by
  obtain ⟨e, info, -, rfl⟩ | ⟨k, rfl⟩ | ⟨ws, hws, rfl⟩ | ⟨τ, c, -, rfl⟩ | ⟨b, rfl⟩ | rfl | ⟨b, -, -, rfl⟩ | rfl := hact
  · exact .raise s e info
  · exact .of_eq rfl
  · exact .of_append (emitAll_rspOut s ws) (hws.isResponse hmax)
  · exact .of_eq (setCtx_rspOut s τ c)
  all_goals exact .of_eq rfl

/-- The work on a frame appends whole responses: every action does. -/
theorem FrameRun.emitsWhole {s t : State} (h : FrameRun s t) (hmax : s.cfg.maxRecordBytes ≤ recordBytesLimit) :
    EmitsWhole s t := by
  induction h with
  | refl => exact .of_eq rfl
  | tail _ hact ih => exact ih.trans (hact.emitsWhole hmax)

theorem csrRead_emitsWhole (s : State) (a : BitVec 8) : EmitsWhole s (s.csrRead a) := by
  rw [State.csrRead]
  cases csrAt a with
  | some c => exact .of_append (emitAll_rspOut s _) (isResponse_csrr a _)
  | none => exact (EmitsWhole.raise s _ _).trans (.of_append (emitAll_rspOut _ _) (isResponse_csrr a 0))

theorem csrWrite_emitsWhole (s : State) (c : Csr) (v : Word) : EmitsWhole s (s.csrWrite c v) := by
  cases c with
  | id | status | cntFrames | cntPtdps | cntRecords | cntCorrBits | cntUncorr | cntLenErr => exact .raise s _ _
  | ctrl | fillCode | evtPending | evtEnable | cntClr => exact .of_eq rfl
  | ptfrLen => exact iteInduction (motive := EmitsWhole s) (fun _ => .of_eq rfl) fun _ => .raise s _ _

theorem csrWriteAt_emitsWhole (s : State) (a : BitVec 8) (v : Word) : EmitsWhole s (s.csrWriteAt a v) := by
  rw [State.csrWriteAt]
  cases csrAt a with
  | some c => exact csrWrite_emitsWhole s c v
  | none => exact .raise s _ _

theorem afterCommand_emitsWhole {s : State} (hmax : s.cfg.maxRecordBytes ≤ recordBytesLimit) (i : Instr) :
    EmitsWhole s (afterCommand s i) := by
  have hretire : EmitsWhole s s.retire := .of_eq rfl
  refine hretire.trans ?_
  cases i with
  | nop | srst => exact .of_eq rfl
  | genc rsv m => exact .emit (rspTag_gencRsp _) (by decide)
  | gdec r => exact .emit (rspTag_gdecRsp _ _) (by decide)
  | gerr r => exact .emit (rspTag_gerrRsp _) (by decide)
  | frame rsv f => exact ((FrameRun.start _).parseFrame f).emitsWhole hmax
  | csrr rsv a => exact csrRead_emitsWhole s.retire a
  | csrw rsv a v => exact csrWriteAt_emitsWhole s.retire a v

/-- A rejected command's words are consumed, and only an EVT word is emitted (R116, R117). -/
theorem reject_emitsWhole (s : State) (e : Event) (info : BitVec 16) : EmitsWhole s (s.retire.raise e info) :=
  .raise s.retire e info

theorem CommandEffect.emitsWhole {s t : State} {i : Instr} (h : CommandEffect s i t)
    (hmax : s.cfg.maxRecordBytes ≤ recordBytesLimit) : EmitsWhole s t := by
  obtain ⟨-, rfl⟩ | ⟨-, rfl⟩ | ⟨-, rfl⟩ := h
  · exact .of_eq rfl
  · exact reject_emitsWhole s _ _
  · exact afterCommand_emitsWhole hmax i

theorem poll_rspOut (s : State) : s.poll.rspOut = s.rspOut := by
  rw [State.poll, receive_rspOut, buildTick_rspOut]

theorem poll_cfg (s : State) : s.poll.cfg = s.cfg := by
  rw [State.poll, receive_cfg, buildTick_cfg]

theorem maxRecordBytes_le_of_limitsValid {c : Config} (h : limitsValid c = true) : c.maxRecordBytes ≤ recordBytesLimit := by
  simp only [limitsValid, Bool.and_eq_true, decide_eq_true_eq] at h
  obtain ⟨⟨-, -, hmax⟩, -⟩ := h
  exact hmax

/-- Settles O28: the poll emits nothing, and the rejection of an illegal head word and every effect of a command emit whole
responses. -/
theorem responsesAreWholeAndTagged : Obligations.ResponsesAreWholeAndTagged := by
  intro s t hlimits hstep
  have hmax : s.poll.cfg.maxRecordBytes ≤ recordBytesLimit := poll_cfg s ▸ maxRecordBytes_le_of_limitsValid hlimits
  have hpoll : EmitsWhole s s.poll := .of_eq (poll_rspOut s)
  obtain rfl | ⟨op, rfl⟩ | ⟨i, heffect⟩ := step_next hstep
  · exact hpoll
  · exact hpoll.trans (reject_emitsWhole _ _ _)
  · exact hpoll.trans (heffect.emitsWhole hmax)

end Sys2Proof.Machine
end

