-- ==== Sys2Proof/Proofs/Encoding.lean ====
section
/-! PROOFS. From a command to its words and back, what a step does with a whole command, and what the two rejections write
(30_encoding R111 to R117). -/

-- Proofs are elaborated one after another: in parallel, they and the tests' kernel checks exceed the check's memory limit.
set_option deprecated.oldSectionVars true

namespace Sys2Proof

open Machine

/-! ## What decodes to a command (R110, R114) -/

/-- A word sequence decodes to a command exactly where it is a legal head word, that opcode's trailing words and the words behind. -/
theorem decode_cons_eq_command_iff {len : Nat} {h : Word} {ws rest : List Word} {i : Instr} :
    decode len (h :: ws) = .command i rest ↔ ∃ o trail, opcodeOf (headOp h) = some o ∧
      trail.length = trailingWords len o ∧ ws = trail ++ rest ∧ i = commandOf len o (headArg h) trail := by
  constructor
  · intro hd
    cases hop : opcodeOf (headOp h) with
    | none =>
      simp only [decode, hop] at hd
      cases hd
    | some o =>
      simp only [decode, hop] at hd
      split at hd
      · cases hd
      · next harrived =>
        cases hd
        exact ⟨o, _, rfl, List.length_take_of_le (Nat.le_of_not_lt harrived), (List.take_append_drop _ _).symm, rfl⟩
  · rintro ⟨o, trail, hop, hlen, rfl, rfl⟩
    simp only [decode, hop]
    rw [if_neg (by rw [List.length_append]; omega), List.take_left' hlen, List.drop_left' hlen]

/-- A head word of the encoder, with its trailing words behind it, decodes to the command of its fields. -/
theorem decode_headWord {len : Nat} {o : Opcode} {arg : BitVec 24} {trail : List Word}
    (hlen : trail.length = trailingWords len o) (rest : List Word) :
    decode len (headWord o arg :: (trail ++ rest)) = .command (commandOf len o arg trail) rest :=
  decode_cons_eq_command_iff.mpr ⟨o, trail, by rw [headOp_headWord, opcodeOf_code], hlen, rfl, by rw [headArg_headWord]⟩

/-- The fields of a command make the command. -/
theorem commandOf_fields {len : Nat} {i : Instr} (hfits : i.fits len) : commandOf len i.opcode i.arg i.trail = i := by
  cases i with
  | nop | gdec | gerr | srst => rfl
  | genc rsv m => exact congrArg₂ Instr.genc BitVec.extractLsb'_append_eq_left BitVec.extractLsb'_append_eq_right
  | csrr rsv a => exact congrArg₂ Instr.csrr BitVec.extractLsb'_append_eq_left BitVec.extractLsb'_append_eq_right
  | csrw rsv a v => exact congrArg₂ (Instr.csrw · · v) BitVec.extractLsb'_append_eq_left BitVec.extractLsb'_append_eq_right
  | frame rsv f =>
    obtain rfl : f.length = len := hfits
    exact congrArg (Instr.frame rsv) (take_unpackBytes_packBytes f)

/-- Settles O7: the decoder reads back the fields that the encoder wrote. -/
theorem decodeOfEncodeIsTheCommand : Obligations.DecodeOfEncodeIsTheCommand := by
  intro len i rest hfits
  rw [encode, List.cons_append, decode_headWord (length_trail hfits), commandOf_fields hfits]

/-- Settles O6: each word sequence is closed, and the decoder evaluates on it. -/
theorem specWordsDecode : Obligations.SpecWordsDecode := by
  unfold Obligations.SpecWordsDecode
  decide

/-! ## Frame bytes (R115) -/

/-- Byte `k` of a decoded FRAME is at the bits R82 names. -/
theorem getD_take_unpackBytes {len k : Nat} (ws : List Word) (hk : k < len) :
    ((unpackBytes ws).take len).getD k 0 = packedByte ws k := by
  rw [packedByte_eq_getD_unpackBytes, List.getD_eq_getElem?_getD, List.getElem?_take_of_lt hk,
    ← List.getD_eq_getElem?_getD]

/-- Exactly enough words hold the frame's bytes. -/
theorem length_take_unpackBytes {len : Nat} {ws : List Word} (hws : ws.length = wordsFor len) :
    ((unpackBytes ws).take len).length = len := by
  rw [List.length_take, length_unpackBytes, hws, wordsFor]
  omega

/-- The pad bytes are ignored: the frame's bytes decide the decoded FRAME. -/
theorem take_unpackBytes_congr {len : Nat} {ws ws' : List Word} (hws : ws.length = wordsFor len)
    (hws' : ws'.length = wordsFor len) (hbytes : ∀ k, k < len → packedByte ws' k = packedByte ws k) :
    (unpackBytes ws').take len = (unpackBytes ws).take len := by
  refine List.ext_getElem ((length_take_unpackBytes hws').trans (length_take_unpackBytes hws).symm) fun k hk' hk => ?_
  have hlt : k < len := length_take_unpackBytes hws ▸ hk
  rw [List.getElem_eq_getD 0, List.getElem_eq_getD 0, getD_take_unpackBytes ws' hlt, getD_take_unpackBytes ws hlt,
    hbytes k hlt]

/-- Settles O8: a FRAME's bytes are the first `len` of its trailing words. -/
theorem frameBytesComeFromTheirWords : Obligations.FrameBytesComeFromTheirWords := by
  intro len rsv ws rest hws
  refine ⟨⟨_, decode_headWord hws rest, length_take_unpackBytes hws, fun k hk => getD_take_unpackBytes ws hk⟩,
    fun ws' hws' hbytes => ?_⟩
  rw [decode_headWord (o := .frame) hws, decode_headWord (o := .frame) hws', commandOf, commandOf,
    take_unpackBytes_congr hws hws' hbytes]

/-! ## Illegal head words (R117) -/

theorem opcodeOf_eq_some_iff {op : BitVec 8} {o : Opcode} : opcodeOf op = some o ↔ op = o.code := by
  constructor
  · intro h
    unfold opcodeOf at h
    split at h <;> cases h <;> exact BitVec.eq_of_toNat_eq ‹_›
  · rintro rfl
    exact opcodeOf_code o

/-- The legal OP values, in the order of the opcode map (R112). -/
theorem mem_legalOps_iff {op : BitVec 8} :
    op ∈ [0x00#8, 0x01#8, 0x02#8, 0x03#8, 0x10#8, 0x11#8, 0x20#8, 0x21#8] ↔ ∃ o : Opcode, op = o.code := by
  constructor
  · intro h
    fin_cases h
    exacts [⟨.nop, rfl⟩, ⟨.genc, rfl⟩, ⟨.gdec, rfl⟩, ⟨.gerr, rfl⟩, ⟨.frame, rfl⟩, ⟨.srst, rfl⟩, ⟨.csrr, rfl⟩, ⟨.csrw, rfl⟩]
  · rintro ⟨o, rfl⟩
    cases o <;> decide

theorem opcodeOf_eq_none_iff (op : BitVec 8) :
    opcodeOf op = none ↔ op ∉ [0x00#8, 0x01#8, 0x02#8, 0x03#8, 0x10#8, 0x11#8, 0x20#8, 0x21#8] := by
  simp only [mem_legalOps_iff, ← opcodeOf_eq_some_iff, ← Option.isSome_iff_exists, Option.not_isSome_iff_eq_none]

namespace Machine

/-- The EVT word whose info is an OP value (R127). -/
theorem evtRsp_op (code op : BitVec 8) : evtRsp code (op.setWidth 16) = 0xE0#8 ++ code ++ 0#8 ++ op := by
  rw [evtRsp, BitVec.setWidth_eq_append (by decide), BitVec.append_assoc (x₂ := 0#8)]
  rfl

/-- What the poll leaves where the words of a whole command have arrived. -/
theorem poll_eq {s : State} {h : Word} {trail rest : List Word} (hw : s.cmdPart ++ s.cmdIn = h :: (trail ++ rest))
    (hlen : commandLength s.ptfrLen.toNat h = trail.length + 1) :
    s.poll = { s.buildTick with cmdPart := h :: trail, cmdIn := rest } := by
  rw [← buildTick_ptfrLen] at hlen
  rw [State.poll, receive_cons s.buildTick (by rwa [buildTick_cmdPart, buildTick_cmdIn]), hlen, List.take_succ_cons,
    List.drop_succ_cons, List.take_left, List.drop_left]

/-- The rejection of an illegal head word consumes it and raises ILLEGAL_CMD(OP), bit 0 (R117). -/
theorem rejectIllegal_eq (s : State) (op : BitVec 8) :
    s.rejectIllegal op = { s with
      cmdPart := []
      evtPending := s.evtPending ||| 0x00000001
      rspOut := s.rspOut ++ (if s.evtOutEn then [0xE001#16 ++ 0#8 ++ op] else []) } := by
  rw [State.rejectIllegal, raise_eq, evtWords, evtRsp_op]
  rfl

/-- The rejection of reserved bits consumes the command's words and raises RESERVED_NONZERO(OP), bit 1 (R116). -/
theorem rejectReserved_eq (s : State) (o : Opcode) :
    s.rejectReserved o = { s with
      cmdPart := []
      evtPending := s.evtPending ||| 0x00000002
      rspOut := s.rspOut ++ (if s.evtOutEn then [0xE002#16 ++ 0#8 ++ o.code] else []) } := by
  rw [State.rejectReserved, raise_eq, evtWords, evtRsp_op]
  rfl

theorem buildTick_evtOutEn (s : State) : s.buildTick.evtOutEn = s.evtOutEn := by
  rw [State.evtOutEn, State.evtOutEn, buildTick_ctrl]

/-- Settles O13: an illegal head word is a 1-word command, and its rejection raises ILLEGAL_CMD. -/
theorem illegalHeadIsConsumedAlone : Obligations.IllegalHeadIsConsumedAlone := by
  refine ⟨opcodeOf_eq_none_iff, fun s h rest hop hw => ?_⟩
  have hlen : commandLength s.ptfrLen.toNat h = 1 := by
    rw [commandLength, headOp, hop]
  have hdecode : decode s.buildTick.ptfrLen.toNat [h] = .illegal (headOp h) [] := by
    rw [decode, headOp, hop]
  rw [step_eq, poll_eq (trail := []) hw hlen, hdecode, runDecoded, rejectIllegal_eq, headOp]
  have hout : State.evtOutEn { s.buildTick with cmdPart := [h], cmdIn := rest } = s.evtOutEn := buildTick_evtOutEn s
  rw [hout]
  dsimp only
  rw [buildTick_evtPending, buildTick_rspOut]

/-! ## Reserved bits (R116) -/

/-- Settles O14: past its hold, such a command is only rejected. -/
theorem reservedBitsRejectTheCommand : Obligations.ReservedBitsRejectTheCommand := by
  intro s i hreserved hready
  rw [exec_of_ready hready, hreserved, whenReservedZero_set, rejectReserved_eq]

/-! ## A step with a whole command (R110, R114) -/

/-- Words in front of those that a decoded command leaves are that command's: a head word and as many more as it announces. -/
theorem decode_append_eq_command {len : Nat} {words rest : List Word} {i : Instr}
    (hd : decode len (words ++ rest) = .command i rest) :
    ∃ h trail, words = h :: trail ∧ commandLength len h = trail.length + 1 ∧ decode len words = .command i [] := by
  cases words with
  | nil =>
    cases rest with
    | nil => cases hd
    | cons h ws =>
      obtain ⟨o, trail, -, -, hws, -⟩ := decode_cons_eq_command_iff.mp hd
      have hlength := congrArg List.length hws
      simp only [List.length_append, List.length_cons] at hlength
      omega
  | cons h ws =>
    obtain ⟨o, trail, hop, hlen, hws, hi⟩ := decode_cons_eq_command_iff.mp hd
    obtain rfl := List.append_cancel_right hws
    refine ⟨h, ws, rfl, ?_, decode_cons_eq_command_iff.mpr ⟨o, ws, hop, hlen, (List.append_nil ws).symm, hi⟩⟩
    simp only [commandLength, hop, hlen]
    exact Nat.add_comm 1 _

/-- Settles O10: the poll takes the command's words, and they decode as they did with the words behind them. -/
theorem stepRunsTheDecodedCommand : Obligations.StepRunsTheDecodedCommand := by
  intro s i words rest hw hd
  obtain ⟨h, trail, rfl, hlen, hwhole⟩ := decode_append_eq_command hd
  rw [step_eq, poll_eq hw hlen]
  dsimp only
  rw [buildTick_ptfrLen, hwhole, runDecoded]

end Machine

end Sys2Proof
end

