-- ==== Sys2Proof/Proofs/Golay.lean ====
section
/-! PROOFS. The laws of the Golay code and of `gdec`, for every valid parameter set (40_golay R155 to R159). Each follows from one
fact: two patterns of one syndrome whose weights sum to less than 8 are equal. -/

-- Proofs are elaborated one after another: in parallel, they and the tests' kernel checks exceed the check's memory limit.
set_option deprecated.oldSectionVars true

namespace Sys2Proof

/-! ## Weights (00_scope R21) -/

theorem countP_xor_le {α : Type} (p q : α → Bool) (l : List α) :
    l.countP (fun a => p a ^^ q a) ≤ l.countP p + l.countP q := by
  induction l with
  | nil => rfl
  | cons a l ih =>
    simp only [List.countP_cons]
    cases p a <;> cases q a <;> simp <;> omega

theorem popcount_xor_le {w : Nat} (a b : BitVec w) : popcount (a ^^^ b) ≤ popcount a + popcount b := by
  simp only [popcount, BitVec.getLsbD_xor]
  exact countP_xor_le _ _ _

@[simp] theorem popcount_zero {w : Nat} : popcount (0#w) = 0 := by simp [popcount]

theorem popcount_eq_zero_iff {w : Nat} {v : BitVec w} : popcount v = 0 ↔ v = 0#w := by
  refine ⟨fun h => BitVec.eq_of_getLsbD_eq fun i hi => ?_, fun h => h ▸ popcount_zero⟩
  simpa using List.countP_eq_zero.mp h i (List.mem_range.mpr hi)

theorem popcount_twoPow_le_one (w i : Nat) : popcount (BitVec.twoPow w i) ≤ 1 := by
  refine (List.countP_mono_left fun j _ hj => ?_).trans (List.nodup_iff_count_le_one.mp List.nodup_range i)
  simp only [BitVec.getLsbD_twoPow, Bool.and_eq_true, decide_eq_true_eq] at hj
  exact beq_iff_eq.mpr hj.2.symm

namespace Machine

/-! ## The code and its syndromes (R152, R154, R157) -/

theorem encT_xor (g : Rows) (d d' : BitVec 12) : encT g (d ^^^ d') = encT g d ^^^ encT g d' := by
  rw [encT, par, mulM_xor]
  exact BitVec.xor_append.symm

theorem encT_zero (g : Rows) : encT g 0 = 0 := by
  rw [encT, par]
  exact (congrArg (0#12 ++ ·) (mulM_zero g)).trans (by decide)

@[simp] theorem dataHalf_encT (g : Rows) (d : BitVec 12) : dataHalf (encT g d) = d := dataHalf_append d _

theorem syn_zero (g : Rows) : syn g 0 = 0 := by
  have h := syn_xor g 0 0
  rwa [BitVec.xor_self, BitVec.xor_self] at h

section Code

variable {g : Rows}

theorem syn_encT (hg : golayValid g = true) (d : BitVec 12) : syn g (encT g d) = 0 := by
  obtain ⟨-, hinv⟩ := (golayValid_iff g).mp hg
  rw [syn, encT, dataHalf_append, parityHalf_append, synT, hinv]
  exact BitVec.xor_self

/-- `G_P` inverts `H_P`, as `H_P` inverts `G_P`: 12-bit data are finitely many. -/
theorem par_synT (hg : golayValid g = true) (x : BitVec 12) : par g (synT g x) = x := by
  obtain ⟨-, hinv⟩ := (golayValid_iff g).mp hg
  have hleft : Function.LeftInverse (synT g) (par g) := hinv
  exact hleft.rightInverse_of_surjective (Finite.injective_iff_surjective.mp hleft.injective) x

theorem syn_eq_zero_iff (hg : golayValid g = true) (r : BitVec 24) : syn g r = 0 ↔ ∃ d, r = encT g d := by
  constructor
  · intro h
    have hdata : dataHalf r = synT g (parityHalf r) := BitVec.xor_eq_zero_iff.mp h
    refine ⟨dataHalf r, ?_⟩
    rw [encT, hdata, par_synT hg, ← hdata, halves_append]
  · rintro ⟨d, rfl⟩
    exact syn_encT hg d

theorem eq_zero_of_light_codeword (hg : golayValid g = true) {d : BitVec 12} (hd : popcount (encT g d) < 8) : d = 0 := by
  obtain ⟨hweight, -⟩ := (golayValid_iff g).mp hg
  by_contra hne
  exact absurd (hweight d hne) (Nat.not_le.mpr hd)

/-- Two patterns of one syndrome differ by a codeword, and one of weight less than 8 is 0. -/
theorem eq_of_syn_eq (hg : golayValid g = true) {e e' : BitVec 24} (hs : syn g e = syn g e')
    (hw : popcount e + popcount e' < 8) : e = e' := by
  have hsyn : syn g (e ^^^ e') = 0 := by
    rw [syn_xor, hs]
    exact BitVec.xor_self
  obtain ⟨d, hd⟩ := (syn_eq_zero_iff hg _).mp hsyn
  have hlight : popcount (encT g d) < 8 := hd ▸ (popcount_xor_le e e').trans_lt hw
  rw [eq_zero_of_light_codeword hg hlight, encT_zero] at hd
  exact BitVec.xor_eq_zero_iff.mp hd

end Code

/-- Settles O32: a zero syndrome makes the data half the parity's preimage, and codewords are too far apart for light patterns. -/
theorem syndromesTellLightPatternsApart : Obligations.SyndromesTellLightPatternsApart := fun _ hg =>
  ⟨syn_eq_zero_iff hg, fun _ _ he he' hs => eq_of_syn_eq hg hs (by omega)⟩

/-! ## The pattern of a syndrome (R156) -/

theorem popcount_flipBits_le (g : Rows) (l : List Nat) :
    popcount (flipBits (l.map fun i => (BitVec.twoPow 24 i, syn g (BitVec.twoPow 24 i)))) ≤ l.length := by
  induction l with
  | nil => exact popcount_zero.le
  | cons i l ih => exact (popcount_xor_le _ _).trans (Nat.add_le_add ih (popcount_twoPow_le_one 24 i))

section Tables

variable {g : Rows} {x : BitVec 12} {e : BitVec 24}

/-- A pattern that is found has weight at most 3 and the syndrome asked for. -/
theorem patternOf_some (h : patternOf g x = some e) : popcount e ≤ 3 ∧ syn g e = x := by
  obtain ⟨sub, hsub, hlen, rfl, rfl⟩ := findFlips_some h
  obtain ⟨l, -, rfl⟩ := List.sublist_map_iff.mp hsub
  rw [List.length_map] at hlen
  exact ⟨(popcount_flipBits_le g l).trans hlen, (flipSyn_eq g l).symm⟩

theorem patternOf_syn_of_light (hg : golayValid g = true) (he : popcount e ≤ 3) : patternOf g (syn g e) = some e := by
  cases h : patternOf g (syn g e) with
  | none => exact absurd rfl (patternOf_none h e he)
  | some e' =>
    obtain ⟨he', hs⟩ := patternOf_some h
    rw [eq_of_syn_eq hg hs (by omega)]

theorem patternOf_zero (hg : golayValid g = true) : patternOf g 0 = some 0 := by
  have h := patternOf_syn_of_light (e := 0) hg (popcount_zero.trans_le (by decide))
  rwa [syn_zero] at h

theorem patternOf_syn_of_four (hg : golayValid g = true) (he : popcount e = 4) : patternOf g (syn g e) = none := by
  cases h : patternOf g (syn g e) with
  | none => rfl
  | some e' =>
    obtain ⟨he', hs⟩ := patternOf_some h
    obtain rfl := eq_of_syn_eq hg hs (by omega)
    omega

/-! ## The tables (R155, R156) -/

theorem corT_of_some (h : patternOf g x = some e) : corT g x = dataHalf e := by rw [corT, h]

theorem corT_of_none (h : patternOf g x = none) : corT g x = 0xFFF := by rw [corT, h]

theorem errT_of_none (h : patternOf g x = none) : errT g x = 4 := by rw [errT, h]

theorem toNat_errT_of_some (h : patternOf g x = some e) : (errT g x).toNat = popcount e := by
  obtain ⟨hw, -⟩ := patternOf_some h
  rw [errT, h, BitVec.toNat_ofNat]
  exact Nat.mod_eq_of_lt (by omega)

theorem toNat_errT_le_four (g : Rows) (x : BitVec 12) : (errT g x).toNat ≤ 4 := by
  cases h : patternOf g x with
  | none => exact (congrArg BitVec.toNat (errT_of_none h)).le
  | some e =>
    obtain ⟨hw, -⟩ := patternOf_some h
    rw [toNat_errT_of_some h]
    omega

theorem patternOf_of_errT_four (h : errT g x = 4) : patternOf g x = none := by
  cases hp : patternOf g x with
  | none => rfl
  | some e =>
    obtain ⟨hw, -⟩ := patternOf_some hp
    have hfour : popcount e = 4 := (toNat_errT_of_some hp).symm.trans (congrArg BitVec.toNat h)
    omega

theorem errT_zero (hg : golayValid g = true) : errT g 0 = 0 :=
  BitVec.eq_of_toNat_eq ((toNat_errT_of_some (patternOf_zero hg)).trans popcount_zero)

theorem errT_eq_zero_iff (hg : golayValid g = true) : errT g x = 0 ↔ x = 0 := by
  refine ⟨fun h => ?_, fun h => h ▸ errT_zero hg⟩
  cases hp : patternOf g x with
  | none => exact absurd ((errT_of_none hp).symm.trans h) (by decide)
  | some e =>
    obtain ⟨-, hs⟩ := patternOf_some hp
    have hweight : popcount e = 0 := (toNat_errT_of_some hp).symm.trans (congrArg BitVec.toNat h)
    rw [← hs, popcount_eq_zero_iff.mp hweight]
    exact syn_zero g

end Tables

/-- Settles O33: the search finds the pattern that fills an entry, and finds none for an entry nothing fills. -/
theorem tablesAreTheFilledTables : Obligations.TablesAreTheFilledTables := by
  intro g hg
  refine ⟨corT_of_some (patternOf_zero hg), errT_zero hg, fun e _ he => ?_, fun x hx hunfilled => ?_⟩
  · have hp := patternOf_syn_of_light hg he
    exact ⟨corT_of_some hp, toNat_errT_of_some hp⟩
  · cases hp : patternOf g x with
    | none => exact ⟨corT_of_none hp, errT_of_none hp⟩
    | some e =>
      obtain ⟨hw, rfl⟩ := patternOf_some hp
      have hne : popcount e ≠ 0 := fun h => hx (popcount_eq_zero_iff.mp h ▸ syn_zero g)
      exact absurd rfl (hunfilled e (Nat.one_le_iff_ne_zero.mpr hne) hw)

/-! ## `gdec` (R158, R159) -/

/-- The tables see the error alone, since a codeword's syndrome is 0. -/
theorem gdec_encT_xor {g : Rows} (hg : golayValid g = true) (m : BitVec 12) (e : BitVec 24) :
    gdec g (encT g m ^^^ e) = (m ^^^ dataHalf e ^^^ corT g (syn g e), errT g (syn g e)) := by
  have hsyn : syn g (encT g m ^^^ e) = syn g e := by
    rw [syn_xor, syn_encT hg]
    exact BitVec.zero_xor
  rw [gdec, hsyn, dataHalf_xor, dataHalf_encT]

theorem gdec_encT {g : Rows} (hg : golayValid g = true) (m : BitVec 12) : gdec g (encT g m) = (m, 0) := by
  rw [gdec, syn_encT hg, corT_of_some (patternOf_zero hg), errT_zero hg, dataHalf_encT]
  exact congrArg (·, _) BitVec.xor_zero

/-- Settles O34: the table entry of the error's syndrome is the error. -/
theorem upToThreeFlipsAreCorrected : Obligations.UpToThreeFlipsAreCorrected := by
  intro g m e hg he
  have hp := patternOf_syn_of_light hg he
  rw [gdec_encT_xor hg, corT_of_some hp]
  exact ⟨by rw [BitVec.xor_assoc, BitVec.xor_self, BitVec.xor_zero], toNat_errT_of_some hp⟩

/-- Settles O35: a pattern of weight 4 shares its syndrome with no lighter one, so nothing fills its entry. -/
theorem fourFlipsAreUncorrectable : Obligations.FourFlipsAreUncorrectable := by
  intro g m e hg he
  have hp := patternOf_syn_of_four hg he
  rw [gdec_encT_xor hg, corT_of_none hp, errT_of_none hp]

/-- Settles O36: codewords are closed under exclusive or, and the count is an entry of the error table. -/
theorem errorCountsOfAnyWord : Obligations.ErrorCountsOfAnyWord := by
  intro g hg
  refine ⟨fun m d => ?_, fun r => ⟨toNat_errT_le_four g _, ?_, fun h => ?_⟩⟩
  · rw [← encT_xor, gdec_encT hg]
  · exact (errT_eq_zero_iff hg).trans (syn_eq_zero_iff hg r)
  · rw [gdec, corT_of_none (patternOf_of_errT_four h)]

end Machine

end Sys2Proof
end

