-- ==== Sys2Proof/Proofs/GolayCommands.lean ====
section
/-! PROOFS. GENC, GDEC and GERR once the tables are built (40_golay R162 to R164). -/

-- Proofs are elaborated one after another: in parallel, they and the tests' kernel checks exceed the check's memory limit.
set_option deprecated.oldSectionVars true

namespace Sys2Proof.Machine

/-! ## The responses bit by bit (30_encoding R120, R121) -/

theorem gdecRsp_eq_or (e : BitVec 3) (d : BitVec 12) :
    gdecRsp e d = 0x82000000#32 ||| (e.setWidth 32 <<< 12) ||| d.setWidth 32 :=
  (BitVec.setWidth_eq _).symm.trans BitVec.setWidth_append_append_eq_shiftLeft_setWidth_or

theorem gerrRsp_eq_or (e : BitVec 3) : gerrRsp e = 0x83000000#32 ||| e.setWidth 32 :=
  (BitVec.setWidth_eq _).symm.trans BitVec.setWidth_append_eq_shiftLeft_setWidth_or

/-! ## The commands -/

/-- A Golay command whose reserved bits are 0 runs once the tables are built. -/
theorem exec_of_built {s : State} {i : Instr} (hs : s.tables = .built) (hzero : i.reservedZero = true)
    (hlength : i.lengthLegal = true) : exec i s = .next (afterCommand s i) := by
  rw [exec_of_ready fun _ => hs, hzero, whenReservedZero_zero, if_pos hlength]

/-! ## The worked examples under the default `G_P` -/

theorem encT_default_abc : encT Config.defaultGP 0xABC = 0xABC11E := by decide

theorem encT_default_ones : encT Config.defaultGP 0xFFF = 0xFFFFFF := by decide

/-- Bits 3 and 17 of a codeword flipped (R163). -/
theorem gdec_default_twoFlips : gdec Config.defaultGP 0xA9C116 = (0xABC, 2) := by
  obtain ⟨hdata, hcount⟩ := upToThreeFlipsAreCorrected _ 0xABC 0x020008 golayValid_default (by decide)
  rw [encT_default_abc] at hdata hcount
  exact Prod.ext hdata (BitVec.eq_of_toNat_eq hcount)

/-- The low four bits of a codeword flipped (R164). -/
theorem gdec_default_fourFlips : (gdec Config.defaultGP 0xABC111).2 = 4 := by
  have h := fourFlipsAreUncorrectable _ 0xABC 0x00000F golayValid_default (by decide)
  rw [encT_default_abc] at h
  exact congrArg Prod.snd h

/-- Settles O29: the codeword, the reserved form and the examples. -/
theorem gencAnswersTheCodeword : Obligations.GencAnswersTheCodeword := by
  refine ⟨fun s m hs => ⟨exec_of_built hs rfl rfl, fun rsv hrsv => ?_⟩, encT_zero, congrArg gencRsp encT_default_abc,
    encT_default_ones⟩
  have hset : (Instr.genc rsv m).reservedZero = false := beq_false_of_ne hrsv
  rw [exec_of_ready fun _ => hs, hset, whenReservedZero_set]
  rfl

/-- Settles O30: the response's fields, and the examples from the laws of `gdec`. -/
theorem gdecAnswersDataAndCount : Obligations.GdecAnswersDataAndCount := by
  refine ⟨fun s r hs => ?_, gdec_default_twoFlips, encT_zero _ ▸ gdec_encT golayValid_default 0,
    encT_default_ones ▸ gdec_encT golayValid_default 0xFFF⟩
  rw [exec_of_built hs rfl rfl, ← gdecRsp_eq_or]
  rfl

/-- Settles O31: the response's fields, and the example from the law of four flips. -/
theorem gerrAnswersTheCount : Obligations.GerrAnswersTheCount := by
  refine ⟨fun s r hs => ?_, gdec_default_fourFlips⟩
  rw [exec_of_built hs rfl rfl, ← gerrRsp_eq_or]
  rfl

end Sys2Proof.Machine
end

