-- ==== Sys2Proof/Proofs/Unpack.lean ====
section
/-! PROOFS. `unpack` (41_ptfr_parser R203 to R210): what it answers on any bytes, and on the bytes of a PTDP that was sent. -/

-- Proofs are elaborated one after another: in parallel, they and the tests' kernel checks exceed the check's memory limit.
set_option deprecated.oldSectionVars true

namespace Sys2Proof.Machine

/-! ## Golay accounting (R210) -/

/-- Everything that counting one decode writes. -/
theorem countGolay_eq (s : State) (e : BitVec 3) (field : BitVec 16) :
    s.countGolay e field = { s with
      counters := { s.counters with
        corrBits := s.counters.corrBits + (if e = 4 then 0 else e.setWidth 32)
        uncorr := s.counters.uncorr + (if e = 4 then 1 else 0) }
      evtPending := if e = 4 then s.evtPending ||| 0x00000400 else s.evtPending
      rspOut := s.rspOut ++ (if e = 4 ∧ s.evtOutEn = true then [evtRsp 0x12 field] else []) } := by
  by_cases he : e = 4
  · subst he
    rw [countGolay_uncorr, raise_eq]
    simp only [State.countUncorr, evtWords, if_true, true_and, BitVec.ofNat_eq_ofNat, BitVec.add_zero]
    rfl
  · rw [countGolay_corr s he]
    have hne : ¬(e = 4 ∧ s.evtOutEn = true) := fun h => he h.1
    have huncorr : s.counters.uncorr + 0 = s.counters.uncorr := BitVec.add_zero _
    rw [if_neg he, if_neg he, if_neg he, if_neg hne, List.append_nil, huncorr]
    rfl

/-- An event that two causes in a row may raise becomes pending once. -/
theorem pending_either (a b : Prop) [Decidable a] [Decidable b] (p m : Word) :
    (if b then (if a then p ||| m else p) ||| m else if a then p ||| m else p) = if a ∨ b then p ||| m else p := by
  by_cases ha : a <;> by_cases hb : b <;>
    simp only [ha, hb, if_true, if_false, or_true, or_false, or_self, BitVec.or_assoc, BitVec.or_self]

/-- Everything that counting a header's two decodes writes. -/
theorem countHeader_eq {s : State} {b : List Byte} {e1 e2 : BitVec 3} (h1 : (decodeHeader s.cfg.gP b).2.1 = e1)
    (h2 : (decodeHeader s.cfg.gP b).2.2 = e2) :
    countHeader s b = { s with
      counters := { s.counters with
        corrBits := s.counters.corrBits + (if e1 = 4 then 0 else e1.setWidth 32) + (if e2 = 4 then 0 else e2.setWidth 32)
        uncorr := s.counters.uncorr + (if e1 = 4 then 1 else 0) + (if e2 = 4 then 1 else 0) }
      evtPending := if e1 = 4 ∨ e2 = 4 then s.evtPending ||| 0x00000400 else s.evtPending
      rspOut := s.rspOut ++ (if e1 = 4 ∧ s.evtOutEn = true then [0xE0120001] else [])
        ++ (if e2 = 4 ∧ s.evtOutEn = true then [0xE0120002] else []) } := by
  rw [countHeader, h1, h2, countGolay_eq, countGolay_eq]
  dsimp only
  rw [pending_either]
  rfl

/-! ## The answers (R209) -/

/-- Fewer than six bytes are no header. -/
theorem unpack_short {s : State} {b : List Byte} (hb : b.length < 6) : s.unpack b = (.inc, s) := by
  rw [State.unpack, if_pos hb]

/-- What a whole header decides. -/
theorem unpack_header {s : State} {b : List Byte} (hb : 6 ≤ b.length) :
    s.unpack b =
      if s.gfailResync = true ∧ ((decodeHeader s.cfg.gP b).2.1 = 4 ∨ (decodeHeader s.cfg.gP b).2.2 = 4) then
        (.gfail, countHeader s b)
      else if 2048 < (decodeHeader s.cfg.gP b).1.length.toNat then
        (.len (decodeHeader s.cfg.gP b).1.length, countHeader s b)
      else if b.length < 6 + (decodeHeader s.cfg.gP b).1.length.toNat then (.inc, s)
      else (.ok (decodeHeader s.cfg.gP b).1 ((b.drop 6).take (decodeHeader s.cfg.gP b).1.length.toNat),
        countHeader s b) := by
  have hpayload (n : Nat) : slice b ptdpHdrBytes (ptdpHdrBytes + n) = (b.drop 6).take n := by
    rw [slice, List.drop_take, Nat.add_sub_cancel_left]
  rw [State.unpack, if_neg (Nat.not_lt.mpr hb), ← hpayload]
  simp only [← Nat.sub_lt_iff_lt_add' hb]
  rfl

/-! ## The fields of a header (R204) -/

theorem fragmentOf_code (fr : Fragment) : fragmentOf fr.code = fr := by
  cases fr <;> rfl

theorem headerOf_eq {w1 w2 : BitVec 12} {h : PtdpHeader} (hfragment : h.fragment.code = w1.extractLsb' 6 2)
    (hcontent : h.content = w1.extractLsb' 2 4) (hreserved : h.reserved = w1.extractLsb' 0 2)
    (hlength : h.length = w2 ++ w1.extractLsb' 8 4) : headerOf w1 w2 = h := by
  rw [headerOf, ← hfragment, fragmentOf_code, ← hcontent, ← hreserved, ← hlength]

/-- The length of a header, as the rule computes it. -/
theorem length_field_eq (w1 w2 : BitVec 12) :
    w2 ++ w1.extractLsb' 8 4 = (w2.setWidth 16 <<< 4) ||| (w1.extractLsb' 8 4).setWidth 16 :=
  (BitVec.setWidth_eq _).symm.trans BitVec.setWidth_append_eq_shiftLeft_setWidth_or

/-- The fields read back from the two words they were put in. -/
theorem headerOf_words (h : PtdpHeader) : headerOf h.word1 h.word2 = h := by
  refine headerOf_eq ?_ ?_ ?_ ?_
  · rw [PtdpHeader.word1]
    iterate 2 rw [BitVec.extractLsb'_append_eq_of_le (by decide)]
    exact BitVec.extractLsb'_append_eq_right.symm
  · rw [PtdpHeader.word1, BitVec.extractLsb'_append_eq_of_le (by decide)]
    exact BitVec.extractLsb'_append_eq_right.symm
  · rw [PtdpHeader.word1]
    exact BitVec.extractLsb'_append_eq_right.symm
  · rw [PtdpHeader.word1, PtdpHeader.word2]
    iterate 2 rw [BitVec.extractLsb'_append_eq_of_le (by decide)]
    rw [BitVec.extractLsb'_append_eq_left, BitVec.extractLsb'_append_extractLsb'_eq_extractLsb' (by decide)]
    exact BitVec.extractLsb'_eq_self.symm

/-- Settles O60: a whole header's decodes decide the answer. -/
theorem unpackFollowsTheRule : Obligations.UnpackFollowsTheRule := by
  intro s s1 b w1 w2 e1 e2 n h bad
  refine ⟨unpack_short, fun hb hw1 hw2 hn hh hbad hs1 => ?_⟩
  obtain ⟨hfragment, hcontent, hreserved, hlength⟩ := hh
  have hdecoded : decodeHeader s.cfg.gP b = (h, e1, e2) := by
    have h1 : gdec s.cfg.gP (codewordAt b 0) = (w1, e1) := hw1.symm
    have h2 : gdec s.cfg.gP (codewordAt b 3) = (w2, e2) := hw2.symm
    rw [decodeHeader, h1, h2, headerOf_eq hfragment hcontent hreserved (by rw [hlength, hn, length_field_eq])]
  have hcount : countHeader s b = s1 := by
    rw [hs1]
    exact countHeader_eq (by rw [hdecoded]) (by rw [hdecoded])
  rw [unpack_header hb, hdecoded, hcount, hlength]
  have hbad' : bad ↔ s.gfailResync = true ∧ (e1 = 4 ∨ e2 = 4) := hbad
  refine ⟨fun h => if_pos (hbad'.mp h), fun h hlen => ?_, fun h hlen hshort => ?_, fun h hlen hwhole => ?_⟩
  all_goals rw [if_neg (mt hbad'.mpr h)]
  · rw [if_pos hlen]
  · rw [if_neg (Nat.not_lt.mpr hlen), if_pos hshort]
  · rw [if_neg (Nat.not_lt.mpr hlen), if_neg (Nat.not_lt.mpr hwhole)]

/-! ## A PTDP that was sent (R203, R205) -/

/-- The codeword of the first three bytes. -/
theorem codewordAt_bytesOfCodeword (r : BitVec 24) (b : List Byte) : codewordAt (bytesOfCodeword r ++ b) 0 = r := by
  show r.extractLsb' 16 8 ++ r.extractLsb' 8 8 ++ r.extractLsb' 0 8 = r
  iterate 2 rw [BitVec.extractLsb'_append_extractLsb'_eq_extractLsb' (by decide)]
  exact BitVec.extractLsb'_eq_self

/-- Up to three bit errors in a codeword are corrected and counted (40_golay R159), as a pair. -/
theorem gdec_light {g : Rows} (hg : golayValid g = true) (m : BitVec 12) {e : BitVec 24} (he : popcount e ≤ 3) :
    gdec g (encT g m ^^^ e) = (m, BitVec.ofNat 3 (popcount e)) := by
  obtain ⟨hdata, hcount⟩ := upToThreeFlipsAreCorrected g m e hg he
  refine Prod.ext hdata (BitVec.eq_of_toNat_eq ?_)
  rw [hcount, BitVec.toNat_ofNat]
  exact (Nat.mod_eq_of_lt (by omega)).symm

theorem SentPtdp.ok_iff {p : SentPtdp} :
    p.ok = true ↔ p.ptdp.data.length ≤ 2048 ∧ popcount p.err1 ≤ 3 ∧ popcount p.err2 ≤ 3 := by
  simp only [SentPtdp.ok, Bool.and_eq_true, decide_eq_true_eq, and_assoc]

theorem SentPtdp.length_wire (g : Rows) (p : SentPtdp) : (p.wire g).length = 6 + p.ptdp.data.length := by
  simp only [SentPtdp.wire, List.length_append]
  rfl

section Sent

variable {p : SentPtdp}

/-- The length field holds the payload's length. -/
theorem SentPtdp.toNat_length (hp : p.ok = true) : p.ptdp.header.length.toNat = p.ptdp.data.length := by
  obtain ⟨hlen, -, -⟩ := SentPtdp.ok_iff.mp hp
  rw [Ptdp.header, BitVec.toNat_ofNat]
  exact Nat.mod_eq_of_lt (by omega)

theorem SentPtdp.ptdpSize_header (hp : p.ok = true) (g : Rows) : ptdpSize p.ptdp.header = (p.wire g).length := by
  rw [ptdpSize, SentPtdp.toNat_length hp, SentPtdp.length_wire]

/-- Six bytes at the front of a sent PTDP decode to its header. -/
theorem SentPtdp.decodeHeader_wire {g : Rows} (hg : golayValid g = true) (hp : p.ok = true) (b : List Byte) :
    decodeHeader g (bytesOfCodeword (encT g p.ptdp.header.word1 ^^^ p.err1) ++
        (bytesOfCodeword (encT g p.ptdp.header.word2 ^^^ p.err2) ++ b)) =
      (p.ptdp.header, BitVec.ofNat 3 (popcount p.err1), BitVec.ofNat 3 (popcount p.err2)) := by
  obtain ⟨-, he1, he2⟩ := SentPtdp.ok_iff.mp hp
  have hsecond (r r' : BitVec 24) : codewordAt (bytesOfCodeword r ++ (bytesOfCodeword r' ++ b)) 3 = r' :=
    codewordAt_bytesOfCodeword r' b
  rw [decodeHeader, codewordAt_bytesOfCodeword, hsecond, gdec_light hg _ he1, gdec_light hg _ he2, headerOf_words]

/-- A light pattern's count is not 4, and as a word it is the pattern's weight. -/
theorem ofNat_popcount_light {e : BitVec 24} (he : popcount e ≤ 3) :
    BitVec.ofNat 3 (popcount e) ≠ 4 ∧ (BitVec.ofNat 3 (popcount e)).setWidth 32 = BitVec.ofNat 32 (popcount e) := by
  generalize popcount e = k at he
  interval_cases k <;> decide

/-- Counting the header of a sent PTDP counts the corrected bits. -/
theorem SentPtdp.countHeader_wire {s : State} {b : List Byte} (hp : p.ok = true)
    (hd : decodeHeader s.cfg.gP b =
      (p.ptdp.header, BitVec.ofNat 3 (popcount p.err1), BitVec.ofNat 3 (popcount p.err2))) :
    countHeader s b = { s with counters := { s.counters with
      corrBits := s.counters.corrBits + BitVec.ofNat 32 (popcount p.err1) + BitVec.ofNat 32 (popcount p.err2) } } := by
  obtain ⟨-, he1, he2⟩ := SentPtdp.ok_iff.mp hp
  obtain ⟨hne1, hw1⟩ := ofNat_popcount_light he1
  obtain ⟨hne2, hw2⟩ := ofNat_popcount_light he2
  rw [countHeader, hd, countGolay_corr _ hne1, countGolay_corr _ hne2, hw1, hw2]
  rfl

/-- What `unpack` answers once a sent PTDP's header is there: the PTDP where its payload is there too. -/
theorem SentPtdp.unpack_header {s : State} {b : List Byte} (hg : golayValid s.cfg.gP = true) (hp : p.ok = true)
    {b' : List Byte} (hb : b = bytesOfCodeword (encT s.cfg.gP p.ptdp.header.word1 ^^^ p.err1) ++
      (bytesOfCodeword (encT s.cfg.gP p.ptdp.header.word2 ^^^ p.err2) ++ b')) :
    s.unpack b = if b'.length < p.ptdp.data.length then (.inc, s) else
      (.ok p.ptdp.header (b'.take p.ptdp.data.length), { s with counters := { s.counters with
        corrBits := s.counters.corrBits + BitVec.ofNat 32 (popcount p.err1) + BitVec.ofNat 32 (popcount p.err2) } }) := by
  obtain ⟨hlen, he1, he2⟩ := SentPtdp.ok_iff.mp hp
  have hd := SentPtdp.decodeHeader_wire hg hp b'
  rw [← hb] at hd
  have hblen : b.length = 6 + b'.length := by
    rw [hb, List.length_append, List.length_append]
    exact (Nat.add_assoc 3 3 b'.length).symm
  have hdrop : b.drop 6 = b' := hb ▸ rfl
  have hgood : ¬(s.gfailResync = true ∧
      (BitVec.ofNat 3 (popcount p.err1) = 4 ∨ BitVec.ofNat 3 (popcount p.err2) = 4)) := fun h =>
    h.2.elim (ofNat_popcount_light he1).1 (ofNat_popcount_light he2).1
  rw [Machine.unpack_header (by omega), SentPtdp.countHeader_wire hp hd, hd]
  dsimp only
  rw [if_neg hgood, SentPtdp.toNat_length hp, if_neg (Nat.not_lt.mpr hlen), hblen, hdrop]
  simp only [Nat.add_lt_add_iff_left]

end Sent

/-- Settles O43: the header decodes to its fields, and its length says whether the payload is there. -/
theorem sentPtdpUnpacks : Obligations.SentPtdpUnpacks := by
  intro s p rest hg hp
  constructor
  · rw [SentPtdp.unpack_header (b' := p.ptdp.data ++ rest) hg hp (by simp only [SentPtdp.wire, List.append_assoc]),
      if_neg (by rw [List.length_append]; omega), List.take_left]
  · intro k hk
    rw [SentPtdp.length_wire] at hk
    obtain hshort | hheader := Nat.lt_or_ge k 6
    · exact unpack_short ((List.length_take_le _ _).trans_lt hshort)
    · obtain ⟨m, rfl⟩ := Nat.exists_eq_add_of_le hheader
      have htake : (p.wire s.cfg.gP).take (6 + m) = bytesOfCodeword (encT s.cfg.gP p.ptdp.header.word1 ^^^ p.err1) ++
          (bytesOfCodeword (encT s.cfg.gP p.ptdp.header.word2 ^^^ p.err2) ++ p.ptdp.data.take m) := by
        rw [SentPtdp.wire, ← List.append_assoc]
        exact List.take_length_add_append (l₁ := bytesOfCodeword _ ++ bytesOfCodeword _) m
      rw [SentPtdp.unpack_header hg hp htake, if_pos (by rw [List.length_take]; omega)]

end Sys2Proof.Machine
end

