-- ==== Sys2Proof/Proofs/PayloadParts.lean ====
section
/-! PROOFS. The parts of a frame's parse, each by itself: reporting a PTDP, RESYNC, the buffers, one round of HL_LOOP and one of
LLP_RUN (41_ptfr_parser R211, R213 to R218). -/

-- Proofs are elaborated one after another: in parallel, they and the tests' kernel checks exceed the check's memory limit.
set_option deprecated.oldSectionVars true

namespace Sys2Proof.Machine

/-! ## What unpacking, reporting and reassembling a PTDP write -/

/-- `t` is `s` but for the counters other than CNT_FRAMES, pending events, responses appended and both contexts: all that is written
for one PTDP (R210, R211, 42_reassembly R270). -/
def PtdpWrites (s t : State) : Prop :=
  ∃ k p ws hc lc, k.frames = s.counters.frames ∧
    t = { s with counters := k, evtPending := p, rspOut := s.rspOut ++ ws, ctxHl := hc, ctxLl := lc }

namespace PtdpWrites

variable {s t : State}

theorem start (s : State) : PtdpWrites s s := ⟨_, _, [], _, _, rfl, by rw [List.append_nil]⟩

theorem count (h : PtdpWrites s t) (k : Counters) (hk : k.frames = t.counters.frames) :
    PtdpWrites s { t with counters := k } := by
  obtain ⟨k', p, ws, hc, lc, hk', rfl⟩ := h
  exact ⟨_, _, _, _, _, hk.trans hk', rfl⟩

theorem emitAll (h : PtdpWrites s t) (ws : List Word) : PtdpWrites s (t.emitAll ws) := by
  obtain ⟨k, p, ws', hc, lc, hk, rfl⟩ := h
  exact ⟨_, _, _, _, _, hk, by rw [State.emitAll, List.append_assoc]⟩

theorem raise (h : PtdpWrites s t) (e : Event) (info : BitVec 16) : PtdpWrites s (t.raise e info) := by
  obtain ⟨k, p, ws, hc, lc, hk, rfl⟩ := h
  exact ⟨_, _, _, _, _, hk, by rw [raise_eq, List.append_assoc]⟩

theorem setCtx (h : PtdpWrites s t) (τ : Latency) (c : Context) : PtdpWrites s (t.setCtx τ c) := by
  obtain ⟨k, p, ws, hc, lc, hk, rfl⟩ := h
  cases τ <;> exact ⟨_, _, _, _, _, hk, rfl⟩

/-- Each operation branches on its state: both branches write no more. -/
theorem branch {c : Prop} [Decidable c] {t u : State} (ht : PtdpWrites s t) (hu : PtdpWrites s u) :
    PtdpWrites s (if c then t else u) :=
  iteInduction (motive := PtdpWrites s) (fun _ => ht) fun _ => hu

theorem countGolay (h : PtdpWrites s t) (e : BitVec 3) (field : BitVec 16) : PtdpWrites s (t.countGolay e field) :=
  branch ((h.count _ (by rfl)).raise _ _) (h.count _ (by rfl))

theorem countHeader (h : PtdpWrites s t) (b : List Byte) : PtdpWrites s (countHeader t b) :=
  (h.countGolay _ _).countGolay _ _

theorem dropChain (h : PtdpWrites s t) (τ : Latency) : PtdpWrites s (t.dropChain τ) := h.setCtx τ _

theorem abandon (h : PtdpWrites s t) (τ : Latency) : PtdpWrites s (t.abandon τ) :=
  branch ((h.raise _ _).dropChain τ) h

theorem record (h : PtdpWrites s t) (τ : Latency) (content : BitVec 4) (bytes : List Byte) :
    PtdpWrites s (t.record τ content bytes) :=
  (h.count _ (by rfl)).emitAll _

theorem raTake (h : PtdpWrites s t) (τ : Latency) (fr : Fragment) (content : BitVec 4) (data : List Byte) :
    PtdpWrites s (t.raTake τ fr content data) :=
  branch h <|
    match fr with
    | .complete => branch ((h.abandon τ).raise _ _) ((h.abandon τ).record τ content data)
    | .first => branch ((h.abandon τ).raise _ _) ((h.abandon τ).setCtx τ _)
    | .middle => branch (branch ((h.raise _ _).dropChain τ) (h.setCtx τ _)) (h.raise _ _)
    | .last => branch (branch ((h.raise _ _).dropChain τ) ((h.record τ _ _).dropChain τ)) (h.raise _ _)

theorem emitPtdp (h : PtdpWrites s t) (τ : Latency) (hdr : PtdpHeader) (data : List Byte) :
    PtdpWrites s (t.emitPtdp τ hdr data) :=
  have hreported : PtdpWrites s (if t.countPtdp.ptdpOutEn then t.countPtdp.emitAll (ptdpRsp τ hdr data) else t.countPtdp) :=
    branch ((h.count _ (by rfl)).emitAll _) (h.count _ (by rfl))
  branch (hreported.raTake τ _ _ _) hreported

theorem unpack {t' : State} {b : List Byte} {u : Unpacked} (h : PtdpWrites s t) (hu : t.unpack b = (u, t')) :
    PtdpWrites s t' := by
  cases u with
  | ok hdr data => obtain ⟨-, -, -, -, rfl⟩ := unpack_ok hu; exact h.countHeader b
  | inc => obtain ⟨rfl, -⟩ := unpack_inc hu; exact h
  | len n => obtain ⟨-, rfl⟩ := unpack_len hu; exact h.countHeader b
  | gfail => obtain ⟨-, rfl⟩ := unpack_gfail hu; exact h.countHeader b

theorem ctrl_eq (h : PtdpWrites s t) : t.ctrl = s.ctrl := by
  obtain ⟨k, p, ws, hc, lc, -, rfl⟩ := h
  rfl

theorem cfg_eq (h : PtdpWrites s t) : t.cfg = s.cfg := by
  obtain ⟨k, p, ws, hc, lc, -, rfl⟩ := h
  rfl

end PtdpWrites

/-! ## Reporting a PTDP (R211) -/

/-- The head word of a PTDP response, field by field (30_encoding R124). -/
theorem ptdpHead_eq_or (τ : Latency) (h : PtdpHeader) :
    ptdpHead τ h = 0x90000000#32 ||| (τ.bit.setWidth 32 <<< 24) ||| (h.fragment.code.setWidth 32 <<< 22) |||
      (h.content.setWidth 32 <<< 18) ||| (h.reserved.setWidth 32 <<< 16) ||| h.length.setWidth 32 := by
  refine (BitVec.setWidth_eq _).symm.trans ?_
  simp only [ptdpHead, BitVec.setWidth_append_eq_shiftLeft_setWidth_or, BitVec.shiftLeft_or_distrib, ← BitVec.shiftLeft_add]
  rfl

/-- Settles O50: counted, then reported, then reassembled. -/
theorem unpackedPtdpIsCountedAndReported : Obligations.UnpackedPtdpIsCountedAndReported := by
  intro s s1 τ h data hs1
  have hreported : (if s.countPtdp.ptdpOutEn then s.countPtdp.emitAll (ptdpRsp τ h data) else s.countPtdp) = s1 := by
    rw [hs1, ← ptdpHead_eq_or, State.ptdpOutEn, countPtdp_ctrl]
    cases s.ctrl.getLsbD 0 with
    | true => rfl
    | false =>
      rw [if_neg Bool.false_ne_true, if_neg Bool.false_ne_true, List.append_nil]
      rfl
  rw [State.emitPtdp, hreported, State.recOutEn, hs1]

/-! ## RESYNC (R218) -/

/-- Everything that abandoning a chain writes (42_reassembly section 2). -/
theorem abandon_eq (s : State) (τ : Latency) :
    s.abandon τ = ({ s with
      evtPending := if (s.ctx τ).active = true then s.evtPending ||| 0x00040000 else s.evtPending
      rspOut := s.rspOut ++ (if (s.ctx τ).active && s.evtOutEn then [evtRsp 0x21 (abandonInfo τ (s.ctx τ).buf)] else []) } :
        State).setCtx τ (if (s.ctx τ).active then { s.ctx τ with active := false, buf := [] } else s.ctx τ) := by
  cases hactive : (s.ctx τ).active with
  | true =>
    rw [abandon_active s hactive, raise_eq, evtWords]
    cases τ <;> rfl
  | false =>
    rw [abandon_idle s hactive]
    simp only [Bool.false_and, Bool.false_eq_true, if_false, List.append_nil]
    cases τ <;> rfl

/-- The EVT word of an abandoned chain (60_exceptions R331). -/
theorem evtRsp_abandonInfo (τ : Latency) (buf : List Byte) :
    evtRsp 0x21 (abandonInfo τ buf) =
      0xE0210000#32 ||| (τ.bit.setWidth 32 <<< 15) ||| BitVec.ofNat 32 (min buf.length 0x7FFF) := by
  have hlen : (BitVec.ofNat 15 (min buf.length 0x7FFF)).setWidth 32 = BitVec.ofNat 32 (min buf.length 0x7FFF) :=
    BitVec.setWidth_ofNat_of_le_of_lt (by decide) (by omega)
  refine (BitVec.setWidth_eq _).symm.trans ?_
  simp only [evtRsp, abandonInfo, BitVec.setWidth_append_eq_shiftLeft_setWidth_or, hlen, ← BitVec.or_assoc]
  rfl

/-- Settles O42: the two chains are abandoned one after the other. -/
theorem resyncDropsRemainderAndChains : Obligations.ResyncDropsRemainderAndChains := by
  intro s
  refine ⟨fun h => ?_, fun h => ?_⟩
  · exact if_neg (ne_true_of_eq_false h)
  · refine (if_pos h).trans ?_
    rw [abandon_eq, abandon_eq, evtRsp_abandonInfo, evtRsp_abandonInfo]
    simp only [Bool.or_eq_true, ← pending_either]
    rfl

/-! ## The HL buffer (R213, R215) -/

theorem offPositions_iff (off : BitVec 11) : offPositions off = true ↔ 0 < off.toNat ∧ off.toNat < 0x7FF := by
  rw [offPositions, Bool.and_eq_true, bne_iff_ne, bne_iff_ne, ne_eq, ne_eq, ← BitVec.toNat_inj, ← BitVec.toNat_inj]
  have hlt : off.toNat < 2048 := off.isLt
  have hzero : (0 : BitVec 11).toNat = 0 := rfl
  have hnone : offsetNone.toNat = 0x7FF := rfl
  omega

theorem not_offPositions {off : BitVec 11} (h : off = 0 ∨ off = 0x7FF) : offPositions off = false := by
  obtain rfl | rfl := h <;> rfl

/-- Settles O51: the first two rows of the table differ in nothing. -/
theorem initialBufferIsTheTable : Obligations.InitialBufferIsTheTable := by
  intro s p off
  have hfresh (h : s.remKind ≠ .bytes) : s.initialBuffer p off =
      if offPositions off then s.positioned p off else (⟨p, 0, s.offchkEn⟩, s) := by
    rw [State.initialBuffer]
    cases hk : s.remKind with
    | none | empty => rfl
    | bytes => exact absurd hk h
  refine ⟨fun hk hpos hlt => ?_, fun hk hoff => ?_, fun hk => ?_⟩
  · rw [hfresh hk, if_pos ((offPositions_iff off).mpr ⟨hpos, hlt⟩), State.positioned]
  · rw [hfresh hk, not_offPositions hoff]
    rfl
  · rw [State.initialBuffer, hk]
    rfl

/-- Settles O52: `off` positions the buffer only at the start of an analysis. -/
theorem bufferAfterLlpRunIsTheTable : Obligations.BufferAfterLlpRunIsTheTable := by
  intro s p off c
  refine ⟨fun hk hpos hlt => ?_, fun hk => ?_, fun hk => ?_⟩
  · simp only [State.hlAfterLlp, hk]
    rw [if_pos ((offPositions_iff off).mpr ⟨hpos, hlt⟩), State.positioned]
  · simp only [State.hlAfterLlp, hk]
  · obtain hk | ⟨hk, hoff⟩ := hk
    · simp only [State.hlAfterLlp, hk]
    · simp only [State.hlAfterLlp, hk]
      rw [not_offPositions hoff, if_neg Bool.false_ne_true]

/-! ## The offset check (R217) -/

theorem probes_iff (n : Nat) (check : Bool) (pos : Int) : probes n check pos = true ↔ check = true ∧ 0 ≤ pos ∧ pos < n := by
  rw [probes, Bool.and_eq_true, Bool.and_eq_true, decide_eq_true_iff, decide_eq_true_iff, and_assoc]

theorem offsetProbe_eq (s : State) (n : Nat) (off : BitVec 11) (check : Bool) (pos : Int) :
    s.offsetProbe n off check pos =
      if check = true ∧ 0 ≤ pos ∧ pos < n ∧ (off.toNat : Int) ≠ pos then
        s.raise .offsetMismatch (BitVec.ofNat 16 pos.toNat) else s := by
  simp only [State.offsetProbe, probes_iff, and_assoc]

/-- Whether the check is still pending behind a probe. -/
theorem pending_after_probe (n : Nat) (check : Bool) (pos : Int) :
    (check && !probes n check pos) = (check && !decide (0 ≤ pos ∧ pos < n)) := by
  cases check with
  | true => rw [probes, Bool.true_and, Bool.true_and, Bool.true_and, Bool.decide_and]
  | false => rfl

/-- The final check, behind a last probe. -/
theorem offsetFinal_eq (s : State) (n : Nat) (off : BitVec 11) (check : Bool) (pos : Int) :
    s.offsetFinal off (check && !probes n check pos) =
      if check = true ∧ ¬ (0 ≤ pos ∧ pos < n) ∧ off ≠ 0x7FF then s.raise .offsetMismatch 0x7FF else s := by
  simp only [State.offsetFinal, pending_after_probe, Bool.and_eq_true, Bool.not_eq_true', decide_eq_false_iff_not, and_assoc]

theorem PtdpWrites.offsetProbe {s t : State} (h : PtdpWrites s t) (n : Nat) (off : BitVec 11) (check : Bool) (pos : Int) :
    PtdpWrites s (t.offsetProbe n off check pos) :=
  branch (h.raise _ _) h

/-! ## One round of HL_LOOP (R216) -/

theorem unpack_nil (s : State) : s.unpack [] = (.inc, s) := unpack_short (by decide)

theorem ne_nil_of_unpack {s s1 : State} {b : List Byte} {u : Unpacked} (hu : s.unpack b = (u, s1)) (hne : u ≠ .inc) :
    b ≠ [] := by
  rintro rfl
  rw [unpack_nil] at hu
  exact hne (Prod.ext_iff.mp hu).1.symm

section HlLoop

variable {s s1 : State} {n : Nat} {off : BitVec 11} {b : List Byte} {pos : Int} {check : Bool} {fuel : Nat}

theorem hlLoop_nil : hlLoop n off (fuel + 1) [] pos check s =
    ((s.offsetProbe n off check pos).offsetFinal off (check && !probes n check pos)).consumed := by
  rw [hlLoop, if_pos rfl]

theorem hlLoop_inc (hb : b ≠ []) (hu : (s.offsetProbe n off check pos).unpack b = (.inc, s1)) :
    hlLoop n off (fuel + 1) b pos check s =
      ((s1.keepRemainder b).offsetFinal off (check && !probes n check pos)).raise .ptdpIncomplete
        (BitVec.ofNat 16 b.length) := by
  rw [hlLoop, if_neg hb, hu]

theorem hlLoop_len {m : BitVec 16} (hu : (s.offsetProbe n off check pos).unpack b = (.len m, s1)) :
    hlLoop n off (fuel + 1) b pos check s = s1.lengthError m := by
  rw [hlLoop, if_neg (ne_nil_of_unpack hu nofun), hu]

theorem hlLoop_gfail (hu : (s.offsetProbe n off check pos).unpack b = (.gfail, s1)) :
    hlLoop n off (fuel + 1) b pos check s = s1.resync := by
  rw [hlLoop, if_neg (ne_nil_of_unpack hu nofun), hu]

theorem hlLoop_ok {h : PtdpHeader} {data : List Byte}
    (hu : (s.offsetProbe n off check pos).unpack b = (.ok h data, s1)) :
    hlLoop n off (fuel + 1) b pos check s =
      hlLoop n off fuel (b.drop (ptdpSize h)) (pos + ptdpSize h) (check && !probes n check pos) (s1.emitPtdp .hl h data) := by
  rw [hlLoop, if_neg (ne_nil_of_unpack hu nofun), hu]

end HlLoop

/-- Bytes that hold no whole PTDP and no header to reject (R209). -/
theorem unpack_eq_inc {s : State} {b : List Byte}
    (h : b.length < 6 ∨ ((decodeHeader s.cfg.gP b).1.length.toNat ≤ 2048 ∧
        b.length < 6 + (decodeHeader s.cfg.gP b).1.length.toNat ∧
        (s.gfailResync = false ∨ ((decodeHeader s.cfg.gP b).2.1 ≠ 4 ∧ (decodeHeader s.cfg.gP b).2.2 ≠ 4)))) :
    s.unpack b = (.inc, s) := by
  obtain hshort | hheader := Nat.lt_or_ge b.length 6
  · exact unpack_short hshort
  · obtain ⟨hlen, hpayload, hgood⟩ := h.resolve_left (Nat.not_lt.mpr hheader)
    have hgood' : ¬(s.gfailResync = true ∧ ((decodeHeader s.cfg.gP b).2.1 = 4 ∨ (decodeHeader s.cfg.gP b).2.2 = 4)) := by
      rintro ⟨hresync, he⟩
      obtain hoff | ⟨he1, he2⟩ := hgood
      · exact Bool.false_ne_true (hoff.symm.trans hresync)
      · exact he.elim he1 he2
    rw [unpack_header hheader, if_neg hgood', if_neg (Nat.not_lt.mpr hlen), if_pos hpayload]

/-- Settles O47: one round of the loop for each answer, with the two offset checks spelt out. -/
theorem hlLoopFollowsTheRule : Obligations.HlLoopFollowsTheRule := by
  intro s s0 n off b pos check fuel hs0
  rw [← offsetProbe_eq] at hs0
  have hwrites : PtdpWrites s s0 := hs0 ▸ (PtdpWrites.start s).offsetProbe n off check pos
  refine ⟨fun s1 h data hu => ?_, fun hpos hinc => ?_, ?_⟩
  · rw [hlLoop_ok (hs0 ▸ hu), pending_after_probe, ptdpSize]
  · have hu : s0.unpack b = (.inc, s0) := unpack_eq_inc (by rwa [hwrites.cfg_eq, State.gfailResync, hwrites.ctrl_eq])
    rw [hlLoop_inc (List.ne_nil_of_length_pos hpos) (hs0 ▸ hu), offsetFinal_eq, ← hs0]
    rfl
  · rw [hlLoop_nil, offsetFinal_eq, ← hs0]
    rfl

/-! ## One round of LLP_RUN (R214) -/

section LlpRun

variable {s s1 : State} {p : List Byte} {off : BitVec 11} {fuel c : Nat}

theorem llpRun_len {n : BitVec 16} (hu : s.unpack (p.drop c) = (.len n, s1)) :
    llpRun p off (fuel + 1) c s = .done (s1.lengthError n) := by
  rw [llpRun, hu]

theorem llpRun_gfail (hu : s.unpack (p.drop c) = (.gfail, s1)) : llpRun p off (fuel + 1) c s = .done s1.resync := by
  rw [llpRun, hu]

theorem llpRun_inc (hu : s.unpack (p.drop c) = (.inc, s1)) :
    llpRun p off (fuel + 1) c s = .done (s1.raise .llpIncomplete (BitVec.ofNat 16 (p.length - c))).resync := by
  rw [llpRun, hu]

variable {h : PtdpHeader} {data : List Byte}

theorem llpRun_ok_noMarker (hu : s.unpack (p.drop c) = (.ok h data, s1)) (hm : p.length ≤ c + ptdpSize h) :
    llpRun p off (fuel + 1) c s = .done ((s1.emitPtdp .ll h data).raise .missingLlpMarker 0).awaitLlp := by
  simp only [llpRun, hu, if_pos hm]

theorem llpRun_ok_lastMarker (hu : s.unpack (p.drop c) = (.ok h data, s1)) (hm : byteAt p (c + ptdpSize h) = 0xFF)
    (hend : c + ptdpSize h + 1 = p.length) : llpRun p off (fuel + 1) c s = .done (s1.emitPtdp .ll h data).awaitLlp := by
  simp only [llpRun, hu, hm, if_neg (show ¬ p.length ≤ c + ptdpSize h by omega), if_pos hend, if_true]

theorem llpRun_ok_nextMarker (hu : s.unpack (p.drop c) = (.ok h data, s1)) (hm : byteAt p (c + ptdpSize h) = 0xFF)
    (hmore : c + ptdpSize h + 1 < p.length) :
    llpRun p off (fuel + 1) c s = llpRun p off fuel (c + ptdpSize h + 1) (s1.emitPtdp .ll h data) := by
  simp only [llpRun, hu, hm, if_neg (show ¬ p.length ≤ c + ptdpSize h by omega), if_neg hmore.ne, if_true]

theorem llpRun_ok_endMarker (hu : s.unpack (p.drop c) = (.ok h data, s1)) (hin : c + ptdpSize h < p.length)
    (hm : byteAt p (c + ptdpSize h) ≠ 0xFF) :
    llpRun p off (fuel + 1) c s = .hl (c + ptdpSize h + 1)
      ((if byteAt p (c + ptdpSize h) = 0x00 then s1.emitPtdp .ll h data
        else (s1.emitPtdp .ll h data).raise .badLlpMarker ((byteAt p (c + ptdpSize h)).setWidth 16)).checkLlpOffset off
          (c + ptdpSize h + 1)) := by
  simp only [llpRun, hu, if_neg (Nat.not_le.mpr hin), if_neg hm]
  split <;> rfl

end LlpRun

/-- Settles O44: one round of each loop for the answers that fail. -/
theorem failedPtdpResyncs : Obligations.FailedPtdpResyncs := by
  intro s s0 s1 n off b p pos check m c fuel hs0
  rw [← offsetProbe_eq] at hs0
  subst hs0
  refine ⟨hlLoop_len, hlLoop_gfail, llpRun_len, llpRun_gfail, fun hu => ?_⟩
  obtain ⟨rfl, -⟩ := unpack_inc hu
  exact llpRun_inc hu

/-- Settles O46: a sent LLP unpacks in the middle of a payload, and the byte behind it is its marker. -/
theorem markerDecidesTheLlpRun : Obligations.MarkerDecidesTheLlpRun := by
  intro s s2 off fuel pre rest m p hg hp hs2
  have hu := (sentPtdpUnpacks s p (m :: rest) hg hp).1
  rw [← List.drop_left (l₁ := pre) (l₂ := p.wire s.cfg.gP ++ m :: rest)] at hu
  have hsize : pre.length + ptdpSize p.ptdp.header = (pre ++ p.wire s.cfg.gP).length := by
    rw [SentPtdp.ptdpSize_header hp s.cfg.gP, List.length_append]
  have hmarker : byteAt (pre ++ (p.wire s.cfg.gP ++ m :: rest)) (pre.length + ptdpSize p.ptdp.header) = m := by
    rw [byteAt, hsize, ← List.append_assoc, List.getD_append_right _ _ _ _ le_rfl, Nat.sub_self]
    rfl
  have hlen : (pre ++ (p.wire s.cfg.gP ++ m :: rest)).length =
      pre.length + ptdpSize p.ptdp.header + 1 + rest.length := by
    rw [hsize, ← List.append_assoc, List.length_append, List.length_cons]
    omega
  rw [List.length_append] at hsize
  have hreported : PtdpWrites s s2 := by
    rw [hs2]
    exact ((PtdpWrites.start s).count _ (by rfl)).emitPtdp _ _ _
  refine ⟨fun hm hrest => ?_, fun hm hrest => ?_, fun hm c s3 hc hs3 => ?_⟩
  · subst hrest
    rw [llpRun_ok_lastMarker hu (hmarker.trans hm) hlen.symm, hs2]
    rfl
  · rw [llpRun_ok_nextMarker hu (hmarker.trans hm), hsize, hs2]
    rw [hlen]
    exact Nat.lt_add_of_pos_right (List.length_pos_iff.mpr hrest)
  · have hctrl : s3.ctrl = s.ctrl := by
      rw [hs3]
      exact PtdpWrites.ctrl_eq (.branch hreported (hreported.raise _ _))
    rw [llpRun_ok_endMarker hu (by omega) (by rwa [hmarker]), hmarker, ← hs2, ← hs3, hsize, ← hc, State.checkLlpOffset,
      State.offchkEn, hctrl]

end Sys2Proof.Machine
end

