-- ==== Sys2Proof/Proofs/FrameOutcomes.lean ====
section
/-! PROOFS. A whole FRAME (41_ptfr_parser R212): from its protected field to its payload, and the states it can end in (R219). -/

-- Proofs are elaborated one after another: in parallel, they and the tests' kernel checks exceed the check's memory limit.
set_option deprecated.oldSectionVars true

namespace Sys2Proof.Machine

/-! ## The command -/

theorem exec_frame_of_built {s : State} {f : List Byte} (hs : s.tables = .built) (hmin : 5 ≤ f.length)
    (hmax : f.length ≤ 2051) : exec (.frame 0 f) s = .next (s.retire.parseFrame f) :=
  exec_of_built hs rfl (by rw [Instr.lengthLegal, Bool.and_eq_true, decide_eq_true_iff, decide_eq_true_iff]; exact ⟨hmin, hmax⟩)

/-- A FRAME that runs has parsed its frame. -/
theorem exec_frame_next {s t : State} {f : List Byte} (hs : s.tables = .built) (h : exec (.frame 0 f) s = .next t) :
    t = s.retire.parseFrame f := by
  rw [exec_of_ready fun _ => hs] at h
  obtain ⟨hset, -⟩ | ⟨-, hrun⟩ := whenReservedZero_next h
  · cases hset
  · split at hrun
    · exact (Host.Outcome.next.inj hrun).symm
    · cases hrun

/-! ## The protected field (R201, R212) -/

/-- The state once PTFR_HDR is out and the protected field is counted. -/
def State.frameOpened (s : State) (f : List Byte) (w0 : BitVec 12) (e0 : BitVec 3) : State :=
  { s with
    cmdPart := []
    counters := { s.counters with
      frames := s.counters.frames + 1
      corrBits := if e0 = 4 then s.counters.corrBits else s.counters.corrBits + e0.setWidth 32
      uncorr := if e0 = 4 then s.counters.uncorr + 1 else s.counters.uncorr }
    evtPending := if e0 = 4 then s.evtPending ||| 0x00000400 else s.evtPending
    rspOut := s.rspOut ++ [ptfrHdr (byteAt f 0) (w0.getLsbD 11) e0 (w0.extractLsb' 0 11)]
      ++ (if e0 = 4 ∧ s.evtOutEn = true then [0xE0120000] else []) }

theorem frameOpened_eq (s : State) (f : List Byte) (w0 : BitVec 12) (e0 : BitVec 3) :
    (s.retire.countFrame.emit (ptfrHdr (byteAt f 0) (llpOf w0) e0 (offOf w0))).countGolay e0 0 = s.frameOpened f w0 e0 := by
  by_cases he : e0 = 4
  · subst he
    rw [countGolay_uncorr, raise_eq]
    simp only [State.frameOpened, if_true, true_and]
    rfl
  · have hne : ¬(e0 = 4 ∧ s.evtOutEn = true) := fun h => he h.1
    rw [countGolay_corr _ he]
    simp only [State.frameOpened, if_neg he, if_neg hne, List.append_nil]
    rfl

/-- Everything that entering the payload writes (R212). -/
theorem enterPayload_eq (s : State) (llp : Bool) : s.enterPayload llp = { s with
    llpPending := false
    evtPending := if s.llpPending = true ∧ llp = false then s.evtPending ||| 0x00008000 else s.evtPending
    rspOut := s.rspOut ++ (if s.llpPending = true ∧ llp = false ∧ s.evtOutEn = true then [0xE0170000] else []) } := by
  rw [State.enterPayload]
  by_cases hmissing : s.llpPending = true ∧ llp = false
  · obtain ⟨hpending, rfl⟩ := hmissing
    simp only [hpending, true_and, if_true]
    rw [raise_eq]
    rfl
  · have hne : ¬(s.llpPending = true ∧ llp = false ∧ s.evtOutEn = true) := fun h => hmissing ⟨h.1, h.2.1⟩
    rw [if_neg hmissing, if_neg hmissing, if_neg hne, List.append_nil]

/-- Where no LLP is missing, entering the payload only clears `llp_pending`. -/
theorem enterPayload_present {s : State} {llp : Bool} (h : s.llpPending = true → llp = true) :
    s.enterPayload llp = { s with llpPending := false } := by
  have hpresent : ¬(s.llpPending = true ∧ llp = false) := fun hm => Bool.false_ne_true (hm.2.symm.trans (h hm.1))
  rw [State.enterPayload, if_neg hpresent]

/-- A FRAME whose protected field does not send the parser to RESYNC parses its payload. -/
theorem parseFrame_payload {s : State} {f : List Byte} {w0 : BitVec 12} {e0 : BitVec 3}
    (hd : gdec s.cfg.gP (codewordAt f 1) = (w0, e0)) (hgood : ¬(e0 = 4 ∧ s.gfailResync = true)) :
    s.retire.parseFrame f = (((s.frameOpened f w0 e0).enterPayload (w0.getLsbD 11)).parsePayload (f.drop 4)
      (w0.getLsbD 11) (w0.extractLsb' 0 11)).frameDone := by
  rw [State.parseFrame, retire_cfg, hd, State.parseDecoded, frameOpened_eq]
  exact if_neg hgood

theorem parseFrame_resync {s : State} {f : List Byte} {w0 : BitVec 12}
    (hd : gdec s.cfg.gP (codewordAt f 1) = (w0, 4)) (hresync : s.gfailResync = true) :
    s.retire.parseFrame f = (s.frameOpened f w0 4).resync.frameDone := by
  rw [State.parseFrame, retire_cfg, hd, State.parseDecoded, frameOpened_eq]
  exact if_pos ⟨rfl, hresync⟩

/-! ## How RESYNC leaves the parser (R218) -/

/-- What RESYNC sets before it ends the chains. -/
def State.loseSync (s : State) : State :=
  { s with remKind := .empty, rem := [], parseState := .resync, llpPending := false }

theorem resync_ptdpWrites (s : State) : PtdpWrites s.loseSync s.resync :=
  .branch (((PtdpWrites.start _).abandon .hl).abandon .ll) (.start _)

/-- The parser's fields after RESYNC. -/
def Resynced (t : State) : Prop :=
  t.remKind = .empty ∧ t.rem = [] ∧ t.parseState = .resync ∧ t.llpPending = false

theorem resynced_of_ptdpWrites {s t : State} (h : PtdpWrites s.loseSync t) : Resynced t := by
  obtain ⟨k, p, ws, hc, lc, -, rfl⟩ := h
  exact ⟨rfl, rfl, rfl, rfl⟩

theorem resynced_resync (s : State) : Resynced s.resync := resynced_of_ptdpWrites (resync_ptdpWrites s)

theorem Resynced.frameDone {t : State} (h : Resynced t) :
    t.frameDone = { t with rspOut := t.rspOut ++ [0x9F900000] } := by
  obtain ⟨hkind, hrem, hstate, hllp⟩ := h
  have hword : frameDoneRsp t.parseState t.remKind t.llpPending t.rem.length = 0x9F900000 := by
    rw [hkind, hrem, hstate, hllp]
    rfl
  rw [State.frameDone, hword]
  rfl

/-- FRAME_DONE of a frame that used its buffer up. -/
theorem frameDone_consumed {s : State} (h : s.llpPending = false) : s.consumed.frameDone =
    { s with remKind := .empty, rem := [], parseState := .aligned, rspOut := s.rspOut ++ [0x9F100000] } := by
  rw [State.frameDone]
  simp only [State.consumed, h]
  rfl

/-- With no chain in progress RESYNC ends none. -/
theorem resync_of_idle {s : State} (hhl : s.ctxHl.active = false) (hll : s.ctxLl.active = false) :
    s.resync = { s with remKind := .empty, rem := [], parseState := .resync, llpPending := false } := by
  obtain ⟨hoff, hon⟩ := resyncDropsRemainderAndChains s
  cases hrec : s.recOutEn with
  | false => exact hoff hrec
  | true =>
    rw [hon hrec, hhl, hll]
    simp only [Bool.false_and, Bool.or_self, Bool.false_eq_true, if_false, List.append_nil]

/-- Settles O41: the counted field decides between RESYNC and the payload. -/
theorem protectedFieldDecidesTheFrame : Obligations.ProtectedFieldDecidesTheFrame := by
  intro s s1 s2 f w0 e0 hs hmin hmax hd hs1 hs2
  have hopened : s.frameOpened f w0 e0 = s1 := hs1.symm
  have hentered : s1.enterPayload (w0.getLsbD 11) = s2 := by
    rw [enterPayload_eq, hs2, hs1]
    rfl
  rw [exec_frame_of_built hs hmin hmax]
  refine ⟨fun hgood => ⟨_, rfl, ?_⟩, fun he hresync => ?_, fun he hresync hhl hll => ?_⟩
  · rw [parseFrame_payload hd (fun h => hgood.elim (absurd h.1) (fun hoff => Bool.false_ne_true (hoff.symm.trans h.2))),
      hopened, hentered]
    rfl
  · subst he
    rw [parseFrame_resync hd hresync, hopened, (resynced_resync s1).frameDone]
  · subst he
    rw [parseFrame_resync hd hresync, (resynced_resync _).frameDone, resync_of_idle (s := s.frameOpened f w0 4) hhl hll]
    simp only [State.frameOpened, if_true, true_and]

/-! ## The protected word's fields -/

theorem llpOf_append (llp : Bool) (off : BitVec 11) : (protectedWord llp off).getLsbD 11 = llp := by
  rw [protectedWord, BitVec.getLsbD_append, if_neg (by decide)]
  exact getLsbD_bit_zero llp

theorem offOf_append (llp : Bool) (off : BitVec 11) : (protectedWord llp off).extractLsb' 0 11 = off :=
  BitVec.extractLsb'_append_eq_right

/-- A frame whose protected field arrives with few errors parses its payload under the `llp` and `off` it was sent with. -/
theorem parseFrame_protectedWord {s : State} {f : List Byte} {llp : Bool} {off : BitVec 11} {e0 : BitVec 3}
    (hd : gdec s.cfg.gP (codewordAt f 1) = (protectedWord llp off, e0)) (he : e0 ≠ 4) :
    s.retire.parseFrame f =
      (((s.frameOpened f (protectedWord llp off) e0).enterPayload llp).parsePayload (f.drop 4) llp off).frameDone := by
  rw [parseFrame_payload hd fun h => he h.1, llpOf_append, offOf_append]

/-- An offset past the payload leaves nothing to parse (R213, R216). -/
theorem parsePayload_beyond {s : State} {p : List Byte} {off : BitVec 11} (hk : s.remKind ≠ .bytes) (hpos : 0 < off.toNat)
    (hlt : off.toNat < 0x7FF) (hp : p.length ≤ off.toNat) :
    s.parsePayload p false off = (s.raise .offsetOutOfRange (off.setWidth 16)).consumed := by
  obtain ⟨hrow, -, -⟩ := initialBufferIsTheTable s p off
  rw [State.parsePayload, if_neg Bool.false_ne_true, hrow hk hpos hlt, List.drop_of_length_le hp, if_pos hp, State.runHl,
    hlLoop_nil, offsetProbe_eq, offsetFinal_eq]
  rfl

/-- An opened frame whose protected field arrived with few errors. -/
theorem frameOpened_corr (s : State) (f : List Byte) (llp : Bool) (off : BitVec 11) {e0 : BitVec 3} (he : e0 ≠ 4) :
    s.frameOpened f (protectedWord llp off) e0 = { s with
      cmdPart := []
      counters := { s.counters with
        frames := s.counters.frames + 1
        corrBits := s.counters.corrBits + e0.setWidth 32 }
      rspOut := s.rspOut ++ [ptfrHdr (byteAt f 0) llp e0 off] } := by
  have hne : ¬(e0 = 4 ∧ s.evtOutEn = true) := fun h => he h.1
  simp only [State.frameOpened, if_neg he, if_neg hne, List.append_nil, llpOf_append, offOf_append]

/-- Settles O40: the field is counted, a missing LLP reported, and the buffer is empty. -/
theorem offsetBeyondPayloadParsesNothing : Obligations.OffsetBeyondPayloadParsesNothing := by
  intro s f off e0 hs hmin hmax hk hd he hoff hnone
  have he4 : e0 ≠ 4 := by
    rintro rfl
    exact absurd he (by decide)
  have hlt : off.toNat < 0x7FF := by
    have h2048 : off.toNat < 2048 := off.isLt
    have hne : off.toNat ≠ 0x7FF := fun h => hnone (BitVec.eq_of_toNat_eq h)
    omega
  have hk' : ((s.frameOpened f (protectedWord false off) e0).enterPayload false).remKind ≠ .bytes := by
    rw [enterPayload_eq]
    exact hk
  have hpending : (if s.llpPending = true then s.evtPending ||| 0x00008000 else s.evtPending) ||| 0x00001000 =
      s.evtPending ||| (if s.llpPending = true then 0x00009000 else 0x00001000) := by
    cases s.llpPending with
    | true => exact BitVec.or_assoc _ _ _
    | false => rfl
  rw [exec_frame_of_built hs hmin hmax, parseFrame_protectedWord (llp := false) hd he4,
    parsePayload_beyond hk' (by omega) hlt (by rwa [List.length_drop]), raise_eq, enterPayload_eq,
    frameOpened_corr s f false off he4]
  rw [frameDone_consumed rfl]
  simp only [and_true, true_and, Bool.and_eq_true, ← hpending]
  rfl

/-! ## A frame as it was sent (R200, R201) -/

/-- The state in which the payload of a frame as it was sent is parsed, `n` errors of its protected field corrected. -/
def State.frameBegun (s : State) (f0 : Byte) (llp : Bool) (off : BitVec 11) (n : Nat) : State :=
  { s with
    cmdPart := []
    counters := { s.counters with
      frames := s.counters.frames + 1
      corrBits := s.counters.corrBits + BitVec.ofNat 32 n }
    llpPending := false
    rspOut := s.rspOut ++ [ptfrHdr f0 llp (BitVec.ofNat 3 n) off] }

/-- A frame sent with at most three errors in its protected field, where no LLP is missing. -/
theorem parseFrame_sent {s : State} (f0 : Byte) {llp : Bool} (off : BitVec 11) {err0 : BitVec 24} (p : List Byte)
    (hg : golayValid s.cfg.gP = true) (he : popcount err0 ≤ 3) (hllp : s.llpPending = true → llp = true) :
    s.retire.parseFrame (f0 :: (bytesOfCodeword (encT s.cfg.gP (protectedWord llp off) ^^^ err0) ++ p)) =
      ((s.frameBegun f0 llp off (popcount err0)).parsePayload p llp off).frameDone := by
  have hd : gdec s.cfg.gP (codewordAt (f0 :: (bytesOfCodeword (encT s.cfg.gP (protectedWord llp off) ^^^ err0) ++ p)) 1) =
      (protectedWord llp off, BitVec.ofNat 3 (popcount err0)) :=
    (congrArg (gdec s.cfg.gP) (codewordAt_bytesOfCodeword _ p)).trans (gdec_light hg _ he)
  obtain ⟨hne, hcount⟩ := ofNat_popcount_light he
  rw [parseFrame_protectedWord hd hne, enterPayload_present (s := s.frameOpened _ _ _) hllp, frameOpened_corr _ _ _ _ hne,
    hcount]
  rfl

/-- Reporting a PTDP with reassembly off (R211). -/
theorem emitPtdp_reported {s : State} (hout : s.ptdpOutEn = true) (hrec : s.recOutEn = false) (τ : Latency)
    (h : PtdpHeader) (data : List Byte) : s.emitPtdp τ h data = s.countPtdp.emitAll (ptdpRsp τ h data) := by
  have hout' : s.countPtdp.ptdpOutEn = true := hout
  have hrec' : (s.countPtdp.emitAll (ptdpRsp τ h data)).recOutEn ≠ true := ne_true_of_eq_false hrec
  rw [State.emitPtdp, if_pos hout', if_neg hrec']

/-! ## One LLP at the end of a frame (R214) -/

/-- What the payload of a frame with an LLP run is, once the run has ended the frame. -/
theorem parsePayload_done {s t : State} {p : List Byte} {off : BitVec 11}
    (h : llpRun p off (p.length + 1) 0 s = .done t) : s.parsePayload p true off = t := by
  rw [State.parsePayload, if_pos rfl, h]

/-- Settles O45: the run's first round ends the frame. -/
theorem llpAtTheEndOfTheFrameWaits : Obligations.LlpAtTheEndOfTheFrameWaits := by
  intro s f0 off p f hg hs hrec hout hp herr1 herr2 hmin hmax
  have hparse (x : List Byte) : s.retire.parseFrame (f0 :: (bytesOfCodeword (encT s.cfg.gP (1#1 ++ off)) ++ x)) =
      ((s.frameBegun f0 true off 0).parsePayload x true off).frameDone := by
    have hsent := parseFrame_sent (err0 := 0#24) f0 off x hg (by decide) fun _ => rfl
    rwa [BitVec.xor_zero] at hsent
  have hu (rest : List Byte) : (s.frameBegun f0 true off 0).unpack (p.wire s.cfg.gP ++ rest) =
      (.ok p.ptdp.header p.ptdp.data, s.frameBegun f0 true off 0) := by
    have hsent := (sentPtdpUnpacks (s.frameBegun f0 true off 0) p rest hg hp).1
    have hnone : BitVec.ofNat 32 (popcount (0 : BitVec 24)) = 0#32 := congrArg _ popcount_zero
    rwa [herr1, herr2, hnone, BitVec.add_zero, BitVec.add_zero] at hsent
  have hreported : (s.frameBegun f0 true off 0).emitPtdp .ll p.ptdp.header p.ptdp.data = { s with
      cmdPart := []
      counters := { s.counters with
        frames := s.counters.frames + 1
        ptdps := s.counters.ptdps + 1 }
      llpPending := false
      rspOut := s.rspOut ++ ptfrHdr f0 true 0 off :: ptdpRsp .ll p.ptdp.header p.ptdp.data } := by
    rw [emitPtdp_reported (s := s.frameBegun f0 true off 0) hout hrec, State.frameBegun, BitVec.add_zero,
      List.append_cons s.rspOut _ (ptdpRsp _ _ _)]
    rfl
  have hsize := SentPtdp.ptdpSize_header hp s.cfg.gP
  rw [exec_frame_of_built hs hmin hmax]
  refine ⟨fun hf => ?_, fun hf => ?_⟩
  · have hrun := llpRun_ok_noMarker (off := off) (fuel := (p.wire s.cfg.gP ++ []).length) (c := 0) (hu [])
      (by rw [hsize, List.append_nil, Nat.zero_add])
    rw [List.append_nil] at hrun
    rw [hf, hparse, parsePayload_done hrun, hreported, raise_eq]
    rfl
  · have hrun := llpRun_ok_lastMarker (off := off) (fuel := (p.wire s.cfg.gP ++ [0xFF]).length) (c := 0) (hu [0xFF])
      (by rw [hsize, Nat.zero_add, byteAt, List.getD_append_right _ _ _ _ le_rfl, Nat.sub_self]; rfl)
      (by rw [hsize, Nat.zero_add, List.length_append]; rfl)
    rw [hf, List.append_assoc, hparse, parsePayload_done hrun, hreported]
    rfl

/-! ## The outcomes of a frame (R219) -/

/-- How a frame begun in `s` ends: after the work on its PTDPs, the buffer is used up, or its rest becomes the remainder, or RESYNC
drops it, or the next frame's LLP is awaited. -/
def FrameEnds (s t : State) : Prop :=
  ∃ u, PtdpWrites s u ∧
    (t = u.consumed ∨
      (∃ b, b ≠ [] ∧ b.length ≤ remCap ∧ PtdpWrites (u.keepRemainder b) t) ∨
      PtdpWrites u.loseSync t ∨
      t = u.awaitLlp)

theorem FrameEnds.of_resync {s u : State} (h : PtdpWrites s u) : FrameEnds s u.resync :=
  ⟨u, h, .inr (.inr (.inl (resync_ptdpWrites u)))⟩

theorem FrameEnds.of_await {s u : State} (h : PtdpWrites s u) : FrameEnds s u.awaitLlp :=
  ⟨u, h, .inr (.inr (.inr rfl))⟩

theorem PtdpWrites.offsetFinal {s t : State} (h : PtdpWrites s t) (off : BitVec 11) (check : Bool) :
    PtdpWrites s (t.offsetFinal off check) :=
  branch (h.raise _ _) h

theorem hlLoop_ends {s0 : State} (n : Nat) (off : BitVec 11) (fuel : Nat) :
    ∀ {b : List Byte} {pos : Int} {check : Bool} {s : State}, b.length < fuel → PtdpWrites s0 s →
      FrameEnds s0 (hlLoop n off fuel b pos check s) := by
  induction fuel with
  | zero => intro b pos check s hfuel; exact absurd hfuel (Nat.not_lt_zero _)
  | succ fuel ih =>
    intro b pos check s hfuel hs
    have hprobed := hs.offsetProbe n off check pos
    by_cases hb : b = []
    · subst hb
      rw [hlLoop_nil]
      exact ⟨_, hprobed.offsetFinal _ _, .inl rfl⟩
    · obtain ⟨u, s1, hu⟩ : ∃ u s1, (s.offsetProbe n off check pos).unpack b = (u, s1) := ⟨_, _, rfl⟩
      have hunpacked := hprobed.unpack hu
      cases u with
      | inc =>
        rw [hlLoop_inc hb hu]
        exact ⟨s1, hunpacked, .inr (.inl ⟨b, hb, (unpack_inc hu).2, ((PtdpWrites.start _).offsetFinal _ _).raise _ _⟩)⟩
      | len m =>
        rw [hlLoop_len hu]
        exact .of_resync ((hunpacked.count _ (by rfl)).raise _ _)
      | gfail =>
        rw [hlLoop_gfail hu]
        exact .of_resync hunpacked
      | ok h data =>
        obtain ⟨-, hsize, -⟩ := unpack_ok hu
        rw [hlLoop_ok hu]
        rw [ptdpSize, ptdpHdrBytes] at *
        refine ih ?_ (hunpacked.emitPtdp _ _ _)
        rw [List.length_drop]
        omega

/-- An LLP run ends the frame, or leaves it to the HL loop. -/
theorem llpRun_ends {s0 : State} (p : List Byte) (off : BitVec 11) (fuel : Nat) :
    ∀ {c : Nat} {s : State}, p.length - c < fuel → PtdpWrites s0 s →
      (∃ t, llpRun p off fuel c s = .done t ∧ FrameEnds s0 t) ∨
      (∃ c' t, llpRun p off fuel c s = .hl c' t ∧ PtdpWrites s0 t) := by
  induction fuel with
  | zero => intro c s hfuel; exact absurd hfuel (Nat.not_lt_zero _)
  | succ fuel ih =>
    intro c s hfuel hs
    obtain ⟨u, s1, hu⟩ : ∃ u s1, s.unpack (p.drop c) = (u, s1) := ⟨_, _, rfl⟩
    have hunpacked := hs.unpack hu
    cases u with
    | inc => exact .inl ⟨_, llpRun_inc hu, .of_resync (hunpacked.raise _ _)⟩
    | len m => exact .inl ⟨_, llpRun_len hu, .of_resync ((hunpacked.count _ (by rfl)).raise _ _)⟩
    | gfail => exact .inl ⟨_, llpRun_gfail hu, .of_resync hunpacked⟩
    | ok h data =>
      have hreported := hunpacked.emitPtdp .ll h data
      obtain hend | hin := le_or_gt p.length (c + ptdpSize h)
      · exact .inl ⟨_, llpRun_ok_noMarker hu hend, .of_await (hreported.raise _ _)⟩
      · by_cases hm : byteAt p (c + ptdpSize h) = 0xFF
        · obtain hlast | hmore := Nat.eq_or_lt_of_le (Nat.succ_le_of_lt hin)
          · exact .inl ⟨_, llpRun_ok_lastMarker hu hm hlast, .of_await hreported⟩
          · rw [llpRun_ok_nextMarker hu hm hmore]
            exact ih (by omega) hreported
        · have hended : PtdpWrites s0 (if byteAt p (c + ptdpSize h) = 0x00 then s1.emitPtdp .ll h data
              else (s1.emitPtdp .ll h data).raise .badLlpMarker ((byteAt p (c + ptdpSize h)).setWidth 16)) :=
            .branch hreported (hreported.raise _ _)
          exact .inr ⟨_, _, llpRun_ok_endMarker hu hin hm, .branch (hended.raise _ _) hended⟩

section Buffer

variable {s0 s : State}

theorem PtdpWrites.positioned (h : PtdpWrites s0 s) (p : List Byte) (off : BitVec 11) :
    PtdpWrites s0 (s.positioned p off).2 :=
  branch (h.raise _ _) h

theorem PtdpWrites.positionedIf (h : PtdpWrites s0 s) (p : List Byte) (off : BitVec 11) (b : Bool) (buf : HlBuffer) :
    PtdpWrites s0 (if b then s.positioned p off else (buf, s)).2 := by
  cases b with
  | true => exact h.positioned p off
  | false => exact h

theorem PtdpWrites.initialBuffer (h : PtdpWrites s0 s) (p : List Byte) (off : BitVec 11) :
    PtdpWrites s0 (s.initialBuffer p off).2 := by
  rw [State.initialBuffer]
  cases s.remKind with
  | none | empty => exact h.positionedIf p off _ _
  | bytes => exact h

theorem PtdpWrites.hlAfterLlp (h : PtdpWrites s0 s) (p : List Byte) (off : BitVec 11) (c : Nat) :
    PtdpWrites s0 (s.hlAfterLlp p off c).2 := by
  rw [State.hlAfterLlp]
  cases s.remKind with
  | none => exact h.positionedIf p off _ _
  | empty | bytes => exact h

theorem runHl_ends (h : PtdpWrites s0 s) (n : Nat) (off : BitVec 11) (b : HlBuffer) : FrameEnds s0 (s.runHl n off b) :=
  hlLoop_ends n off _ (Nat.lt_succ_self _) h

end Buffer

theorem parsePayload_ends (s : State) (p : List Byte) (llp : Bool) (off : BitVec 11) :
    FrameEnds s (s.parsePayload p llp off) := by
  have hs := PtdpWrites.start s
  cases llp with
  | false => exact runHl_ends (hs.initialBuffer p off) _ _ _
  | true =>
    rw [State.parsePayload, if_pos rfl]
    obtain ⟨t, hrun, ht⟩ | ⟨c, t, hrun, ht⟩ := llpRun_ends p off (p.length + 1) (c := 0) (Nat.lt_succ_self _) hs
    · rw [hrun]
      exact ht
    · rw [hrun]
      exact runHl_ends (ht.hlAfterLlp p off c) _ _ _

/-- A FRAME counts itself, puts out its header and clears `llp_pending`; then RESYNC or its payload ends it (R212). -/
theorem parseFrame_ends (s : State) (f : List Byte) :
    ∃ s1 t ws, s.retire.parseFrame f = t.frameDone ∧ FrameEnds s1 t ∧ s1.llpPending = false ∧
      (s1.remKind = s.remKind ∧ s1.rem = s.rem ∧ s1.parseState = s.parseState) ∧
      s1.counters.frames = s.counters.frames + 1 ∧
      s1.rspOut = s.rspOut ++ [ptfrHdr (byteAt f 0) (llpOf (gdec s.cfg.gP (codewordAt f 1)).1)
        (gdec s.cfg.gP (codewordAt f 1)).2 (offOf (gdec s.cfg.gP (codewordAt f 1)).1)] ++ ws := by
  obtain ⟨w0, e0, hd⟩ : ∃ w0 e0, gdec s.cfg.gP (codewordAt f 1) = (w0, e0) := ⟨_, _, rfl⟩
  rw [hd]
  by_cases hbad : e0 = 4 ∧ s.gfailResync = true
  · obtain ⟨rfl, hresync⟩ := hbad
    exact ⟨{ s.frameOpened f w0 4 with llpPending := false }, _, _, parseFrame_resync hd hresync,
      .of_resync (u := { s.frameOpened f w0 4 with llpPending := false }) (.start _), rfl, ⟨rfl, rfl, rfl⟩, rfl, rfl⟩
  · have hentered := enterPayload_eq (s.frameOpened f w0 e0) (w0.getLsbD 11)
    exact ⟨_, _, _, parseFrame_payload hd hbad, parsePayload_ends _ _ _ _, congrArg State.llpPending hentered,
      ⟨(congrArg State.remKind hentered).trans rfl, (congrArg State.rem hentered).trans rfl,
        (congrArg State.parseState hentered).trans rfl⟩,
      congrArg (·.counters.frames) hentered, (congrArg State.rspOut hentered).trans (List.append_assoc _ _ _)⟩

/-- The rows of the table for the ways to end, where no LLP was awaited when the payload began (R219, R220). -/
theorem FrameEnds.outcome {s t : State} (h : FrameEnds s t) (hllp : s.llpPending = false) :
    (t.remKind = .empty ∧ t.rem = [] ∧ t.parseState = .aligned ∧ t.llpPending = false) ∨
    (t.remKind = .bytes ∧ 1 ≤ t.rem.length ∧ t.rem.length ≤ 2053 ∧ t.parseState = .waitMore ∧ t.llpPending = false) ∨
    Resynced t ∨
    (t.remKind = s.remKind ∧ t.rem = s.rem ∧ t.parseState = s.parseState ∧ t.llpPending = true) := by
  obtain ⟨u, ⟨k, p, ws, hc, lc, -, rfl⟩, rfl | ⟨b, hb, hcap, k', p', ws', hc', lc', -, rfl⟩ | hlost | rfl⟩ := h
  · exact .inl ⟨rfl, rfl, rfl, hllp⟩
  · exact .inr (.inl ⟨rfl, List.length_pos_iff.mpr hb, hcap, rfl, hllp⟩)
  · exact .inr (.inr (.inl (resynced_of_ptdpWrites hlost)))
  · exact .inr (.inr (.inr ⟨rfl, rfl, rfl, rfl⟩))

/-- Whichever way a frame ends, it has counted no other frame and has only added responses. -/
theorem FrameEnds.appends {s t : State} (h : FrameEnds s t) :
    t.counters.frames = s.counters.frames ∧ ∃ ws, t.rspOut = s.rspOut ++ ws := by
  obtain ⟨u, ⟨k, p, ws, hc, lc, hk, rfl⟩, rfl | ⟨b, -, -, k', p', ws', hc', lc', hk', rfl⟩ |
    ⟨k', p', ws', hc', lc', hk', rfl⟩ | rfl⟩ := h
  · exact ⟨hk, ws, rfl⟩
  · exact ⟨hk'.trans hk, ws ++ ws', List.append_assoc _ _ _⟩
  · exact ⟨hk'.trans hk, ws ++ ws', List.append_assoc _ _ _⟩
  · exact ⟨hk, ws, rfl⟩

/-- Settles O39: each way to end is a row of the table. -/
theorem frameOutcomesAreTheTable : Obligations.FrameOutcomesAreTheTable := by
  intro s t f hs hexec
  obtain ⟨s1, u, ws, hparse, hends, hllp, ⟨hkind, hrem, hstate⟩, -, -⟩ := parseFrame_ends s f
  rw [exec_frame_next hs hexec, hparse, ← hkind, ← hrem, ← hstate]
  exact hends.outcome hllp

/-- Settles O37: from the header on, responses are only added, and FRAME_DONE is the last. -/
theorem frameAnswersHeaderToDone : Obligations.FrameAnswersHeaderToDone := by
  intro s f hs hmin hmax
  obtain ⟨s1, u, ws, hparse, hends, -, -, hframes, hrsp⟩ := parseFrame_ends s f
  obtain ⟨hkept, ws', hadded⟩ := hends.appends
  refine ⟨_, ws ++ ws', exec_frame_of_built hs hmin hmax, frameWrites_parseFrame s f, ?_, ?_⟩
  · rw [hparse]
    exact hkept.trans hframes
  · rw [hparse, ← List.append_assoc, ← hrsp, ← hadded]
    rfl

end Sys2Proof.Machine
end

