-- ==== Sys2Proof/Proofs/Stream.lean ====
section
/-! PROOFS. The round trip of a producer's stream (41_ptfr_parser R223, 42_reassembly R281): one frame takes the bytes of the HL stream
it has room for, and leaves the beginning of the next PTDP as the remainder. -/

-- Proofs are elaborated one after another: in parallel, they and the tests' kernel checks exceed the check's memory limit.
set_option deprecated.oldSectionVars true

namespace Sys2Proof.Machine

/-! ## What the parse of a clean stream adds to the state -/

/-- The responses of sent PTDPs. -/
def ptdpRsps (τ : Latency) (ps : List SentPtdp) : List (List Word) := ps.map fun p => ptdpRsp τ p.ptdp.header p.ptdp.data

/-- From `s` to `t` the PTDPs `hl` and `ll` were reported, each class in order, among whole responses of no other PTDP; no event but
PTDP_INCOMPLETE was raised, and the configuration, the tables and CTRL are the same. -/
structure Parses (hl ll : List SentPtdp) (s t : State) : Prop where
  reported : ∃ bs : List (List Word), t.rspOut = s.rspOut ++ bs.flatten ∧ (∀ b ∈ bs, isResponse b = true) ∧
    bs.filter (hasTag 0x90) = ptdpRsps .hl hl ∧ bs.filter (hasTag 0x91) = ptdpRsps .ll ll
  pending : t.evtPending = s.evtPending ∨ t.evtPending = s.evtPending ||| 0x00000200
  cfg_eq : t.cfg = s.cfg
  tables_eq : t.tables = s.tables
  ctrl_eq : t.ctrl = s.ctrl

namespace Parses

variable {hl ll hl' ll' : List SentPtdp} {s t u : State}

/-- A change of other fields reports nothing. -/
theorem quiet (hrsp : t.rspOut = s.rspOut) (hevt : t.evtPending = s.evtPending) (hcfg : t.cfg = s.cfg)
    (htables : t.tables = s.tables) (hctrl : t.ctrl = s.ctrl) : Parses [] [] s t :=
  ⟨⟨[], hrsp.trans (List.append_nil _).symm, nofun, rfl, rfl⟩, .inl hevt, hcfg, htables, hctrl⟩

theorem trans (h : Parses hl ll s t) (h' : Parses hl' ll' t u) : Parses (hl ++ hl') (ll ++ ll') s u := by
  obtain ⟨⟨bs, hrsp, hbs, hhl, hll⟩, hevt, hcfg, htables, hctrl⟩ := h
  obtain ⟨⟨cs, hrsp', hcs, hhl', hll'⟩, hevt', hcfg', htables', hctrl'⟩ := h'
  refine ⟨⟨bs ++ cs, ?_, fun b hb => (List.mem_append.mp hb).elim (hbs b) (hcs b), ?_, ?_⟩, ?_, hcfg'.trans hcfg,
    htables'.trans htables, hctrl'.trans hctrl⟩
  · rw [hrsp', hrsp, List.flatten_append, List.append_assoc]
  · rw [List.filter_append, hhl, hhl', ptdpRsps, ptdpRsps, ptdpRsps, List.map_append]
  · rw [List.filter_append, hll, hll', ptdpRsps, ptdpRsps, ptdpRsps, List.map_append]
  · obtain hevt' | hevt' := hevt' <;> obtain hevt | hevt := hevt <;>
      simp only [hevt', hevt, BitVec.or_assoc, BitVec.or_self, true_or, or_true]

/-- Behind it, nothing more was reported. -/
theorem trans_nil (h : Parses hl ll s t) (h' : Parses [] [] t u) : Parses hl ll s u := by
  have hboth := h.trans h'
  rwa [List.append_nil, List.append_nil] at hboth

/-- One more response of one word. -/
theorem emit {w : Word} {tag : BitVec 8} (h : Parses hl ll s t) (hw : rspTag w = tag) (htag : tag ∈ oneWordTags) :
    Parses hl ll s (t.emit w) := by
  have hfilter (x : BitVec 8) (hx : x ∉ oneWordTags) : [[w]].filter (hasTag x) = [] := by
    have hne : hasTag x [w] = false := beq_eq_false_iff_ne.mpr fun heq => hx (heq ▸ hw ▸ htag)
    rw [List.filter_cons, hne, if_neg Bool.false_ne_true, List.filter_nil]
  have hone : Parses [] [] t (t.emit w) :=
    ⟨⟨[[w]], by rw [List.flatten_singleton]; rfl,
      fun _ hb => List.mem_singleton.mp hb ▸ isResponse_of_oneWordTag hw htag, hfilter 0x90 (by decide),
      hfilter 0x91 (by decide)⟩, .inl rfl, rfl, rfl, rfl⟩
  exact h.trans_nil hone

end Parses

/-- The PTDPs of class `σ` where the only one is `p`, of class `τ`. -/
def oneOfClass (σ τ : Latency) (p : SentPtdp) : List SentPtdp := if τ = σ then [p] else []

/-- A PTDP of either class, as the one PTDP of its class. -/
theorem Parses.of_ptdp (τ : Latency) {p : SentPtdp} (hp : p.ok = true) {s t : State}
    (hrsp : t.rspOut = s.rspOut ++ ptdpRsp τ p.ptdp.header p.ptdp.data) (hevt : t.evtPending = s.evtPending)
    (hcfg : t.cfg = s.cfg) (htables : t.tables = s.tables) (hctrl : t.ctrl = s.ctrl) :
    Parses (oneOfClass .hl τ p) (oneOfClass .ll τ p) s t := by
  have hwhole := isResponse_ptdpRsp τ (SentPtdp.toNat_length hp).symm
  have htag (x : BitVec 8) : hasTag x (ptdpRsp τ p.ptdp.header p.ptdp.data) = (rspTag (ptdpHead τ p.ptdp.header) == x) := rfl
  refine ⟨⟨[ptdpRsp τ p.ptdp.header p.ptdp.data], by rwa [List.flatten_singleton],
    fun _ hb => List.mem_singleton.mp hb ▸ hwhole, ?_, ?_⟩, .inl hevt, hcfg, htables, hctrl⟩ <;>
  · rw [List.filter_cons, htag, rspTag_ptdpHead]
    cases τ <;> rfl

/-- A state that reports PTDPs and does not reassemble, under the parameter set `g`. -/
structure Reporting (g : Rows) (s : State) : Prop where
  gP_eq : s.cfg.gP = g
  ptdpOut : s.ptdpOutEn = true
  recOut : s.recOutEn = false

theorem Reporting.of_parses {g : Rows} {hl ll : List SentPtdp} {s t : State} (h : Reporting g s) (hp : Parses hl ll s t) :
    Reporting g t :=
  ⟨(congrArg Config.gP hp.cfg_eq).trans h.gP_eq, (congrArg (·.getLsbD 0) hp.ctrl_eq).trans h.ptdpOut,
    (congrArg (·.getLsbD 1) hp.ctrl_eq).trans h.recOut⟩

section Round

variable {g : Rows} {s : State} {p : SentPtdp}

/-- The state after a sent PTDP has been unpacked. -/
def State.unpackedSent (s : State) (p : SentPtdp) : State :=
  { s with counters := { s.counters with
    corrBits := s.counters.corrBits + BitVec.ofNat 32 (popcount p.err1) + BitVec.ofNat 32 (popcount p.err2) } }

/-- A sent PTDP, unpacked and reported. -/
theorem parses_emitPtdp (hs : Reporting g s) (hp : p.ok = true) (τ : Latency) :
    Parses (oneOfClass .hl τ p) (oneOfClass .ll τ p) s
      ((s.unpackedSent p).emitPtdp τ p.ptdp.header p.ptdp.data) := by
  rw [emitPtdp_reported (s := s.unpackedSent p) hs.ptdpOut hs.recOut]
  exact .of_ptdp τ hp rfl rfl rfl rfl rfl

theorem unpackedSent_emitPtdp_writes (τ : Latency) :
    PtdpWrites s ((s.unpackedSent p).emitPtdp τ p.ptdp.header p.ptdp.data) :=
  ((PtdpWrites.start s).count _ (by rfl)).emitPtdp _ _ _

end Round

theorem PtdpWrites.trans {s t u : State} (h : PtdpWrites s t) (h' : PtdpWrites t u) : PtdpWrites s u := by
  obtain ⟨k, p, ws, hc, lc, hk, rfl⟩ := h
  obtain ⟨k', p', ws', hc', lc', hk', rfl⟩ := h'
  exact ⟨k', p', ws ++ ws', hc', lc', hk'.trans hk, by rw [List.append_assoc]⟩

/-- The work on a PTDP leaves the parser's own fields. -/
theorem PtdpWrites.parser_eq {s t : State} (h : PtdpWrites s t) :
    t.remKind = s.remKind ∧ t.rem = s.rem ∧ t.llpPending = s.llpPending := by
  obtain ⟨k, p, ws, hc, lc, -, rfl⟩ := h
  exact ⟨rfl, rfl, rfl⟩

/-! ## The LLP run of a frame (R208, R214) -/

theorem llpRunBytes_cons (g : Rows) (q q' : SentPtdp) (qs : List SentPtdp) :
    llpRunBytes g (q :: q' :: qs) = q.wire g ++ 0xFF :: llpRunBytes g (q' :: qs) := by
  rw [llpRunBytes]
  exact List.cons_ne_nil _ _

theorem length_le_length_llpRunBytes (g : Rows) (qs : List SentPtdp) : qs.length ≤ (llpRunBytes g qs).length := by
  induction qs with
  | nil => exact Nat.le_refl _
  | cons q qs ih =>
    cases qs with
    | nil => rw [llpRunBytes, List.length_append]; exact Nat.le_add_left _ _
    | cons q' qs =>
      rw [llpRunBytes_cons, List.length_append, List.length_cons, List.length_cons]
      exact Nat.le_add_left_of_le (Nat.succ_le_succ ih)

/-- An LLP run that the contract allows is parsed to its end, where `off` says it ends. -/
theorem llpRun_sent {g : Rows} (hg : golayValid g = true) (off : BitVec 11) (qs : List SentPtdp) :
    ∀ {pre rest : List Byte} {s : State} {fuel : Nat}, qs ≠ [] → (∀ q ∈ qs, q.ok = true) → Reporting g s →
      off.toNat = pre.length + (llpRunBytes g qs).length → qs.length ≤ fuel →
      ∃ t, llpRun (pre ++ (llpRunBytes g qs ++ rest)) off fuel pre.length s =
          .hl (pre.length + (llpRunBytes g qs).length) t ∧ Parses [] qs s t ∧ PtdpWrites s t := by
  induction qs with
  | nil => intro pre rest s fuel hne; exact absurd rfl hne
  | cons q qs ih =>
    intro pre rest s fuel _ hok hs hoff hfuel
    obtain ⟨fuel, rfl⟩ := Nat.exists_eq_succ_of_ne_zero (Nat.ne_of_gt (Nat.lt_of_lt_of_le (Nat.zero_lt_succ _) hfuel))
    have hq : q.ok = true := hok q List.mem_cons_self
    have hgP : s.cfg.gP = g := hs.gP_eq
    have hparses : Parses [] [q] s ((s.unpackedSent q).emitPtdp .ll q.ptdp.header q.ptdp.data) := parses_emitPtdp hs hq .ll
    have hwrites : PtdpWrites s ((s.unpackedSent q).emitPtdp .ll q.ptdp.header q.ptdp.data) := unpackedSent_emitPtdp_writes .ll
    have hround (rest' : List Byte) (m : Byte) := markerDecidesTheLlpRun s
      ((s.unpackedSent q).emitPtdp .ll q.ptdp.header q.ptdp.data) off fuel pre rest' m q (hgP ▸ hg) hq rfl
    rw [hgP] at hround
    cases qs with
    | nil =>
      obtain ⟨-, -, hend⟩ := hround rest 0x00
      have hlen : (llpRunBytes g [q]).length = (q.wire g).length + 1 := List.length_append
      rw [hlen] at hoff ⊢
      refine ⟨_, ?_, hparses, hwrites⟩
      have hrun := hend (by decide) _ _ rfl rfl
      rw [if_pos rfl, if_neg (fun h => h.2 hoff)] at hrun
      rw [llpRunBytes, List.append_assoc]
      exact hrun
    | cons q' qs =>
      rw [llpRunBytes_cons, List.length_append, List.length_cons] at hoff ⊢
      obtain ⟨-, hmore, -⟩ := hround (llpRunBytes g (q' :: qs) ++ rest) 0xFF
      have hne : llpRunBytes g (q' :: qs) ++ rest ≠ [] := fun h =>
        absurd (length_le_length_llpRunBytes g (q' :: qs)) (by rw [(List.append_eq_nil_iff.mp h).1]; nofun)
      have hpre : (pre ++ (q.wire g ++ [0xFF])).length = pre.length + (q.wire g).length + 1 := by
        rw [List.length_append, List.length_append, List.length_singleton, Nat.add_assoc]
      obtain ⟨t, hrun, ht, hw⟩ := ih (pre := pre ++ (q.wire g ++ [0xFF])) (rest := rest) (List.cons_ne_nil _ _)
        (fun x hx => hok x (List.mem_cons_of_mem _ hx)) (hs.of_parses hparses) (by rw [hpre]; omega)
        (Nat.le_of_succ_le_succ hfuel)
      refine ⟨t, ?_, hparses.trans ht, hwrites.trans hw⟩
      have hpayload : pre ++ (q.wire g ++ [0xFF]) ++ (llpRunBytes g (q' :: qs) ++ rest) =
          pre ++ (q.wire g ++ 0xFF :: (llpRunBytes g (q' :: qs) ++ rest)) := by
        simp only [List.append_assoc, List.cons_append, List.nil_append]
      rw [hpre, hpayload, ← hmore rfl hne] at hrun
      have hend : pre.length + ((q.wire g).length + ((llpRunBytes g (q' :: qs)).length + 1)) =
          pre.length + (q.wire g).length + 1 + (llpRunBytes g (q' :: qs)).length := by omega
      rw [List.append_assoc, List.cons_append, hrun, hend]

/-! ## The HL stream (R203, R281 item 2) -/

/-- The bytes of the HL stream. -/
def hlBytes (g : Rows) (qs : List SentPtdp) : List Byte := (hlStream g qs).map (·.1)

section HlStream

variable (g : Rows) (q : SentPtdp) (qs : List SentPtdp)

theorem map_fst_markStart (b : List Byte) : (markStart b).map (·.1) = b := by
  cases b with
  | nil => rfl
  | cons x b => simp only [markStart, List.map_cons, List.map_map, Function.comp_def, List.map_id']

theorem drop_markStart {b : List Byte} {m : Nat} (hm : 0 < m) : (markStart b).drop m = (b.drop m).map (·, false) := by
  obtain ⟨m, rfl⟩ := Nat.exists_eq_succ_of_ne_zero hm.ne'
  cases b with
  | nil => rfl
  | cons x b => rw [markStart, List.drop_succ_cons, List.drop_succ_cons, List.map_drop]

theorem hlStream_cons : hlStream g (q :: qs) = markStart (q.wire g) ++ hlStream g qs := List.flatMap_cons

theorem hlBytes_cons : hlBytes g (q :: qs) = q.wire g ++ hlBytes g qs := by
  rw [hlBytes, hlStream_cons, List.map_append, map_fst_markStart, hlBytes]

theorem hlStream_append (ps : List SentPtdp) : hlStream g (ps ++ qs) = hlStream g ps ++ hlStream g qs := List.flatMap_append

theorem length_hlBytes : (hlBytes g qs).length = (hlStream g qs).length := List.length_map _

theorem length_hlBytes_cons : (hlBytes g (q :: qs)).length = (q.wire g).length + (hlBytes g qs).length := by
  rw [hlBytes_cons, List.length_append]

end HlStream

/-! ## The HL loop on the stream (R216) -/

/-- `m` bytes of the stream of `qs` have arrived that belong to no whole PTDP: none, or a proper beginning of the first one. -/
def Begun (g : Rows) (qs : List SentPtdp) (m : Nat) : Prop := m = 0 ∨ ∃ q qs', qs = q :: qs' ∧ m < (q.wire g).length

/-- Where all that was sent has arrived, all of it was taken. -/
theorem Begun.exhausted {g : Rows} {qs : List SentPtdp} {m : Nat} (h : Begun g qs m) (hlen : (hlBytes g qs).length = m) :
    qs = [] ∧ m = 0 := by
  cases qs with
  | nil => exact ⟨rfl, hlen.symm⟩
  | cons q qs =>
    have hwire := SentPtdp.length_wire g q
    rw [length_hlBytes_cons] at hlen
    obtain rfl | ⟨q', qs', heq, hlt⟩ := h
    · omega
    · rw [← (List.cons.inj heq).1] at hlt
      omega

/-- The HL state where the beginning of the stream of `qs` that has arrived is the remainder. -/
structure Holds (g : Rows) (qs : List SentPtdp) (m : Nat) (s : State) : Prop where
  begun : Begun g qs m
  rem_eq : s.rem = (hlBytes g qs).take m
  bytes_iff : s.remKind = .bytes ↔ 0 < m
  llp_eq : s.llpPending = false

section Sent

variable {g : Rows} {q : SentPtdp} {qs : List SentPtdp} {n : Nat} {off : BitVec 11} {fuel k : Nat} {pos : Int} {check : Bool}
  {s : State}

theorem take_hlBytes_of_lt (hk : k < (q.wire g).length) : (hlBytes g (q :: qs)).take k = (q.wire g).take k := by
  rw [hlBytes_cons, List.take_append_of_le_length hk.le]

theorem take_hlBytes_of_le (hk : (q.wire g).length ≤ k) :
    (hlBytes g (q :: qs)).take k = q.wire g ++ (hlBytes g qs).take (k - (q.wire g).length) := by
  rw [hlBytes_cons, List.take_append, List.take_of_length_le hk]

theorem unpack_whole (hgP : s.cfg.gP = g) (hg : golayValid g = true) (hq : q.ok = true) (b : List Byte) :
    s.unpack (q.wire g ++ b) = (.ok q.ptdp.header q.ptdp.data, s.unpackedSent q) := by
  subst hgP
  exact (sentPtdpUnpacks s q b hg hq).1

theorem unpack_begun (hgP : s.cfg.gP = g) (hg : golayValid g = true) (hq : q.ok = true) (hk : k < (q.wire g).length) :
    s.unpack ((q.wire g).take k) = (.inc, s) := by
  subst hgP
  have hu := (sentPtdpUnpacks s q [] hg hq).2 k
  exact hu hk

/-- A sent PTDP that has arrived whole is reported, and the loop goes on behind it. -/
theorem hlLoop_whole (hgP : s.cfg.gP = g) (hg : golayValid g = true) (hq : q.ok = true) (b : List Byte) :
    hlLoop n off (fuel + 1) (q.wire g ++ b) pos check s =
      hlLoop n off fuel b (pos + (q.wire g).length) (check && !probes n check pos)
        (((s.offsetProbe n off check pos).unpackedSent q).emitPtdp .hl q.ptdp.header q.ptdp.data) := by
  have hcfg : (s.offsetProbe n off check pos).cfg = s.cfg := ((PtdpWrites.start s).offsetProbe n off check pos).cfg_eq
  rw [hlLoop_ok (unpack_whole (hcfg ▸ hgP) hg hq b), SentPtdp.ptdpSize_header hq g, List.drop_left]

/-- A proper beginning of a sent PTDP becomes the remainder. -/
theorem hlLoop_begun (hgP : s.cfg.gP = g) (hg : golayValid g = true) (hq : q.ok = true) (hpos : 0 < k)
    (hk : k < (q.wire g).length) :
    hlLoop n off (fuel + 1) ((q.wire g).take k) pos check s =
      (((s.offsetProbe n off check pos).keepRemainder ((q.wire g).take k)).offsetFinal off
        (check && !probes n check pos)).raise .ptdpIncomplete (BitVec.ofNat 16 k) := by
  have hcfg : (s.offsetProbe n off check pos).cfg = s.cfg := ((PtdpWrites.start s).offsetProbe n off check pos).cfg_eq
  have hlen : ((q.wire g).take k).length = k := List.length_take_of_le hk.le
  rw [hlLoop_inc (List.ne_nil_of_length_pos (hpos.trans_eq hlen.symm)) (unpack_begun (hcfg ▸ hgP) hg hq hk), hlen]

end Sent

/-- PTDP_INCOMPLETE is the one event a clean stream raises. -/
theorem Parses.raise_incomplete {hl ll : List SentPtdp} {s t : State} (h : Parses hl ll s t) (i : BitVec 16) :
    Parses hl ll s (t.raise .ptdpIncomplete i) := by
  have hpending : Parses [] [] t { t with evtPending := t.evtPending ||| 0x00000200 } :=
    ⟨⟨[], (List.append_nil _).symm, nofun, rfl, rfl⟩, .inr rfl, rfl, rfl, rfl⟩
  have hraised : Parses [] [] t (t.raise .ptdpIncomplete i) :=
    iteInduction (motive := Parses [] [] t) (fun _ => hpending.emit (rspTag_evtRsp _ _) (by decide)) fun _ => hpending
  exact h.trans_nil hraised

/-- From `s` to `t` the first `k` bytes of the stream of `qs` were parsed, and the LLP PTDPs `ll`. -/
def Takes (g : Rows) (qs : List SentPtdp) (k : Nat) (ll : List SentPtdp) (s t : State) : Prop :=
  ∃ done rest m, qs = done ++ rest ∧ k = (hlBytes g done).length + m ∧ Parses done ll s t ∧ Holds g rest m t ∧
    t.remKind ≠ .none

/-- HL_LOOP without an offset check takes every whole PTDP that has arrived and keeps the beginning of the next one. -/
theorem hlLoop_sent {g : Rows} (hg : golayValid g = true) (n : Nat) (off : BitVec 11) (qs : List SentPtdp) :
    ∀ {k fuel : Nat} {pos : Int} {s : State}, (∀ q ∈ qs, q.ok = true) → Reporting g s → s.llpPending = false →
      k ≤ (hlBytes g qs).length → k < fuel →
      Takes g qs k [] s (hlLoop n off fuel ((hlBytes g qs).take k) pos false s) := by
  have hnone (qs : List SentPtdp) {fuel : Nat} {pos : Int} {s : State} (hs : s.llpPending = false) :
      Parses [] [] s (hlLoop n off (fuel + 1) [] pos false s) ∧ Holds g qs 0 (hlLoop n off (fuel + 1) [] pos false s) ∧
        (hlLoop n off (fuel + 1) [] pos false s).remKind ≠ .none := by
    rw [hlLoop_nil]
    exact ⟨.quiet rfl rfl rfl rfl rfl, ⟨.inl rfl, rfl, ⟨nofun, fun h => absurd h (Nat.lt_irrefl 0)⟩, hs⟩, nofun⟩
  induction qs with
  | nil =>
    intro k fuel pos s hok hs hllp hk hfuel
    obtain rfl := Nat.le_zero.mp hk
    obtain ⟨fuel, rfl⟩ := Nat.exists_eq_succ_of_ne_zero hfuel.ne'
    exact ⟨[], [], 0, rfl, rfl, hnone [] hllp⟩
  | cons q qs ih =>
    intro k fuel pos s hok hs hllp hk hfuel
    obtain ⟨fuel, rfl⟩ := Nat.exists_eq_succ_of_ne_zero (Nat.ne_of_gt (Nat.zero_lt_of_lt hfuel))
    have hq : q.ok = true := hok q List.mem_cons_self
    obtain rfl | hpos := Nat.eq_zero_or_pos k
    · exact ⟨[], q :: qs, 0, rfl, rfl, hnone (q :: qs) hllp⟩
    obtain hbegun | hwhole := Nat.lt_or_ge k (q.wire g).length
    · refine ⟨[], q :: qs, k, rfl, (Nat.zero_add k).symm, ?_⟩
      rw [take_hlBytes_of_lt hbegun, hlLoop_begun hs.gP_eq hg hq hpos hbegun, raise_eq, ← take_hlBytes_of_lt hbegun]
      refine ⟨?_, ⟨.inr ⟨q, qs, rfl, hbegun⟩, rfl, ⟨fun _ => hpos, fun _ => rfl⟩, hllp⟩, nofun⟩
      rw [← raise_eq]
      exact (Parses.quiet (s := s) (t := s.keepRemainder _) rfl rfl rfl rfl rfl).raise_incomplete _
    · have hparses : Parses [q] [] s ((s.unpackedSent q).emitPtdp .hl q.ptdp.header q.ptdp.data) := parses_emitPtdp hs hq .hl
      obtain ⟨-, -, hllp'⟩ := (unpackedSent_emitPtdp_writes (s := s) (p := q) .hl).parser_eq
      have hlen := length_hlBytes_cons g q qs
      have hwire := SentPtdp.length_wire g q
      rw [take_hlBytes_of_le hwhole, hlLoop_whole hs.gP_eq hg hq]
      obtain ⟨done, rest, m, hsplit, hcount, hdone, hrest, hkind⟩ := ih (k := k - (q.wire g).length) (fuel := fuel)
        (pos := pos + (q.wire g).length)
        (fun x hx => hok x (List.mem_cons_of_mem _ hx)) (hs.of_parses hparses) (hllp' ▸ hllp) (by omega) (by omega)
      refine ⟨q :: done, rest, m, by rw [hsplit]; rfl, ?_, hparses.trans hdone, hrest, hkind⟩
      rw [length_hlBytes_cons]
      omega

/-- The next `k` bytes of the stream of `qs` behind its first `m`. -/
def hlChunk (g : Rows) (qs : List SentPtdp) (m k : Nat) : List MarkedByte := ((hlStream g qs).drop m).take k

/-! ## The offset a producer sends (R217, R281 item 2) -/

/-- `off` of a frame without an LLP run: the position of the first mark, or the sentinel. -/
def headerOff (chunk : List MarkedByte) : BitVec 11 :=
  match chunk.findIdx? (·.2) with
  | some k => BitVec.ofNat 11 k
  | none => offsetNone

section HeaderOff

variable {g : Rows} {q : SentPtdp} {qs : List SentPtdp} {m n : Nat}

theorem findIdx?_of_start (hn : 0 < n) : ((hlStream g (q :: qs)).take n).findIdx? (·.2) = some 0 := by
  obtain ⟨n, rfl⟩ := Nat.exists_eq_succ_of_ne_zero hn.ne'
  rfl

/-- Where none has begun, the frame begins with a header. -/
theorem headerOff_of_start (hn : 0 < n) : headerOff (hlChunk g (q :: qs) 0 n) = 0 := by
  rw [hlChunk, List.drop_zero, headerOff, findIdx?_of_start hn]
  rfl

theorem findIdx?_unmarked (b : List Byte) : (b.map fun x => (x, false)).findIdx? (·.2) = none := by
  rw [List.findIdx?_map]
  exact List.findIdx?_eq_none_iff.mpr fun _ _ => rfl

theorem drop_hlStream_of_begun (hm : 0 < m) (hq : m < (q.wire g).length) :
    (hlStream g (q :: qs)).drop m = ((q.wire g).drop m).map (·, false) ++ hlStream g qs := by
  have hlen : (markStart (q.wire g)).length = (q.wire g).length := by
    rw [← List.length_map (f := (·.1)), map_fst_markStart]
  rw [hlStream_cons, List.drop_append_of_le_length (by omega), drop_markStart hm]

/-- Where a PTDP has begun, no header starts before its end. -/
theorem headerOff_of_begun (hm : 0 < m) (hq : m < (q.wire g).length) (hn : m + n ≤ (q.wire g).length) :
    headerOff (hlChunk g (q :: qs) m n) = offsetNone := by
  rw [hlChunk, drop_hlStream_of_begun hm hq, List.take_append_of_le_length (by rw [List.length_map, List.length_drop]; omega),
    ← List.map_take, headerOff, findIdx?_unmarked]

/-- And the next header starts there. -/
theorem headerOff_of_next (hm : 0 < m) (hq : m < (q.wire g).length) (hn : (q.wire g).length < m + n)
    (hlen : m + n ≤ (hlBytes g (q :: qs)).length) :
    headerOff (hlChunk g (q :: qs) m n) = BitVec.ofNat 11 ((q.wire g).length - m) := by
  cases qs with
  | nil =>
    rw [length_hlBytes_cons] at hlen
    exact absurd hlen (Nat.not_le.mpr hn)
  | cons q' qs =>
    have hfirst : (((q.wire g).drop m).map fun x : Byte => (x, false)).length = (q.wire g).length - m := by
      rw [List.length_map, List.length_drop]
    rw [hlChunk, drop_hlStream_of_begun hm hq, List.take_append, hfirst, List.take_of_length_le (by omega), headerOff,
      List.findIdx?_append, findIdx?_unmarked, findIdx?_of_start (by omega), hfirst]
    simp only [Option.map_some, Option.none_or, Nat.zero_add]

end HeaderOff

section Agrees

variable {n : Nat} {off : BitVec 11} {fuel : Nat} {b : List Byte} {pos : Int} {check : Bool} {s : State}

/-- An offset check that finds `off` right leaves no trace. -/
theorem hlLoop_probed (h0 : 0 ≤ pos) (hn : pos < n) (hoff : (off.toNat : Int) = pos) :
    hlLoop n off fuel b pos check s = hlLoop n off fuel b pos false s := by
  have hprobe : s.offsetProbe n off check pos = s := by
    rw [offsetProbe_eq, if_neg fun h => h.2.2.2 hoff]
  have hpending : (check && !probes n check pos) = false := by
    rw [pending_after_probe, decide_eq_true ⟨h0, hn⟩, Bool.not_true, Bool.and_false]
  cases fuel with
  | zero => rfl
  | succ fuel =>
    rw [hlLoop, hlLoop, hprobe, hpending]
    rfl

theorem offsetProbe_outside (hpos : ¬(0 ≤ pos ∧ pos < n)) : s.offsetProbe n off check pos = s := by
  rw [offsetProbe_eq, if_neg fun h => hpos ⟨h.2.1, h.2.2.1⟩]

theorem offsetFinal_sentinel : s.offsetFinal offsetNone check = s := if_neg fun h => h.2 rfl

/-- The offset check finds nothing where the producer's `off` is right. -/
theorem hlLoop_headerOff {g : Rows} {qs : List SentPtdp} {m : Nat} (hgP : s.cfg.gP = g) (hg : golayValid g = true)
    (hok : ∀ q ∈ qs, q.ok = true) (hm : Begun g qs m) (hpos : 0 < n) (hn : n ≤ 2047) (hlen : m + n ≤ (hlBytes g qs).length)
    (hoff : off = headerOff (hlChunk g qs m n)) :
    hlLoop n off (fuel + 2) ((hlBytes g qs).take (m + n)) (-(m : Int)) check s =
      hlLoop n off (fuel + 2) ((hlBytes g qs).take (m + n)) (-(m : Int)) false s := by
  cases qs with
  | nil => exact absurd hlen (Nat.not_le.mpr (Nat.add_pos_right m hpos))
  | cons q qs =>
    have hq : q.ok = true := hok q List.mem_cons_self
    obtain rfl | hbegun := Nat.eq_zero_or_pos m
    · rw [headerOff_of_start hpos] at hoff
      subst hoff
      exact hlLoop_probed le_rfl (Int.natCast_pos.mpr hpos) rfl
    have hfirst : m < (q.wire g).length := by
      obtain rfl | ⟨q', qs', heq, hlt⟩ := hm
      · exact absurd hbegun (Nat.lt_irrefl 0)
      · rwa [(List.cons.inj heq).1]
    have hbefore : ¬((0 : Int) ≤ -(m : Int) ∧ -(m : Int) < n) := by omega
    have hunprobed (c : Bool) : s.offsetProbe n off c (-(m : Int)) = s := offsetProbe_outside hbefore
    obtain hend | hnext := le_or_gt (m + n) (q.wire g).length
    · rw [headerOff_of_begun hbegun hfirst hend] at hoff
      subst hoff
      obtain hlt | heq := Nat.lt_or_eq_of_le hend
      · rw [take_hlBytes_of_lt hlt, hlLoop_begun hgP hg hq (by omega) hlt, hlLoop_begun hgP hg hq (by omega) hlt, hunprobed,
          hunprobed, offsetFinal_sentinel, offsetFinal_sentinel]
      · rw [take_hlBytes_of_le heq.ge, heq, Nat.sub_self, List.take_zero, hlLoop_whole hgP hg hq, hlLoop_whole hgP hg hq,
          hunprobed, hunprobed, hlLoop_nil, hlLoop_nil, offsetProbe_outside (by omega), offsetProbe_outside (by omega),
          offsetFinal_sentinel, offsetFinal_sentinel]
    · rw [headerOff_of_next hbegun hfirst hnext hlen] at hoff
      rw [take_hlBytes_of_le hnext.le, hlLoop_whole hgP hg hq, hlLoop_whole hgP hg hq, hunprobed, hunprobed]
      refine hlLoop_probed (by omega) (by omega) ?_
      rw [hoff, BitVec.toNat_ofNat, Nat.mod_eq_of_lt (by omega)]
      omega

end Agrees

/-! ## The payload of a frame (R212 to R217) -/

section Payload

variable {g : Rows} {s : State} {qs : List SentPtdp} {m : Nat}

/-- The HL bytes a frame brings follow those that have arrived. -/
theorem map_fst_chunk (k : Nat) :
    (hlBytes g qs).take m ++ (hlChunk g qs m k).map (·.1) = (hlBytes g qs).take (m + k) := by
  rw [hlChunk, List.map_take, List.map_drop, List.take_add, hlBytes]

theorem length_chunk {k : Nat} (hlen : m + k ≤ (hlBytes g qs).length) : (hlChunk g qs m k).length = k := by
  rw [length_hlBytes] at hlen
  rw [hlChunk, List.length_take, List.length_drop]
  omega

theorem Holds.length_rem (h : Holds g qs m s) (hlen : m ≤ (hlBytes g qs).length) : s.rem.length = m := by
  obtain ⟨-, hrem, -, -⟩ := h
  rw [hrem, List.length_take_of_le hlen]

theorem Holds.of_fresh (h : Holds g qs m s) (hk : s.remKind ≠ .bytes) : m = 0 ∧ s.rem = [] := by
  obtain ⟨-, hrem, hkind, -⟩ := h
  have hm : m = 0 := Nat.eq_zero_of_not_pos fun hpos => hk (hkind.mpr hpos)
  exact ⟨hm, by rw [hrem, hm, List.take_zero]⟩

/-- The rows of R213 where a producer's stream goes on. -/
theorem Holds.initialBuffer (h : Holds g qs m s) (hlen : m ≤ (hlBytes g qs).length) (p : List Byte) {off : BitVec 11}
    (hoff : m = 0 → off = 0) :
    s.initialBuffer p off = (⟨(hlBytes g qs).take m ++ p, -(m : Int), s.ctrl.getLsbD 4⟩, s) := by
  obtain ⟨-, hstart, hrest⟩ := initialBufferIsTheTable s p off
  have hrem : s.rem = (hlBytes g qs).take m := h.rem_eq
  by_cases hk : s.remKind = .bytes
  · rw [hrest hk, h.length_rem hlen, hrem]
  · obtain ⟨rfl, -⟩ := h.of_fresh hk
    rw [hstart hk (.inl (hoff rfl))]
    rfl

/-- The rows of R215 where a producer's stream goes on. -/
theorem Holds.hlAfterLlp (h : Holds g qs m s) {p : List Byte} {off : BitVec 11} {c : Nat} (hoff : off.toNat = c) (hpos : 0 < c)
    (hroom : s.remKind = .none → c < p.length ∧ p.length ≤ 2047) :
    ∃ base, s.hlAfterLlp p off c = (⟨(hlBytes g qs).take m ++ p.drop c, base, false⟩, s) := by
  obtain ⟨hnone, hbytes, hempty⟩ := bufferAfterLlpRunIsTheTable s p off c
  have hrem : s.rem = (hlBytes g qs).take m := h.rem_eq
  cases hk : s.remKind with
  | none =>
    obtain ⟨hc, hp⟩ := hroom hk
    rw [hnone hk (by omega) (by omega), if_neg (by omega), hoff, ← hrem, (h.of_fresh (hk ▸ nofun)).2]
    exact ⟨_, rfl⟩
  | empty =>
    rw [hempty (.inl hk), ← hrem, (h.of_fresh (hk ▸ nofun)).2]
    exact ⟨_, rfl⟩
  | bytes =>
    rw [hbytes hk, hrem]
    exact ⟨_, rfl⟩

theorem FramePlan.ok_iff {n : Nat} {pl : FramePlan} : pl.ok g n = true ↔
    (llpRunBytes g pl.llps).length ≤ n ∧ (∀ q ∈ pl.llps, q.ok = true) ∧ popcount pl.err0 ≤ 3 := by
  simp only [FramePlan.ok, Bool.and_eq_true, decide_eq_true_eq, List.all_eq_true, and_assoc]

/-- The payload of a frame without an LLP run. -/
theorem parsePayload_hl {n : Nat} (hg : golayValid g = true) (hs : Reporting g s) (hok : ∀ q ∈ qs, q.ok = true)
    (h : Holds g qs m s) (hpos : 0 < n) (hn : n ≤ 2047) (hlen : m + n ≤ (hlBytes g qs).length) :
    Takes g qs (m + n) [] s (s.parsePayload ((hlChunk g qs m n).map (·.1)) false
      (headerOff (hlChunk g qs m n))) := by
  have hstart (hm : m = 0) : headerOff (hlChunk g qs m n) = 0 := by
    cases qs with
    | nil => exact absurd hlen (Nat.not_le.mpr (Nat.add_pos_right m hpos))
    | cons q qs => rw [hm, headerOff_of_start hpos]
  rw [State.parsePayload, if_neg Bool.false_ne_true, h.initialBuffer (by omega) _ hstart, State.runHl]
  rw [map_fst_chunk, List.length_map, length_chunk hlen, List.length_take_of_le hlen]
  obtain ⟨fuel, hfuel⟩ : ∃ fuel, m + n + 1 = fuel + 2 := ⟨m + n - 1, by omega⟩
  rw [hfuel, hlLoop_headerOff hs.gP_eq hg hok h.begun hpos hn hlen rfl]
  exact hlLoop_sent hg n _ qs hok hs h.llp_eq hlen (by omega)

/-- The payload of a frame with an LLP run. -/
theorem parsePayload_llp {lls : List SentPtdp} {k : Nat} (hg : golayValid g = true) (hs : Reporting g s)
    (hok : ∀ q ∈ qs, q.ok = true) (h : Holds g qs m s) (hne : lls ≠ []) (hlls : ∀ q ∈ lls, q.ok = true)
    (hn : (llpRunBytes g lls).length + k ≤ 2047) (hlen : m + k ≤ (hlBytes g qs).length) (hroom : s.remKind = .none → 0 < k) :
    Takes g qs (m + k) lls s (s.parsePayload (llpRunBytes g lls ++ (hlChunk g qs m k).map (·.1)) true
      (BitVec.ofNat 11 (llpRunBytes g lls).length)) := by
  have hoff : (BitVec.ofNat 11 (llpRunBytes g lls).length).toNat = (llpRunBytes g lls).length :=
    Nat.mod_eq_of_lt (by omega)
  have hplen : (llpRunBytes g lls ++ (hlChunk g qs m k).map (·.1)).length = (llpRunBytes g lls).length + k := by
    rw [List.length_append, List.length_map, length_chunk hlen]
  have hpos : 0 < (llpRunBytes g lls).length :=
    (List.length_pos_iff.mpr hne).trans_le (length_le_length_llpRunBytes g lls)
  obtain ⟨t, hrun, hparses, hwrites⟩ := llpRun_sent hg (BitVec.ofNat 11 (llpRunBytes g lls).length) lls (pre := [])
    (rest := (hlChunk g qs m k).map (·.1)) hne hlls hs (hoff.trans (Nat.zero_add _).symm)
    ((length_le_length_llpRunBytes g lls).trans (Nat.le_add_right _ (k + 1)))
  obtain ⟨hkind, hrem, hllp⟩ := hwrites.parser_eq
  have ht : Holds g qs m t := ⟨h.begun, hrem.trans h.rem_eq, hkind ▸ h.bytes_iff, hllp.trans h.llp_eq⟩
  obtain ⟨base, hbuffer⟩ := ht.hlAfterLlp hoff hpos
    (p := llpRunBytes g lls ++ (hlChunk g qs m k).map (·.1)) fun hk => by
      rw [hplen]
      exact ⟨Nat.lt_add_of_pos_right (hroom (hkind ▸ hk)), hn⟩
  rw [List.nil_append, List.length_nil, Nat.zero_add] at hrun
  rw [State.parsePayload, if_pos rfl, hplen, Nat.add_assoc, hrun]
  dsimp only
  rw [hbuffer, List.drop_left, map_fst_chunk, State.runHl]
  obtain ⟨done, rest, m', hsplit, hcount, hdone, hrest⟩ := hlLoop_sent hg ((llpRunBytes g lls).length + k)
    (BitVec.ofNat 11 (llpRunBytes g lls).length) qs (pos := base) hok (hs.of_parses hparses) ht.llp_eq hlen
    (Nat.lt_succ_of_le (List.length_take_of_le hlen).ge)
  have hboth := hparses.trans hdone
  rw [List.append_nil] at hboth
  exact ⟨done, rest, m', hsplit, hcount, hboth, hrest⟩

/-! ## A frame, and the stream (R223, R281) -/

/-- PTFR_HDR and FRAME_DONE around what the payload reported. -/
theorem Takes.frame {k : Nat} {ll : List SentPtdp} {t : State} (f0 : Byte) (llp : Bool) (off : BitVec 11) (e : Nat)
    (h : Takes g qs k ll (s.frameBegun f0 llp off e) t) : Takes g qs k ll s t.frameDone := by
  obtain ⟨done, rest, m', hsplit, hcount, hdone, hrest, hkind⟩ := h
  have hquiet : Parses [] [] s { s.frameBegun f0 llp off e with rspOut := s.rspOut } := .quiet rfl rfl rfl rfl rfl
  have hopened : Parses [] [] s (s.frameBegun f0 llp off e) := hquiet.emit (rspTag_ptfrHdr _ _ _ _) (by decide)
  exact ⟨done, rest, m', hsplit, hcount, (hopened.trans hdone).emit (rspTag_frameDoneRsp _ _ _ _) (by decide),
    ⟨hrest.begun, hrest.rem_eq, hrest.bytes_iff, hrest.llp_eq⟩, hkind⟩

/-- A frame of the stream: its LLP PTDPs are reported, and the HL bytes it brings are taken. -/
theorem parseFrame_plan {n : Nat} {pl : FramePlan} (hg : golayValid g = true) (hs : Reporting g s) (hok : ∀ q ∈ qs, q.ok = true)
    (h : Holds g qs m s) (hpl : pl.ok g n = true) (hpos : 0 < n) (hn : n ≤ 2047)
    (hlen : m + pl.room g n ≤ (hlBytes g qs).length) (hroom : s.remKind = .none → 0 < pl.room g n) :
    Takes g qs (m + pl.room g n) pl.llps s
      (s.retire.parseFrame (pl.frame g (hlChunk g qs m (pl.room g n)))) := by
  obtain ⟨hrun, hlls, herr⟩ := FramePlan.ok_iff.mp hpl
  have hgP : s.cfg.gP = g := hs.gP_eq
  have hsent := parseFrame_sent pl.first (llp := !pl.llps.isEmpty) (pl.off g (hlChunk g qs m (pl.room g n)))
    (llpRunBytes g pl.llps ++ (hlChunk g qs m (pl.room g n)).map (·.1)) (hgP.symm ▸ hg) herr
    (fun hp => absurd hp (ne_true_of_eq_false h.llp_eq))
  rw [hgP] at hsent
  rw [FramePlan.frame, List.append_assoc, List.cons_append, hsent]
  refine Takes.frame pl.first (!pl.llps.isEmpty) (pl.off g (hlChunk g qs m (pl.room g n)))
    (popcount pl.err0) ?_
  have hbegun (f0 : Byte) (llp : Bool) (off : BitVec 11) (e : Nat) : Holds g qs m (s.frameBegun f0 llp off e) :=
    ⟨h.begun, h.rem_eq, h.bytes_iff, rfl⟩
  have hreporting (f0 : Byte) (llp : Bool) (off : BitVec 11) (e : Nat) : Reporting g (s.frameBegun f0 llp off e) :=
    ⟨hs.gP_eq, hs.ptdpOut, hs.recOut⟩
  obtain ⟨first, lls, err0⟩ := pl
  cases lls with
  | nil => exact parsePayload_hl hg (hreporting ..) hok (hbegun ..) hpos hn hlen
  | cons q lls =>
    have hfits : (llpRunBytes g (q :: lls)).length + (n - (llpRunBytes g (q :: lls)).length) ≤ 2047 :=
      (Nat.add_sub_cancel' hrun).le.trans hn
    exact parsePayload_llp hg (hreporting ..) hok (hbegun ..) (List.cons_ne_nil _ _) hlls hfits hlen hroom

theorem length_frame {n : Nat} {pl : FramePlan} (hpl : pl.ok g n = true)
    {chunk : List MarkedByte} (hchunk : chunk.length = pl.room g n) : (pl.frame g chunk).length = n + 4 := by
  obtain ⟨hrun, -, -⟩ := FramePlan.ok_iff.mp hpl
  simp only [FramePlan.frame, List.length_append, List.length_cons, List.length_map, hchunk, FramePlan.room]
  rw [Nat.add_assoc, Nat.add_sub_cancel' hrun]
  exact Nat.add_comm 4 n

end Payload

/-- A stream from any point of it on. -/
theorem runFrames_stream {g : Rows} {n : Nat} (hg : golayValid g = true) (hpos : 0 < n) (hn : n ≤ 2047) (pls : List FramePlan) :
    ∀ {qs : List SentPtdp} {m : Nat} {s : State}, Reporting g s → s.tables = .built → (∀ q ∈ qs, q.ok = true) →
      Holds g qs m s → (∀ pl ∈ pls, pl.ok g n = true) → (hlBytes g qs).length = m + streamRoom g n pls →
      (s.remKind = .none → ∀ pl ∈ pls.head?, 0 < pl.room g n) →
      ∃ t, runFrames (streamFrames g n pls ((hlStream g qs).drop m)) s = .next t ∧
        Parses qs (pls.flatMap (·.llps)) s t ∧ t.remKind ≠ .bytes ∧ t.llpPending = false := by
  induction pls with
  | nil =>
    intro qs m s hs hbuilt hok h _ hlen _
    obtain ⟨hqs, hm⟩ := h.begun.exhausted hlen
    subst hm hqs
    exact ⟨s, rfl, .quiet rfl rfl rfl rfl rfl, fun hk => Nat.lt_irrefl 0 (h.bytes_iff.mp hk), h.llp_eq⟩
  | cons pl pls ih =>
    intro qs m s hs hbuilt hok h hpls hlen hroom
    have hpl : pl.ok g n = true := hpls pl List.mem_cons_self
    have hsum : streamRoom g n (pl :: pls) = pl.room g n + streamRoom g n pls := List.sum_cons
    have hfits : m + pl.room g n ≤ (hlBytes g qs).length := by omega
    obtain ⟨done, rest, m', rfl, hcount, hdone, hrest, hkind⟩ := parseFrame_plan hg hs hok h hpl hpos hn hfits
      (fun hk => hroom hk pl rfl)
    have hrests : ((hlStream g (done ++ rest)).drop m).drop (pl.room g n) = (hlStream g rest).drop m' := by
      rw [List.drop_drop, hcount, hlStream_append, length_hlBytes, List.drop_length_add_append]
    have htotal : (hlBytes g (done ++ rest)).length = (hlBytes g done).length + (hlBytes g rest).length := by
      rw [length_hlBytes, hlStream_append, List.length_append, length_hlBytes, length_hlBytes]
    obtain ⟨t, hruns, hparses, hend⟩ := ih (hs.of_parses hdone) (hdone.tables_eq.trans hbuilt)
      (fun q hq => hok q (List.mem_append_right _ hq)) hrest
      (fun pl' hpl' => hpls pl' (List.mem_cons_of_mem _ hpl')) (by omega) (fun hk => absurd hk hkind)
    have hframe := length_frame hpl (length_chunk hfits)
    refine ⟨t, ?_, hdone.trans hparses, hend⟩
    rw [streamFrames, ← hlChunk, runFrames, exec_frame_of_built hbuilt (by omega) (by omega), hrests]
    exact hruns

/-- Settles O49: at the start of an analysis nothing has arrived. -/
theorem producerStreamRoundTrips : Obligations.ProducerStreamRoundTrips := by
  intro s len ps pls hg hbuilt hout hrec hkind hrem hllp hmin hmax hps hpls hlen hfirst
  have hbytes : s.remKind = .bytes ↔ 0 < 0 := hkind ▸ ⟨nofun, fun h => absurd h (Nat.lt_irrefl 0)⟩
  have hstart : Holds s.cfg.gP ps 0 s := ⟨.inl rfl, hrem, hbytes, hllp⟩
  obtain ⟨t, hrun, ⟨⟨bs, hrsp, hbs, hhl, hll⟩, hevt, -⟩, hend⟩ := runFrames_stream (n := len - 4) hg (by omega) (by omega)
    pls ⟨rfl, hout, hrec⟩ hbuilt (List.all_eq_true.mp hps) hstart (List.all_eq_true.mp hpls)
    (by rw [length_hlBytes, hlen, Nat.zero_add]) (fun _ => hfirst)
  exact ⟨t, bs, hrun, hrsp, hbs, hhl, hll, hevt, hend⟩

end Sys2Proof.Machine
end

