-- ==== Sys2Proof/Proofs/OffsetCheck.lean ====
section
/-! PROOFS. OFFCHK_EN decides nothing but one report (41_ptfr_parser R217): the parser reads neither that bit (but for the check) nor
the pending events nor the responses, so a FRAME commutes with a change of what it does not read. -/

-- Proofs are elaborated one after another: in parallel, they and the tests' kernel checks exceed the check's memory limit.
set_option deprecated.oldSectionVars true

namespace Sys2Proof.Machine

/-! ## What the parser does not read -/

/-- OFFCHK_EN, events already pending and responses already emitted. -/
structure Unread where
  offchk : Bool
  pending : Word
  sent : List Word

/-- The state with OFFCHK_EN set, more events pending and earlier responses in front. -/
def State.withUnread (s : State) (u : Unread) : State :=
  { s with
    ctrl := bit u.offchk ++ s.ctrl.extractLsb' 0 4
    evtPending := u.pending ||| s.evtPending
    rspOut := u.sent ++ s.rspOut }

section Commutes

variable (s : State) (u : Unread)

theorem withUnread_ctrl_low {i : Nat} (hi : i < 4) : (s.withUnread u).ctrl.getLsbD i = s.ctrl.getLsbD i := by
  rw [State.withUnread, BitVec.getLsbD_append, if_pos hi, BitVec.getLsbD_extractLsb', Nat.zero_add, decide_eq_true hi,
    Bool.true_and]

@[simp] theorem withUnread_ptdpOutEn : (s.withUnread u).ptdpOutEn = s.ptdpOutEn := withUnread_ctrl_low s u (by decide)

@[simp] theorem withUnread_recOutEn : (s.withUnread u).recOutEn = s.recOutEn := withUnread_ctrl_low s u (by decide)

@[simp] theorem withUnread_evtOutEn : (s.withUnread u).evtOutEn = s.evtOutEn := withUnread_ctrl_low s u (by decide)

@[simp] theorem withUnread_gfailResync : (s.withUnread u).gfailResync = s.gfailResync := withUnread_ctrl_low s u (by decide)

@[simp] theorem withUnread_offchkEn : (s.withUnread u).offchkEn = u.offchk := by
  rw [State.offchkEn, State.withUnread, BitVec.getLsbD_append, if_neg (by decide)]
  exact getLsbD_bit_zero _

@[simp] theorem withUnread_cfg : (s.withUnread u).cfg = s.cfg := rfl

@[simp] theorem withUnread_ctx (τ : Latency) : (s.withUnread u).ctx τ = s.ctx τ := by
  cases τ <;> rfl

@[simp] theorem withUnread_emitAll (ws : List Word) : (s.withUnread u).emitAll ws = (s.emitAll ws).withUnread u := by
  simp only [State.emitAll, State.withUnread, List.append_assoc]

@[simp] theorem withUnread_emit (w : Word) : (s.withUnread u).emit w = (s.emit w).withUnread u := withUnread_emitAll s u [w]

@[simp] theorem withUnread_setPending (e : Event) : (s.withUnread u).setPending e = (s.setPending e).withUnread u := by
  simp only [State.setPending, State.withUnread, BitVec.or_assoc]

/-- A branch that both states take alike. -/
@[simp] theorem withUnread_ite (c : Prop) [Decidable c] (a b : State) :
    (if c then a.withUnread u else b.withUnread u) = (if c then a else b).withUnread u :=
  (apply_ite (·.withUnread u) c a b).symm

@[simp] theorem withUnread_raise (e : Event) (info : BitVec 16) :
    (s.withUnread u).raise e info = (s.raise e info).withUnread u := by
  simp [State.raise]

@[simp] theorem withUnread_setCtx (τ : Latency) (c : Context) : (s.withUnread u).setCtx τ c = (s.setCtx τ c).withUnread u := by
  cases τ <;> rfl

@[simp] theorem withUnread_dropChain (τ : Latency) : (s.withUnread u).dropChain τ = (s.dropChain τ).withUnread u := by
  simp [State.dropChain]

@[simp] theorem withUnread_abandon (τ : Latency) : (s.withUnread u).abandon τ = (s.abandon τ).withUnread u := by
  simp [State.abandon]

@[simp] theorem withUnread_countRecord : (s.withUnread u).countRecord = s.countRecord.withUnread u := rfl

@[simp] theorem withUnread_countPtdp : (s.withUnread u).countPtdp = s.countPtdp.withUnread u := rfl

@[simp] theorem withUnread_countUncorr : (s.withUnread u).countUncorr = s.countUncorr.withUnread u := rfl

@[simp] theorem withUnread_countCorrBits (n : Word) : (s.withUnread u).countCorrBits n = (s.countCorrBits n).withUnread u := rfl

@[simp] theorem withUnread_countLenErr : (s.withUnread u).countLenErr = s.countLenErr.withUnread u := rfl

@[simp] theorem withUnread_record (τ : Latency) (content : BitVec 4) (bytes : List Byte) :
    (s.withUnread u).record τ content bytes = (s.record τ content bytes).withUnread u := by
  simp [State.record]

@[simp] theorem withUnread_raiseOverflow (τ : Latency) : (s.withUnread u).raiseOverflow τ = (s.raiseOverflow τ).withUnread u :=
  withUnread_raise ..

@[simp] theorem withUnread_raTake (τ : Latency) (fr : Fragment) (content : BitVec 4) (data : List Byte) :
    (s.withUnread u).raTake τ fr content data = (s.raTake τ fr content data).withUnread u := by
  have hfill : (s.withUnread u).fillCode = s.fillCode := rfl
  cases fr <;> simp [State.raTake, hfill, State.takeComplete, State.takeFirst, State.takeMiddle, State.takeLast]

@[simp] theorem withUnread_emitPtdp (τ : Latency) (h : PtdpHeader) (data : List Byte) :
    (s.withUnread u).emitPtdp τ h data = (s.emitPtdp τ h data).withUnread u := by
  simp [State.emitPtdp]

@[simp] theorem withUnread_countGolay (e : BitVec 3) (field : BitVec 16) :
    (s.withUnread u).countGolay e field = (s.countGolay e field).withUnread u := by
  simp [State.countGolay]

theorem resync_eq : s.resync = if s.loseSync.recOutEn then (s.loseSync.abandon .hl).abandon .ll else s.loseSync := rfl

@[simp] theorem withUnread_resync : (s.withUnread u).resync = s.resync.withUnread u := by
  have hlost : (s.withUnread u).loseSync = s.loseSync.withUnread u := rfl
  simp [resync_eq, hlost]

@[simp] theorem withUnread_lengthError (n : BitVec 16) : (s.withUnread u).lengthError n = (s.lengthError n).withUnread u := by
  simp [State.lengthError]

@[simp] theorem withUnread_awaitLlp : (s.withUnread u).awaitLlp = s.awaitLlp.withUnread u := rfl

@[simp] theorem withUnread_consumed : (s.withUnread u).consumed = s.consumed.withUnread u := rfl

@[simp] theorem withUnread_keepRemainder (b : List Byte) :
    (s.withUnread u).keepRemainder b = (s.keepRemainder b).withUnread u := rfl

@[simp] theorem withUnread_frameDone : (s.withUnread u).frameDone = s.frameDone.withUnread u := withUnread_emit ..

@[simp] theorem withUnread_countFrame : (s.withUnread u).countFrame = s.countFrame.withUnread u := rfl

@[simp] theorem withUnread_retire : (s.withUnread u).retire = s.retire.withUnread u := rfl

@[simp] theorem withUnread_enterPayload (llp : Bool) :
    (s.withUnread u).enterPayload llp = (s.enterPayload llp).withUnread u := by
  have hclear (t : State) : { t.withUnread u with llpPending := false } = State.withUnread { t with llpPending := false } u := rfl
  have hllp : (s.withUnread u).llpPending = s.llpPending := rfl
  rw [State.enterPayload, State.enterPayload, hllp, withUnread_raise, withUnread_ite, hclear]

end Commutes

/-- The answer of `unpack` is the same. -/
theorem withUnread_unpack {s t : State} {b : List Byte} {x : Unpacked} (h : s.unpack b = (x, t)) (u : Unread) :
    (s.withUnread u).unpack b = (x, t.withUnread u) := by
  have hmap : (s.withUnread u).unpack b = Prod.map id (·.withUnread u) (s.unpack b) := by
    obtain hshort | hheader := Nat.lt_or_ge b.length 6
    · rw [unpack_short hshort, unpack_short hshort]
      rfl
    · have hcount : countHeader (s.withUnread u) b = (countHeader s b).withUnread u := by
        simp [countHeader]
      rw [unpack_header hheader, unpack_header hheader, hcount, withUnread_gfailResync, withUnread_cfg]
      simp only [apply_ite (Prod.map _ _), Prod.map_apply, id_eq]
  rw [hmap, h]
  rfl

theorem offsetProbe_false (s : State) (n : Nat) (off : BitVec 11) (pos : Int) : s.offsetProbe n off false pos = s := rfl

theorem offsetFinal_false (s : State) (off : BitVec 11) : s.offsetFinal off false = s := rfl

/-- HL_LOOP without an offset check. -/
theorem withUnread_hlLoop (n : Nat) (off : BitVec 11) (fuel : Nat) : ∀ (b : List Byte) (pos : Int) (s : State) (u : Unread),
    hlLoop n off fuel b pos false (s.withUnread u) = (hlLoop n off fuel b pos false s).withUnread u := by
  induction fuel with
  | zero => intro b pos s u; rfl
  | succ fuel ih =>
    intro b pos s u
    by_cases hb : b = []
    · subst hb
      rw [hlLoop_nil, hlLoop_nil]
      rfl
    · obtain ⟨x, t, hu⟩ : ∃ x t, (s.offsetProbe n off false pos).unpack b = (x, t) := ⟨_, _, rfl⟩
      have hu' : ((s.withUnread u).offsetProbe n off false pos).unpack b = (x, t.withUnread u) := by
        rw [offsetProbe_false] at hu ⊢
        exact withUnread_unpack hu u
      cases x with
      | inc =>
        rw [hlLoop_inc hb hu, hlLoop_inc hb hu', Bool.false_and, offsetFinal_false, offsetFinal_false,
          withUnread_keepRemainder, withUnread_raise]
      | len m => rw [hlLoop_len hu, hlLoop_len hu', withUnread_lengthError]
      | gfail => rw [hlLoop_gfail hu, hlLoop_gfail hu', withUnread_resync]
      | ok h data =>
        rw [hlLoop_ok hu, hlLoop_ok hu', Bool.false_and, withUnread_emitPtdp, ih]

/-- An LLP run, but for its offset check: it ends the frame, or the check follows. -/
theorem withUnread_llpRun (p : List Byte) (off : BitVec 11) (fuel : Nat) : ∀ (c : Nat) (s : State),
    (∃ t : State, ∀ u, llpRun p off fuel c (s.withUnread u) = .done (t.withUnread u)) ∨
    (∃ (c' : Nat) (t : State), t.ctrl = s.ctrl ∧
      ∀ u, llpRun p off fuel c (s.withUnread u) = .hl c' ((t.withUnread u).checkLlpOffset off c')) := by
  induction fuel with
  | zero => intro c s; exact .inl ⟨s, fun _ => rfl⟩
  | succ fuel ih =>
    intro c s
    obtain ⟨x, t, hu⟩ : ∃ x t, s.unpack (p.drop c) = (x, t) := ⟨_, _, rfl⟩
    have hu' := withUnread_unpack hu
    cases x with
    | inc => exact .inl ⟨_, fun u => (llpRun_inc (hu' u)).trans (by rw [withUnread_raise, withUnread_resync])⟩
    | len m => exact .inl ⟨_, fun u => (llpRun_len (hu' u)).trans (by rw [withUnread_lengthError])⟩
    | gfail => exact .inl ⟨_, fun u => (llpRun_gfail (hu' u)).trans (by rw [withUnread_resync])⟩
    | ok h data =>
      have hreported : PtdpWrites s (t.emitPtdp .ll h data) := ((PtdpWrites.start s).unpack hu).emitPtdp _ _ _
      obtain hend | hin := le_or_gt p.length (c + ptdpSize h)
      · exact .inl ⟨_, fun u => (llpRun_ok_noMarker (hu' u) hend).trans
          (by rw [withUnread_emitPtdp, withUnread_raise, withUnread_awaitLlp])⟩
      by_cases hm : byteAt p (c + ptdpSize h) = 0xFF
      · obtain hlast | hmore := Nat.eq_or_lt_of_le (Nat.succ_le_of_lt hin)
        · exact .inl ⟨_, fun u => (llpRun_ok_lastMarker (hu' u) hm hlast).trans
            (by rw [withUnread_emitPtdp, withUnread_awaitLlp])⟩
        · have hnext (u : Unread) : llpRun p off (fuel + 1) c (s.withUnread u) =
              llpRun p off fuel (c + ptdpSize h + 1) ((t.emitPtdp .ll h data).withUnread u) := by
            rw [llpRun_ok_nextMarker (hu' u) hm hmore, withUnread_emitPtdp]
          simp only [hnext, ← hreported.ctrl_eq]
          exact ih ..
      · refine .inr ⟨_, _, ?_, fun u => (llpRun_ok_endMarker (hu' u) hin hm).trans
          (by rw [withUnread_emitPtdp, withUnread_raise, withUnread_ite])⟩
        exact (PtdpWrites.branch hreported (hreported.raise _ _)).ctrl_eq

/-! ## The buffers (R213, R215) -/

section Buffers

variable (s : State) (u : Unread) (p : List Byte) (off : BitVec 11)

theorem withUnread_positioned :
    (s.withUnread u).positioned p off = ((s.positioned p off).1, (s.positioned p off).2.withUnread u) := by
  simp [State.positioned]

/-- The buffer after an LLP run: no offset check is pending on it. -/
theorem withUnread_hlAfterLlp (c : Nat) :
    (s.hlAfterLlp p off c).1.check = false ∧
      (s.withUnread u).hlAfterLlp p off c = ((s.hlAfterLlp p off c).1, (s.hlAfterLlp p off c).2.withUnread u) := by
  have hkind : (s.withUnread u).remKind = s.remKind := rfl
  rw [State.hlAfterLlp, State.hlAfterLlp, hkind]
  cases s.remKind with
  | none =>
    cases offPositions off with
    | true => exact ⟨rfl, withUnread_positioned s u p off⟩
    | false => exact ⟨rfl, rfl⟩
  | empty | bytes => exact ⟨rfl, rfl⟩

/-- The initial buffer: OFFCHK_EN decides nothing but the check pending on it. -/
theorem withUnread_initialBuffer : ∃ (check : Bool),
    (u.offchk = false → check = false) ∧
      (s.withUnread u).initialBuffer p off =
        ({ (s.initialBuffer p off).1 with check := check }, (s.initialBuffer p off).2.withUnread u) := by
  have hkind : (s.withUnread u).remKind = s.remKind := rfl
  rw [State.initialBuffer, State.initialBuffer, hkind, withUnread_offchkEn]
  cases s.remKind with
  | none | empty =>
    cases offPositions off with
    | true => exact ⟨false, fun _ => rfl, withUnread_positioned s u p off⟩
    | false => exact ⟨u.offchk, id, rfl⟩
  | bytes => exact ⟨u.offchk, id, rfl⟩

end Buffers

/-! ## One report (R217) -/

/-- From one state to the other, OFFCHK_EN is set and at most one OFFSET_MISMATCH is reported, behind the words `r`. -/
def AddsReport (r : List Word) (evt : Bool) (s t : State) : Prop :=
  (∃ x : State, s = x.withUnread ⟨false, 0, r⟩ ∧ t = x.withUnread ⟨true, 0, r⟩) ∨
  ∃ (x : State) (a : List Word) (info : BitVec 16), s = x.withUnread ⟨false, 0, r ++ a⟩ ∧
    t = x.withUnread ⟨true, 0x00000800, r ++ a ++ (if evt then [0xE013#16 ++ info] else [])⟩

theorem evtOutEn_of_ctrl {s t : State} (h : t.ctrl = s.ctrl) : t.evtOutEn = s.evtOutEn := congrArg (·.getLsbD 2) h

/-- Behind a position where the check is made, the loop goes on without it. -/
theorem hlLoop_of_probes {n : Nat} {off : BitVec 11} {fuel : Nat} {b : List Byte} {pos : Int} {check : Bool} {s : State}
    (h : probes n check pos = true) :
    hlLoop n off (fuel + 1) b pos check s = hlLoop n off (fuel + 1) b pos false (s.offsetProbe n off check pos) := by
  rw [hlLoop, hlLoop, h, Bool.not_true, Bool.and_false]
  rfl

namespace AddsReport

variable {r : List Word} {evt : Bool} {s t : State}

theorem same (r : List Word) (evt : Bool) (x : State) :
    AddsReport r evt (x.withUnread ⟨false, 0, r⟩) (x.withUnread ⟨true, 0, r⟩) := .inl ⟨x, rfl, rfl⟩

/-- What does not read these fields keeps the relation. -/
theorem map (h : AddsReport r evt s t) {F : State → State} (hF : ∀ x u, F (State.withUnread x u) = (F x).withUnread u) :
    AddsReport r evt (F s) (F t) := by
  obtain ⟨x, rfl, rfl⟩ | ⟨x, a, info, rfl, rfl⟩ := h
  · exact .inl ⟨F x, hF _ _, hF _ _⟩
  · exact .inr ⟨F x, a, info, hF _ _, hF _ _⟩

theorem raise {x : State} (hevt : x.evtOutEn = evt) (info : BitVec 16) :
    AddsReport r evt (x.withUnread ⟨false, 0, r⟩) ((x.withUnread ⟨true, 0, r⟩).raise .offsetMismatch info) := by
  refine .inr ⟨{ x with rspOut := [] }, x.rspOut, info, ?_, ?_⟩
  · simp only [State.withUnread, List.append_nil]
  · rw [raise_eq, evtWords, withUnread_evtOutEn, hevt]
    have hpending : 0 ||| x.evtPending ||| BitVec.twoPow 32 Event.offsetMismatch.bit = 0x00000800 ||| x.evtPending :=
      (BitVec.or_comm _ _).trans (congrArg (_ ||| ·) BitVec.zero_or)
    simp only [State.withUnread, List.append_nil, hpending]
    rfl

/-- A report that is made where the check fails. -/
theorem raiseIf {x : State} (hevt : x.evtOutEn = evt) (c : Prop) [Decidable c] (info : BitVec 16) :
    AddsReport r evt (x.withUnread ⟨false, 0, r⟩)
      (if c then (x.withUnread ⟨true, 0, r⟩).raise .offsetMismatch info else x.withUnread ⟨true, 0, r⟩) :=
  iteInduction (motive := AddsReport r evt _) (fun _ => raise hevt info) fun _ => same r evt x

/-- HL_LOOP without the check and with it. -/
theorem of_hlLoop (n : Nat) (off : BitVec 11) (check : Bool) (fuel : Nat) : ∀ {b : List Byte} {pos : Int} {x : State},
    x.evtOutEn = evt →
      AddsReport r evt (hlLoop n off fuel b pos false (x.withUnread ⟨false, 0, r⟩))
        (hlLoop n off fuel b pos check (x.withUnread ⟨true, 0, r⟩)) := by
  induction fuel with
  | zero => intro b pos x _; exact same r evt x
  | succ fuel ih =>
    intro b pos x hevt
    cases hprobes : probes n check pos with
    | true =>
      rw [hlLoop_of_probes hprobes]
      exact (raiseIf hevt _ _).map (F := hlLoop n off (fuel + 1) b pos false) fun y u => withUnread_hlLoop ..
    | false =>
      have hunprobed (s : State) : s.offsetProbe n off check pos = s := by
        rw [State.offsetProbe, hprobes, if_neg fun h => Bool.false_ne_true h.1]
      have hpending : (check && !probes n check pos) = check := by rw [hprobes, Bool.not_false, Bool.and_true]
      by_cases hb : b = []
      · subst hb
        rw [hlLoop_nil, hlLoop_nil, hunprobed, hpending]
        exact (raiseIf hevt _ _).map fun _ _ => withUnread_consumed ..
      obtain ⟨a, y, hu⟩ : ∃ a y, x.unpack b = (a, y) := ⟨_, _, rfl⟩
      have hy : y.ctrl = x.ctrl := ((PtdpWrites.start x).unpack hu).ctrl_eq
      have huOff : ((x.withUnread ⟨false, 0, r⟩).offsetProbe n off false pos).unpack b = (a, y.withUnread ⟨false, 0, r⟩) :=
        withUnread_unpack hu _
      have huOn : ((x.withUnread ⟨true, 0, r⟩).offsetProbe n off check pos).unpack b = (a, y.withUnread ⟨true, 0, r⟩) := by
        rw [hunprobed]
        exact withUnread_unpack hu _
      cases a with
      | inc =>
        rw [hlLoop_inc hb huOff, hlLoop_inc hb huOn, hpending, withUnread_keepRemainder, withUnread_keepRemainder]
        have hevt' : (y.keepRemainder b).evtOutEn = evt := (evtOutEn_of_ctrl hy).trans hevt
        exact (raiseIf hevt' _ _).map (F := (State.raise · .ptdpIncomplete (BitVec.ofNat 16 b.length))) fun _ _ =>
          withUnread_raise ..
      | len m =>
        rw [hlLoop_len huOff, hlLoop_len huOn]
        exact (same r evt y).map (F := (State.lengthError · m)) fun _ _ => withUnread_lengthError ..
      | gfail =>
        rw [hlLoop_gfail huOff, hlLoop_gfail huOn]
        exact (same r evt y).map fun _ _ => withUnread_resync ..
      | ok h data =>
        have hreported : PtdpWrites x (y.emitPtdp .hl h data) := ((PtdpWrites.start x).unpack hu).emitPtdp _ _ _
        rw [hlLoop_ok huOff, hlLoop_ok huOn, hpending, withUnread_emitPtdp, withUnread_emitPtdp]
        exact ih ((evtOutEn_of_ctrl hreported.ctrl_eq).trans hevt)

/-- A payload without the check and with it: the check is made at the end of the LLP run, or in HL_LOOP. -/
theorem of_parsePayload {x : State} (hevt : x.evtOutEn = evt) (p : List Byte) (llp : Bool) (off : BitVec 11) :
    AddsReport r evt ((x.withUnread ⟨false, 0, r⟩).parsePayload p llp off)
      ((x.withUnread ⟨true, 0, r⟩).parsePayload p llp off) := by
  cases llp with
  | false =>
    obtain ⟨checkOff, hoff, hbufOff⟩ := withUnread_initialBuffer x ⟨false, 0, r⟩ p off
    obtain ⟨checkOn, -, hbufOn⟩ := withUnread_initialBuffer x ⟨true, 0, r⟩ p off
    obtain rfl := hoff rfl
    rw [State.parsePayload, State.parsePayload, if_neg Bool.false_ne_true, if_neg Bool.false_ne_true, hbufOff, hbufOn]
    exact of_hlLoop _ _ _ _ ((evtOutEn_of_ctrl ((PtdpWrites.start x).initialBuffer p off).ctrl_eq).trans hevt)
  | true =>
    rw [State.parsePayload, State.parsePayload, if_pos rfl, if_pos rfl]
    obtain ⟨t, hrun⟩ | ⟨c, t, hctrl, hrun⟩ := withUnread_llpRun p off (p.length + 1) 0 x
    · rw [hrun, hrun]
      exact same r evt t
    · rw [hrun, hrun]
      have hchecked : AddsReport r evt ((t.withUnread ⟨false, 0, r⟩).checkLlpOffset off c)
          ((t.withUnread ⟨true, 0, r⟩).checkLlpOffset off c) := by
        have hunchecked : (t.withUnread ⟨false, 0, r⟩).checkLlpOffset off c = t.withUnread ⟨false, 0, r⟩ := by
          rw [State.checkLlpOffset, withUnread_offchkEn, if_neg fun h => Bool.false_ne_true h.1]
        rw [hunchecked]
        exact raiseIf ((evtOutEn_of_ctrl hctrl).trans hevt) _ _
      refine hchecked.map (F := fun y => (y.hlAfterLlp p off c).2.runHl p.length off (y.hlAfterLlp p off c).1) fun y u => ?_
      obtain ⟨hcheck, hbuf⟩ := withUnread_hlAfterLlp y u p off c
      rw [hbuf, State.runHl, State.runHl, hcheck, withUnread_hlLoop]

theorem of_parseFrame {x : State} (hevt : x.evtOutEn = evt) (f : List Byte) :
    AddsReport r evt ((x.withUnread ⟨false, 0, r⟩).parseFrame f) ((x.withUnread ⟨true, 0, r⟩).parseFrame f) := by
  simp only [State.parseFrame, State.parseDecoded, withUnread_cfg, withUnread_countFrame, withUnread_emit, withUnread_countGolay,
    withUnread_gfailResync, withUnread_enterPayload, withUnread_resync]
  refine iteInduction (motive := fun y => AddsReport r evt y _) (fun hbad => ?_) fun hgood => ?_
  · rw [if_pos hbad]
    exact (same r evt _).map fun _ _ => withUnread_frameDone ..
  · rw [if_neg hgood]
    refine (of_parsePayload ?_ _ _ _).map fun _ _ => withUnread_frameDone ..
    refine (evtOutEn_of_ctrl ?_).trans hevt
    rw [enterPayload_eq]
    exact countGolay_ctrl ..

end AddsReport

theorem withOffchk_withUnread (x : State) (u : Unread) (b : Bool) :
    (x.withUnread u).withOffchk b = x.withUnread { u with offchk := b } := by
  have hlow : (bit u.offchk ++ x.ctrl.extractLsb' 0 4).extractLsb' 0 4 = x.ctrl.extractLsb' 0 4 :=
    BitVec.extractLsb'_append_eq_right
  simp only [State.withOffchk, State.withUnread, hlow]

theorem withOffchk_eq_withUnread (s : State) (b : Bool) :
    s.withOffchk b = State.withUnread { s with rspOut := [] } ⟨b, 0, s.rspOut⟩ := by
  have hpending : 0 ||| s.evtPending = s.evtPending := BitVec.zero_or
  simp only [State.withOffchk, State.withUnread, List.append_nil, hpending]

/-- Settles O48: both FRAMEs parse one state under two choices of what the parser does not read. -/
theorem offsetCheckOnlyReports : Obligations.OffsetCheckOnlyReports := by
  intro s t0 t1 f h0 h1
  by_cases hs : s.tables = .built
  · have hadds : AddsReport s.rspOut s.evtOutEn t0 t1 := by
      rw [exec_frame_next (s := s.withOffchk false) hs h0, exec_frame_next (s := s.withOffchk true) hs h1,
        withOffchk_eq_withUnread, withOffchk_eq_withUnread, withUnread_retire, withUnread_retire]
      exact .of_parseFrame rfl f
    obtain ⟨x, rfl, rfl⟩ | ⟨x, a, info, rfl, rfl⟩ := hadds
    · exact .inl (withOffchk_withUnread x ⟨false, 0, s.rspOut⟩ true).symm
    · have hpending : 0x00000800 ||| x.evtPending = 0 ||| x.evtPending ||| 0x00000800 :=
        (BitVec.or_comm _ _).trans (congrArg (· ||| _) BitVec.zero_or.symm)
      refine .inr ⟨s.rspOut ++ a ++ (if s.evtOutEn then [0xE013#16 ++ info] else []) ++ x.rspOut, ?_, ?_⟩
      · rw [withOffchk_withUnread]
        simp only [State.withUnread, hpending]
      · cases hevt : s.evtOutEn with
        | false => exact .inl ⟨rfl, congrArg (· ++ x.rspOut) (List.append_nil _)⟩
        | true => exact .inr ⟨rfl, a, x.rspOut, info, rfl, rfl⟩
  · rw [exec_of_held (s := s.withOffchk false) rfl hs] at h0
    rw [exec_of_held (s := s.withOffchk true) rfl hs] at h1
    rw [← Host.Outcome.next.inj h0, ← Host.Outcome.next.inj h1]
    rw [withOffchk_eq_withUnread, withOffchk_eq_withUnread s, withOffchk_withUnread]
    exact .inl rfl

end Sys2Proof.Machine
end

