-- ==== Sys2Proof/Proofs/Reassembly.lean ====
section
/-! PROOFS. The reassembler's answer to one PTDP, fragment by fragment, and what it can write at all (42_reassembly R270 to R278). -/

-- Proofs are elaborated one after another: in parallel, they and the tests' kernel checks exceed the check's memory limit.
set_option deprecated.oldSectionVars true

namespace Sys2Proof.Machine

/-! ## Contexts -/

section Contexts

variable (s : State) (t : Latency)

@[simp] theorem raise_ctx (e : Event) (info : BitVec 16) : (s.raise e info).ctx t = s.ctx t := by
  cases t
  · exact raise_ctxHl s e info
  · exact raise_ctxLl s e info

@[simp] theorem setCtx_ctx_self : s.setCtx t (s.ctx t) = s := by
  cases t <;> rfl

@[simp] theorem setCtx_setCtx (c d : Context) : (s.setCtx t c).setCtx t d = s.setCtx t d := by
  cases t <;> rfl

theorem abandon_counters : (s.abandon t).counters = s.counters := by
  rw [abandon_eq, setCtx_counters]

/-- Abandoning leaves the context idle and its content code as it was. -/
theorem abandon_ctx :
    (s.abandon t).ctx t = if (s.ctx t).active then ⟨false, (s.ctx t).content, []⟩ else s.ctx t := by
  rw [abandon_eq, ctx_setCtx_self]

/-- A report does not show in the context that is dropped after it. -/
theorem dropChain_raise (e : Event) (info : BitVec 16) :
    (s.raise e info).dropChain t = (s.raise e info).setCtx t ⟨false, (s.ctx t).content, []⟩ := by
  rw [State.dropChain, raise_ctx]

/-- A record leaves the contexts alone. -/
theorem dropChain_record (content : BitVec 4) (bytes : List Byte) :
    (s.record t content bytes).dropChain t = (s.record t content bytes).setCtx t ⟨false, (s.ctx t).content, []⟩ := by
  cases t <;> rfl

theorem record_setCtx (c : Context) (content : BitVec 4) (bytes : List Byte) :
    (s.setCtx t c).record t content bytes = (s.record t content bytes).setCtx t c := by
  cases t <;> rfl

end Contexts

/-- The info of FRAG_ORPHAN, as R276 writes it. -/
theorem orphanInfo_eq_or (t : Latency) (fr : Fragment) :
    orphanInfo t fr = (t.bit.setWidth 16 <<< 2) ||| fr.code.setWidth 16 := by
  cases t <;> cases fr <;> rfl

/-! ## Which rule a PTDP meets (R270, R271) -/

section Dispatch

variable (s : State) (t : Latency) (content : BitVec 4) (data : List Byte)

theorem raTake_fill (fr : Fragment) : s.raTake t fr s.fillCode data = s := if_pos rfl

variable {s content} (h : content ≠ s.fillCode)
include h

theorem raTake_complete : s.raTake t .complete content data = s.takeComplete t content data := if_neg h

theorem raTake_first : s.raTake t .first content data = s.takeFirst t content data := if_neg h

theorem raTake_middle : s.raTake t .middle content data = s.takeMiddle t data := if_neg h

theorem raTake_last : s.raTake t .last content data = s.takeLast t data := if_neg h

end Dispatch

/-! ## The answer to each fragment (R272 to R277) -/

section Fragments

variable {s : State} {t : Latency} {data : List Byte}

theorem takeComplete_record (content : BitVec 4) (h : data.length ≤ s.cfg.maxRecordBytes) :
    s.takeComplete t content data = (s.abandon t).record t content data := if_neg (Nat.not_lt.mpr h)

theorem takeComplete_overflow (content : BitVec 4) (h : s.cfg.maxRecordBytes < data.length) :
    s.takeComplete t content data = (s.abandon t).raiseOverflow t := if_pos h

theorem takeFirst_open (content : BitVec 4) (h : data.length ≤ s.cfg.maxRecordBytes) :
    s.takeFirst t content data = (s.abandon t).setCtx t ⟨true, content, data⟩ := if_neg (Nat.not_lt.mpr h)

theorem takeFirst_overflow (content : BitVec 4) (h : s.cfg.maxRecordBytes < data.length) :
    s.takeFirst t content data = (s.abandon t).raiseOverflow t := if_pos h

theorem takeMiddle_orphan (hidle : (s.ctx t).active = false) :
    s.takeMiddle t data = s.raise .fragOrphan (orphanInfo t .middle) := if_neg (ne_true_of_eq_false hidle)

theorem takeLast_orphan (hidle : (s.ctx t).active = false) :
    s.takeLast t data = s.raise .fragOrphan (orphanInfo t .last) := if_neg (ne_true_of_eq_false hidle)

variable (hactive : (s.ctx t).active = true)
include hactive

theorem takeMiddle_extend (h : (s.ctx t).buf.length + data.length ≤ s.cfg.maxRecordBytes) :
    s.takeMiddle t data = s.setCtx t ⟨true, (s.ctx t).content, (s.ctx t).buf ++ data⟩ := by
  rw [State.takeMiddle, if_pos hactive, if_neg (Nat.not_lt.mpr h), ← hactive]

theorem takeMiddle_overflow (h : s.cfg.maxRecordBytes < (s.ctx t).buf.length + data.length) :
    s.takeMiddle t data = (s.raiseOverflow t).setCtx t ⟨false, (s.ctx t).content, []⟩ := by
  rw [State.takeMiddle, if_pos hactive, if_pos h]
  exact dropChain_raise ..

theorem takeLast_record (h : (s.ctx t).buf.length + data.length ≤ s.cfg.maxRecordBytes) :
    s.takeLast t data =
      (s.record t (s.ctx t).content ((s.ctx t).buf ++ data)).setCtx t ⟨false, (s.ctx t).content, []⟩ := by
  rw [State.takeLast, if_pos hactive, if_neg (Nat.not_lt.mpr h), dropChain_record]

theorem takeLast_overflow (h : s.cfg.maxRecordBytes < (s.ctx t).buf.length + data.length) :
    s.takeLast t data = (s.raiseOverflow t).setCtx t ⟨false, (s.ctx t).content, []⟩ := by
  rw [State.takeLast, if_pos hactive, if_pos h]
  exact dropChain_raise ..

end Fragments

/-- Settles O53: the fill code is checked before the fragment code. -/
theorem fillIsIgnored : Obligations.FillIsIgnored := fun s t fr data => raTake_fill s t data fr

/-- Settles O54: the chain in progress is abandoned, whatever the COMPLETE's length. -/
theorem completeIsARecord : Obligations.CompleteIsARecord := by
  intro s t content data hfill
  refine ⟨fun hlen => ?_, fun hlen => ?_, abandon_ctx s t⟩
  · rw [raTake_complete t data hfill, takeComplete_record content hlen, ← abandon_counters s t]
    rfl
  · rw [raTake_complete t data hfill, takeComplete_overflow content hlen]
    rfl

/-- Settles O55: by fragment, then by whether a chain is open and by the length. -/
theorem firstAndMiddleBuildAChain : Obligations.FirstAndMiddleBuildAChain := by
  intro s t content data hfill
  rw [raTake_first t data hfill, raTake_middle t data hfill]
  exact ⟨takeFirst_open content, takeFirst_overflow content,
    fun hidle => (takeMiddle_orphan hidle).trans (congrArg _ (orphanInfo_eq_or t .middle)), takeMiddle_extend,
    takeMiddle_overflow⟩

/-- Settles O56: by whether a chain is open and by the length of the whole record. -/
theorem lastEmitsTheRecord : Obligations.LastEmitsTheRecord := by
  intro s t content data hfill
  rw [raTake_last t data hfill]
  refine ⟨fun hidle => (takeLast_orphan hidle).trans (congrArg _ (orphanInfo_eq_or t .last)), fun hactive hlen => ?_,
    takeLast_overflow⟩
  rw [takeLast_record hactive hlen, ← List.length_append]
  rfl

/-! ## What taking a PTDP can write (R270) -/

/-- `u` is `s` with CNT_RECORDS at `n`, events of RA made pending (60_exceptions R331: bits 17 to 19), responses appended and the context
of class `t` set. -/
def RaWrites (t : Latency) (n : Word) (s u : State) : Prop :=
  ∃ c p ws, u =
    ({ s with
        counters := { s.counters with records := n }
        evtPending := s.evtPending ||| p
        rspOut := s.rspOut ++ ws } : State).setCtx t c ∧
    p &&& ~~~0x000E0000 = 0

namespace RaWrites

variable {t : Latency} {n : Word} {s u : State}

theorem start (t : Latency) (s : State) : RaWrites t s.counters.records s s := by
  refine ⟨s.ctx t, 0, [], ?_, rfl⟩
  have hpending : s.evtPending ||| 0 = s.evtPending := BitVec.or_zero
  rw [hpending, List.append_nil]
  exact (setCtx_ctx_self s t).symm

theorem setCtx (h : RaWrites t n s u) (c : Context) : RaWrites t n s (u.setCtx t c) := by
  obtain ⟨_, p, ws, rfl, hp⟩ := h
  exact ⟨c, p, ws, setCtx_setCtx .., hp⟩

theorem raise (h : RaWrites t n s u) (e : Event) (info : BitVec 16) (he : BitVec.twoPow 32 e.bit &&& ~~~0x000E0000 = 0) :
    RaWrites t n s (u.raise e info) := by
  obtain ⟨c, p, ws, rfl, hp⟩ := h
  refine ⟨c, p ||| BitVec.twoPow 32 e.bit, ws ++ evtWords s e info, ?_, ?_⟩
  · rw [raise_eq, ← BitVec.or_assoc, ← List.append_assoc]
    cases t <;> rfl
  · rw [BitVec.and_or_distrib_right, hp, he]
    rfl

theorem record (h : RaWrites t n s u) (content : BitVec 4) (bytes : List Byte) :
    RaWrites t (n + 1) s (u.record t content bytes) := by
  obtain ⟨c, p, ws, rfl, hp⟩ := h
  refine ⟨c, p, ws ++ recordRsp t content bytes, ?_, hp⟩
  rw [record_setCtx, ← List.append_assoc]
  rfl

theorem dropChain (h : RaWrites t n s u) : RaWrites t n s (u.dropChain t) := h.setCtx _

theorem raiseOverflow (h : RaWrites t n s u) : RaWrites t n s (u.raiseOverflow t) := h.raise _ _ rfl

theorem raiseOrphan (h : RaWrites t n s u) (fr : Fragment) : RaWrites t n s (u.raise .fragOrphan (orphanInfo t fr)) :=
  h.raise _ _ rfl

theorem abandon (h : RaWrites t n s u) : RaWrites t n s (u.abandon t) :=
  iteInduction (motive := RaWrites t n s) (fun _ => (h.raise _ _ rfl).dropChain) fun _ => h

end RaWrites

/-- RA's writes with at most one record counted. -/
def RaTakes (t : Latency) (s u : State) : Prop := RaWrites t s.counters.records s u ∨ RaWrites t (s.counters.records + 1) s u

/-- Each operation branches on its state: both branches count at most one record. -/
theorem RaTakes.branch {t : Latency} {s u v : State} {c : Prop} [Decidable c] (hu : RaTakes t s u) (hv : RaTakes t s v) :
    RaTakes t s (if c then u else v) :=
  iteInduction (motive := RaTakes t s) (fun _ => hu) fun _ => hv

theorem raTake_raTakes (s : State) (t : Latency) (fr : Fragment) (content : BitVec 4) (data : List Byte) :
    RaTakes t s (s.raTake t fr content data) :=
  have h := RaWrites.start t s
  .branch (.inl h) <|
    match fr with
    | .complete => .branch (.inl h.abandon.raiseOverflow) (.inr (h.abandon.record content data))
    | .first => .branch (.inl h.abandon.raiseOverflow) (.inl (h.abandon.setCtx _))
    | .middle => .branch (.branch (.inl h.raiseOverflow.dropChain) (.inl (h.setCtx _))) (.inl (h.raiseOrphan .middle))
    | .last => .branch (.branch (.inl h.raiseOverflow.dropChain) (.inr (h.record _ _).dropChain)) (.inl (h.raiseOrphan .last))

/-- Settles O57: every fragment's rule writes no more. -/
theorem classesReassembleIndependently : Obligations.ClassesReassembleIndependently := by
  intro s t fr content data
  obtain ⟨c, p, ws, h, hp⟩ | ⟨c, p, ws, h, hp⟩ := raTake_raTakes s t fr content data
  · have hcount : s.counters.records = s.counters.records + 0 := (BitVec.add_zero _).symm
    exact ⟨c, p, 0, ws, hcount ▸ h, .inl rfl, hp⟩
  · exact ⟨c, p, 1, ws, h, .inr rfl, hp⟩

end Sys2Proof.Machine
end

