-- ==== Sys2Proof/Proofs/Fragmenter.lean ====
section
/-! PROOFS. The reference fragmenter (42_reassembly R279), and that reassembling what it makes of a record gives the record back. -/

-- Proofs are elaborated one after another: in parallel, they and the tests' kernel checks exceed the check's memory limit.
set_option deprecated.oldSectionVars true

namespace Sys2Proof.Machine

/-! ## The pieces of a record -/

theorem cutRecord_of_le (fuel : Nat) {b : List Byte} (h : b.length ≤ 2048) : cutRecord fuel b = [b] := by
  cases fuel with
  | zero => rfl
  | succ fuel => exact if_pos h

theorem cutRecord_of_lt (fuel : Nat) {b : List Byte} (h : 2048 < b.length) :
    cutRecord (fuel + 1) b = b.take 2048 :: cutRecord fuel (b.drop 2048) := if_neg (Nat.not_le.mpr h)

theorem cutRecord_ne_nil (fuel : Nat) (b : List Byte) : cutRecord fuel b ≠ [] := by
  cases fuel with
  | zero => exact List.cons_ne_nil _ _
  | succ fuel => exact iteInduction (motive := (· ≠ [])) (fun _ => List.cons_ne_nil _ _) fun _ => List.cons_ne_nil _ _

/-- Cutting loses no byte and keeps the order. -/
@[simp] theorem flatten_cutRecord (fuel : Nat) (b : List Byte) : (cutRecord fuel b).flatten = b := by
  induction fuel generalizing b with
  | zero => exact List.append_nil b
  | succ fuel ih =>
    obtain h | h := Nat.lt_or_ge 2048 b.length
    · rw [cutRecord_of_lt _ h, List.flatten_cons, ih, List.take_append_drop]
    · rw [cutRecord_of_le _ h, List.flatten_singleton]

/-- Every piece but the last is full. -/
theorem map_length_cutRecord {fuel : Nat} {b : List Byte} (hfuel : b.length ≤ fuel) :
    (cutRecord fuel b).map List.length =
      List.replicate ((b.length - 1) / 2048) 2048 ++ [b.length - 2048 * ((b.length - 1) / 2048)] := by
  induction fuel generalizing b with
  | zero =>
    obtain rfl := List.eq_nil_of_length_eq_zero (Nat.le_zero.mp hfuel)
    rfl
  | succ fuel ih =>
    obtain h | h := Nat.lt_or_ge 2048 b.length
    · have hcuts : (b.length - 1) / 2048 = (b.length - 2048 - 1) / 2048 + 1 := by omega
      have hlast : b.length - 2048 * ((b.length - 2048 - 1) / 2048 + 1) =
          b.length - 2048 - 2048 * ((b.length - 2048 - 1) / 2048) := by omega
      rw [cutRecord_of_lt _ h, List.map_cons, ih (by rw [List.length_drop]; omega), List.length_take_of_le h.le,
        List.length_drop, hcuts, hlast, List.replicate_succ, List.cons_append]
    · have hcuts : (b.length - 1) / 2048 = 0 := by omega
      rw [cutRecord_of_le _ h, hcuts]
      rfl

theorem length_cutRecord {fuel : Nat} {b : List Byte} (hfuel : b.length ≤ fuel) :
    (cutRecord fuel b).length = (b.length - 1) / 2048 + 1 := by
  simpa using congrArg List.length (map_length_cutRecord hfuel)

/-! ## Their labels -/

section Labels

variable (rsv : Nat → BitVec 2) (content : BitVec 4)

theorem labelTail_cons (k : Nat) (d : List Byte) {ds : List (List Byte)} (hds : ds ≠ []) :
    labelTail rsv content k (d :: ds) = ⟨.middle, content, rsv k, d⟩ :: labelTail rsv content (k + 1) ds :=
  labelTail.eq_3 rsv content k d ds hds

theorem map_fragment_labelTail (k : Nat) (d : List Byte) (ds : List (List Byte)) :
    (labelTail rsv content k (d :: ds)).map (·.fragment) = List.replicate ds.length .middle ++ [.last] := by
  induction ds generalizing k d with
  | nil => rfl
  | cons e ds ih => exact congrArg (.middle :: ·) (ih (k + 1) e)

theorem map_fragment_labelPieces {k : Nat} : ∀ {ds : List (List Byte)}, ds.length = k + 2 →
    (labelPieces rsv content ds).map (·.fragment) = .first :: (List.replicate k .middle ++ [.last])
  | _ :: e :: ds, hk => by
    obtain rfl : ds.length = k := Nat.add_right_cancel (m := 2) hk
    exact congrArg (Fragment.first :: ·) (map_fragment_labelTail rsv content 1 e ds)

theorem map_data_labelTail (k : Nat) (ds : List (List Byte)) : (labelTail rsv content k ds).map (·.data) = ds := by
  induction k, ds using labelTail.induct with
  | case1 => rfl
  | case2 => rfl
  | case3 k d ds hds ih => rw [labelTail.eq_3 _ _ _ _ _ hds, List.map_cons, ih]

theorem map_data_labelPieces : ∀ ds : List (List Byte), (labelPieces rsv content ds).map (·.data) = ds
  | [] => rfl
  | [_] => rfl
  | d :: e :: ds => congrArg (d :: ·) (map_data_labelTail rsv content 1 (e :: ds))

theorem content_of_mem_labelTail (k : Nat) (ds : List (List Byte)) : ∀ p ∈ labelTail rsv content k ds, p.content = content := by
  induction k, ds using labelTail.induct with
  | case1 => exact List.forall_mem_nil _
  | case2 => exact List.forall_mem_singleton.mpr rfl
  | case3 k d ds hds ih =>
    rw [labelTail_cons rsv content k d hds]
    exact List.forall_mem_cons.mpr ⟨rfl, ih⟩

theorem content_of_mem_labelPieces : ∀ (ds : List (List Byte)), ∀ p ∈ labelPieces rsv content ds, p.content = content
  | [] => List.forall_mem_nil _
  | [_] => List.forall_mem_singleton.mpr rfl
  | _ :: e :: ds => List.forall_mem_cons.mpr ⟨rfl, content_of_mem_labelTail rsv content 1 (e :: ds)⟩

end Labels

/-- Settles O58: the lengths are those of the cuts, and the labels go by position. -/
theorem fragmenterCutsAsTheRuleSays : Obligations.FragmenterCutsAsTheRuleSays := by
  intro rsv content bytes
  have hdata : (fragmentRecord rsv content bytes).map (·.data) = cutRecord bytes.length bytes := map_data_labelPieces rsv content _
  refine ⟨fun hlen => ?_, fun hlen => ?_, ?_, content_of_mem_labelPieces rsv content _⟩
  · rw [fragmentRecord, cutRecord_of_le _ hlen]
    rfl
  · obtain ⟨k, hk⟩ : ∃ k, (bytes.length - 1) / 2048 = k + 1 := ⟨(bytes.length - 1) / 2048 - 1, by omega⟩
    refine ⟨k, by omega, ?_, ?_, by omega, by omega⟩
    · exact map_fragment_labelPieces rsv content (by rw [length_cutRecord le_rfl, hk])
    · calc (fragmentRecord rsv content bytes).map (·.data.length)
        _ = (cutRecord bytes.length bytes).map List.length := by rw [← hdata, List.map_map]; rfl
        _ = 2048 :: (List.replicate k 2048 ++ [bytes.length - 2048 * (k + 1)]) := by
          rw [map_length_cutRecord le_rfl, hk, List.replicate_succ, List.cons_append]
  · rw [List.flatMap_def, hdata, flatten_cutRecord]

/-! ## Reassembling the pieces (R273 to R275, R278) -/

section Reassemble

variable (rsv : Nat → BitVec 2) {s : State} (t : Latency) {content : BitVec 4} (hfill : content ≠ s.fillCode)
include hfill

/-- MIDDLEs and a LAST, taken by an open chain, complete its record. -/
theorem takeAll_labelTail (k : Nat) (d : List Byte) (ds : List (List Byte)) (hactive : (s.ctx t).active = true)
    (hmax : (s.ctx t).buf.length + (d :: ds).flatten.length ≤ s.cfg.maxRecordBytes) :
    takeAll t (labelTail rsv content k (d :: ds)) s =
      (s.record t (s.ctx t).content ((s.ctx t).buf ++ (d :: ds).flatten)).setCtx t ⟨false, (s.ctx t).content, []⟩ := by
  induction ds generalizing s k d with
  | nil =>
    rw [List.flatten_singleton] at hmax ⊢
    exact (raTake_last t d hfill).trans (takeLast_record hactive hmax)
  | cons e ds ih =>
    rw [List.flatten_cons, List.length_append, ← Nat.add_assoc] at hmax
    have hextend : s.raTake t .middle content d = s.setCtx t ⟨true, (s.ctx t).content, (s.ctx t).buf ++ d⟩ :=
      (raTake_middle t d hfill).trans (takeMiddle_extend hactive (Nat.le_of_add_right_le hmax))
    calc takeAll t (labelTail rsv content k (d :: e :: ds)) s
      _ = takeAll t (labelTail rsv content (k + 1) (e :: ds)) (s.setCtx t ⟨true, (s.ctx t).content, (s.ctx t).buf ++ d⟩) :=
        congrArg (takeAll t _) hextend
      _ = (s.record t (s.ctx t).content ((s.ctx t).buf ++ (d :: e :: ds).flatten)).setCtx t ⟨false, (s.ctx t).content, []⟩ := by
        rw [ih (by simpa using hfill) (k + 1) e (by simp) (by simpa using hmax)]
        simp only [ctx_setCtx_self, record_setCtx, setCtx_setCtx, List.flatten_cons, List.append_assoc]

/-- The labelled pieces of a record, taken by an idle context, give the record and leave the context idle. -/
theorem takeAll_labelPieces (hactive : (s.ctx t).active = false) (hbuf : (s.ctx t).buf = []) :
    ∀ {ds : List (List Byte)}, ds ≠ [] → ds.flatten.length ≤ s.cfg.maxRecordBytes →
    ∃ c : Context, c.active = false ∧ c.buf = [] ∧
      takeAll t (labelPieces rsv content ds) s = (s.record t content ds.flatten).setCtx t c
  | [], hne, _ => absurd rfl hne
  | [d], _, hmax => by
    rw [List.flatten_singleton] at hmax ⊢
    refine ⟨s.ctx t, hactive, hbuf, ?_⟩
    calc s.raTake t .complete content d
      _ = s.record t content d := by rw [raTake_complete t d hfill, takeComplete_record content hmax, abandon_idle s hactive]
      _ = (s.record t content d).setCtx t (s.ctx t) := by rw [← record_setCtx, setCtx_ctx_self]
  | d :: e :: ds, _, hmax => by
    rw [List.flatten_cons, List.length_append] at hmax
    have hopen : s.raTake t .first content d = s.setCtx t ⟨true, content, d⟩ := by
      rw [raTake_first t d hfill, takeFirst_open content (Nat.le_of_add_right_le hmax), abandon_idle s hactive]
    refine ⟨⟨false, content, []⟩, rfl, rfl, ?_⟩
    calc takeAll t (labelPieces rsv content (d :: e :: ds)) s
      _ = takeAll t (labelTail rsv content 1 (e :: ds)) (s.setCtx t ⟨true, content, d⟩) := congrArg (takeAll t _) hopen
      _ = (s.record t content (d :: e :: ds).flatten).setCtx t ⟨false, content, []⟩ := by
        rw [takeAll_labelTail rsv t (by simpa using hfill) 1 e ds (by simp) (by simpa using hmax)]
        simp only [ctx_setCtx_self, record_setCtx, setCtx_setCtx, List.flatten_cons]

end Reassemble

/-- Settles O59: the pieces' bytes, joined, are the record. -/
theorem fragmentedRecordReassembles : Obligations.FragmentedRecordReassembles := by
  intro rsv s t content bytes hfill hmax hactive hbuf
  have hjoin := flatten_cutRecord bytes.length bytes
  obtain ⟨c, hcactive, hcbuf, htaken⟩ :=
    takeAll_labelPieces rsv t hfill hactive hbuf (cutRecord_ne_nil bytes.length bytes) (hjoin.symm ▸ hmax)
  rw [hjoin] at htaken
  exact ⟨c, hcactive, hcbuf, htaken⟩

end Sys2Proof.Machine
end

