-- ==== Sys2Proof/Proofs/Control.lean ====
section
/-! PROOFS. NOP, SRST, CSRR and CSRW (43_control R300 to R303). -/

-- Proofs are elaborated one after another: in parallel, they and the tests' kernel checks exceed the check's memory limit.
set_option deprecated.oldSectionVars true

namespace Sys2Proof.Machine

/-! ## Commands the table build does not hold (R372) -/

/-- With a reserved bit set, such a command is only rejected (R116). -/
theorem exec_of_unheld_reserved {i : Instr} (s : State) (hheld : held i.opcode = false) (hset : i.reservedZero = false) :
    exec i s = .next (s.rejectReserved i.opcode) := by
  rw [exec_of_ready fun h => absurd h (Bool.eq_false_iff.mp hheld), hset, whenReservedZero_set]

/-- Settles O25: NOP only has its words consumed. -/
theorem nopDoesNothing : Obligations.NopDoesNothing := fun s =>
  ⟨rfl, fun _ hrsv => exec_of_unheld_reserved s rfl (beq_false_of_ne hrsv)⟩

/-- Settles O26: the soft reset writes the parser's fields and the two contexts. -/
theorem srstClearsParserAndContexts : Obligations.SrstClearsParserAndContexts := fun s =>
  ⟨rfl, fun _ hrsv => exec_of_unheld_reserved s rfl (beq_false_of_ne hrsv)⟩

/-! ## The CSR addresses (10_state R49) -/

theorem csrAt_eq_some_iff {a : BitVec 8} {c : Csr} : csrAt a = some c ↔ a = c.addr := by
  constructor
  · intro h
    unfold csrAt at h
    split at h <;> cases h <;> exact BitVec.eq_of_toNat_eq ‹_›
  · rintro rfl
    cases c <;> rfl

theorem mem_allCsrs (c : Csr) : c ∈ allCsrs := by
  cases c <;> decide

theorem csrAt_eq_none {a : BitVec 8} (ha : a ∉ allCsrs.map Csr.addr) : csrAt a = none := by
  refine Option.eq_none_iff_forall_ne_some.mpr fun c hc => ha ?_
  rw [csrAt_eq_some_iff.mp hc]
  exact List.mem_map_of_mem (mem_allCsrs c)

/-! ## CSRR (R302) -/

theorem csrrHead_eq_or (a : BitVec 8) : csrrHead a = 0xC0000000#32 ||| a.setWidth 32 :=
  (BitVec.setWidth_eq _).symm.trans BitVec.setWidth_append_eq_shiftLeft_setWidth_or

/-- The EVT word of CSR_UNIMPL (30_encoding R127). -/
theorem evtRsp_csrUnimpl (a : BitVec 8) : evtRsp 0x04 (a.setWidth 16) = 0xE0040000#32 ||| a.setWidth 32 := by
  rw [evtRsp_op]
  exact (BitVec.setWidth_eq _).symm.trans BitVec.setWidth_append_eq_shiftLeft_setWidth_or

theorem retire_csrValue (s : State) (c : Csr) : s.retire.csrValue c = s.csrValue c := by
  cases c <;> rfl

theorem exec_csrr_implemented (s : State) (c : Csr) : exec (.csrr 0 c.addr) s = .next { s with
    cmdPart := []
    rspOut := s.rspOut ++ [0xC0000000#32 ||| c.addr.setWidth 32, s.csrValue c] } := by
  have hread : s.retire.csrRead c.addr = s.retire.emitAll [csrrHead c.addr, s.csrValue c] := by
    rw [State.csrRead, csrAt_eq_some_iff.mpr rfl, ← retire_csrValue]
  rw [← csrrHead_eq_or]
  exact congrArg Host.Outcome.next hread

theorem exec_csrr_unimplemented (s : State) {a : BitVec 8} (ha : a ∉ allCsrs.map Csr.addr) :
    exec (.csrr 0 a) s = .next { s with
      cmdPart := []
      evtPending := s.evtPending ||| 0x00000008
      rspOut := s.rspOut ++ (if s.evtOutEn then [0xE0040000#32 ||| a.setWidth 32] else [])
        ++ [0xC0000000#32 ||| a.setWidth 32, 0] } := by
  have hread : s.retire.csrRead a = (s.retire.raise .csrUnimpl (a.setWidth 16)).emitAll [csrrHead a, 0] := by
    rw [State.csrRead, csrAt_eq_none ha]
  rw [← csrrHead_eq_or, ← evtRsp_csrUnimpl]
  rw [raise_eq] at hread
  exact congrArg Host.Outcome.next hread

/-- Settles O22: the table of addresses and values is that of the implemented CSRs. -/
theorem csrrAnswersTheValue : Obligations.CsrrAnswersTheValue := by
  refine fun s a => ⟨fun v hv => ?_, fun c _ haddr => haddr ▸ exec_csrr_implemented s c, exec_csrr_unimplemented s,
    fun _ hrsv => exec_of_unheld_reserved s rfl (beq_false_of_ne hrsv)⟩
  change (a, v) ∈ allCsrs.map fun c => (c.addr, s.csrValue c) at hv
  obtain ⟨c, -, hc⟩ := List.mem_map.mp hv
  cases hc
  exact exec_csrr_implemented s c

/-! ## CSRW (R303) -/

/-- Masking the bits above a field does not change what is written to it. -/
theorem setWidth_and_mask (v : Word) {k : Nat} {m : Word} (hm : m.setWidth k = BitVec.allOnes k) :
    (v &&& m).setWidth k = v.setWidth k := by
  rw [BitVec.setWidth_and, hm, BitVec.and_allOnes]

theorem exec_csrw_implemented (s : State) (c : Csr) (v : Word) :
    exec (.csrw 0 c.addr v) s = .next (s.retire.csrWrite c v) :=
  congrArg Host.Outcome.next (csrWriteAt_addr s.retire c v)

theorem exec_csrw_unimplemented (s : State) {a : BitVec 8} (v : Word) (ha : a ∉ allCsrs.map Csr.addr) :
    exec (.csrw 0 a v) s = .next (s.retire.raise .csrUnimpl (a.setWidth 16)) := by
  have hwrite : s.retire.csrWriteAt a v = s.retire.raise .csrUnimpl (a.setWidth 16) := by
    rw [State.csrWriteAt, csrAt_eq_none ha]
  exact congrArg Host.Outcome.next hwrite

theorem writePtfrLen_legal (s : State) {v : Word} (hv : 5 ≤ v.toNat ∧ v.toNat ≤ 2051) :
    s.writePtfrLen v = { s with ptfrLen := v.setWidth 12 } := if_pos hv

theorem writePtfrLen_illegal (s : State) {v : Word} (hv : ¬ (5 ≤ v.toNat ∧ v.toNat ≤ 2051)) :
    s.writePtfrLen v = s.raise .csrWriteIgnored 0x03 := if_neg hv

/-- The read-only CSRs (10_state section 3). -/
theorem exec_csrw_readOnly (s : State) (v : Word) {a : BitVec 8}
    (ha : a ∈ [0x00#8, 0x02#8, 0x10#8, 0x11#8, 0x12#8, 0x13#8, 0x14#8, 0x15#8]) :
    exec (.csrw 0 a v) s = .next (s.retire.raise .csrWriteIgnored (a.setWidth 16)) := by
  fin_cases ha
  exacts [exec_csrw_implemented s .id v, exec_csrw_implemented s .status v, exec_csrw_implemented s .cntFrames v,
    exec_csrw_implemented s .cntPtdps v, exec_csrw_implemented s .cntRecords v, exec_csrw_implemented s .cntCorrBits v,
    exec_csrw_implemented s .cntUncorr v, exec_csrw_implemented s .cntLenErr v]

/-- Settles O23: an implemented address writes its CSR, and every other one raises CSR_UNIMPL. -/
theorem csrwWritesByAddress : Obligations.CsrwWritesByAddress := by
  intro s v
  have hctrl : (v &&& 0x1F).setWidth 5 = v.setWidth 5 := setWidth_and_mask v (by decide)
  have hfill : (v &&& 0xF).setWidth 4 = v.setWidth 4 := setWidth_and_mask v (by decide)
  rw [hctrl, hfill]
  exact ⟨exec_csrw_implemented s .ctrl v,
    fun hv => congrArg Host.Outcome.next (writePtfrLen_legal s.retire hv),
    fun hv => congrArg Host.Outcome.next (writePtfrLen_illegal s.retire hv),
    exec_csrw_implemented s .fillCode v, exec_csrw_implemented s .evtPending v, exec_csrw_implemented s .evtEnable v,
    exec_csrw_implemented s .cntClr v, fun _ => exec_csrw_readOnly s v, fun _ => exec_csrw_unimplemented s v,
    fun _ _ hrsv => exec_of_unheld_reserved s rfl (beq_false_of_ne hrsv)⟩

end Sys2Proof.Machine
end

