-- ==== Sys2Proof/Proofs/Events.lean ====
section
/-! PROOFS. Events: the table of R331, what raising one does (R332), and that a pending bit stays until the host clears it (R336). -/

-- Proofs are elaborated one after another: in parallel, they and the tests' kernel checks exceed the check's memory limit.
set_option deprecated.oldSectionVars true

namespace Sys2Proof.Machine

/-! ## The event table (60_exceptions R331) -/

/-- The events in the order of R331's table. -/
def allEvents : List Event :=
  [.illegalCmd, .reservedNonzero, .csrWriteIgnored, .csrUnimpl, .ptdpLengthError, .ptdpIncomplete, .golayUncorrectable,
    .offsetMismatch, .offsetOutOfRange, .badLlpMarker, .missingLlpMarker, .llpStateMismatch, .llpIncomplete, .fragOrphan,
    .fragAbandoned, .recordOverflow]

theorem mem_allEvents (e : Event) : e ∈ allEvents := by
  cases e <;> decide

theorem eventCode_injective : Function.Injective Event.code := fun e e' h =>
  List.inj_on_of_nodup_map (by decide : (allEvents.map Event.code).Nodup) (mem_allEvents e) (mem_allEvents e') h

theorem eventBit_injective : Function.Injective Event.bit := fun e e' h =>
  List.inj_on_of_nodup_map (by decide : (allEvents.map Event.bit).Nodup) (mem_allEvents e) (mem_allEvents e') h

/-- An event's bit is one of the implemented bits of EVT_PENDING (10_state R45). -/
theorem evtMask_bit (e : Event) : evtMask.getLsbD e.bit = true :=
  (by decide : ∀ e ∈ allEvents, evtMask.getLsbD e.bit = true) e (mem_allEvents e)

/-- Settles O18: the table's codes, and its bits, have no duplicates. -/
theorem eventCodesAndBits : Obligations.EventCodesAndBits :=
  ⟨rfl, fun _ _ hcode => eventCode_injective hcode, fun _ _ hbit => eventBit_injective hbit, evtMask_bit⟩

/-! ## Raising an event (60_exceptions R332) -/

/-- The EVT word as an `or` of its three fields (30_encoding R127). -/
theorem evtRsp_eq_or (code : BitVec 8) (info : BitVec 16) :
    evtRsp code info = 0xE0000000#32 ||| (code.setWidth 32 <<< 16) ||| info.setWidth 32 := by
  have hhead : (0xE0#8 ++ code).setWidth 32 <<< 16 = 0xE0000000#32 ||| code.setWidth 32 <<< 16 := by
    rw [BitVec.setWidth_append_eq_shiftLeft_setWidth_or, BitVec.shiftLeft_or_distrib]
    rfl
  calc evtRsp code info
    _ = (0xE0#8 ++ code ++ info).setWidth 32 := (BitVec.setWidth_eq _).symm
    _ = (0xE0#8 ++ code).setWidth 32 <<< 16 ||| info.setWidth 32 := BitVec.setWidth_append_eq_shiftLeft_setWidth_or
    _ = _ := by rw [hhead]

/-- Settles O17: `raise_eq`, with the bit and the EVT word written out. -/
theorem raiseSetsPendingAndEmits : Obligations.RaiseSetsPendingAndEmits := by
  intro s e info
  rw [raise_eq, evtWords, evtRsp_eq_or, BitVec.twoPow_eq, State.evtOutEn]

/-! ## Pending bits stay set (60_exceptions R336) -/

/-- Every event pending in `s` is pending in `t`. -/
def KeepsPending (s t : State) : Prop := t.evtPending &&& s.evtPending = s.evtPending

theorem KeepsPending.of_or {s t : State} {p : Word} (h : t.evtPending = s.evtPending ||| p) : KeepsPending s t := by
  rw [KeepsPending, h]
  ext k hk
  rw [BitVec.getElem_and, BitVec.getElem_or, Bool.and_comm]
  exact inf_sup_self

theorem KeepsPending.of_eq {s t : State} (h : t.evtPending = s.evtPending) : KeepsPending s t :=
  .of_or (h.trans BitVec.or_zero.symm)

theorem KeepsPending.raise (s : State) (e : Event) (info : BitVec 16) : KeepsPending s (s.raise e info) :=
  .of_or (raise_evtPending s e info)

theorem FrameWrites.keepsPending {s t : State} (h : FrameWrites s t) : KeepsPending s t := by
  obtain ⟨_, _, _, _, _, _, _, _, _, rfl, -⟩ := h
  exact .of_or rfl

theorem csrRead_keepsPending (s : State) (a : BitVec 8) : KeepsPending s (s.csrRead a) := by
  rw [State.csrRead]
  cases csrAt a with
  | some c => exact .of_eq rfl
  | none => exact .raise s _ _

/-- Writing a CSR other than EVT_PENDING clears no pending bit (43_control R303). -/
theorem csrWrite_keepsPending (s : State) {c : Csr} (hc : c ≠ .evtPending) (v : Word) : KeepsPending s (s.csrWrite c v) := by
  cases c with
  | evtPending => exact absurd rfl hc
  | id | status | cntFrames | cntPtdps | cntRecords | cntCorrBits | cntUncorr | cntLenErr => exact .raise s _ _
  | ctrl | fillCode | evtEnable | cntClr => exact .of_eq rfl
  | ptfrLen => exact iteInduction (motive := KeepsPending s) (fun _ => .of_eq rfl) fun _ => .raise s _ _

theorem csrWriteAt_keepsPending (s : State) {a : BitVec 8} (ha : a ≠ 0x08) (v : Word) :
    KeepsPending s (s.csrWriteAt a v) := by
  rw [State.csrWriteAt]
  cases hat : csrAt a with
  | some c =>
    obtain rfl := csrAt_eq_some_iff.mp hat
    exact csrWrite_keepsPending s (fun hc => ha (congrArg Csr.addr hc)) v
  | none => exact .raise s _ _

/-- The work of a command that is no write to address 0x08 clears no pending bit. -/
theorem afterCommand_keepsPending (s : State) {i : Instr} (hi : ∀ rsv v, i ≠ .csrw rsv 0x08 v) :
    KeepsPending s (afterCommand s i) := by
  cases i with
  | nop | genc | gdec | gerr | srst => exact .of_eq rfl
  | frame rsv f => exact (frameWrites_parseFrame s f).keepsPending
  | csrr rsv a => exact csrRead_keepsPending s.retire a
  | csrw rsv a v => exact csrWriteAt_keepsPending s.retire (fun ha => hi rsv v (congrArg (Instr.csrw rsv · v) ha)) v

/-- Settles O20: a held or rejected command clears nothing, nor does one that runs, but for the write to EVT_PENDING. -/
theorem pendingBitsAreSticky : Obligations.PendingBitsAreSticky := by
  intro s t i hexec
  obtain ⟨-, rfl⟩ | ⟨-, rfl⟩ | ⟨hzero, rfl⟩ := exec_effect hexec
  · exact .inl (KeepsPending.of_eq rfl)
  · exact .inl (KeepsPending.raise s.retire _ _)
  · by_cases hi : ∃ rsv v, i = .csrw rsv 0x08 v
    · obtain ⟨rsv, v, rfl⟩ := hi
      obtain rfl : rsv = 0 := eq_of_beq hzero
      exact .inr ⟨v, rfl, rfl⟩
    · exact .inl (afterCommand_keepsPending s fun rsv v h => hi ⟨rsv, v, h⟩)

end Sys2Proof.Machine
end

