-- ==== Sys2Proof/Proofs/Reset.lean ====
section
/-! PROOFS. Reset and instantiation (70_reset_and_hazards R370, R380), and the table build: how it goes on along a run and which
commands it holds (R371, R372). -/

-- Proofs are elaborated one after another: in parallel, they and the tests' kernel checks exceed the check's memory limit.
set_option deprecated.oldSectionVars true

namespace Sys2Proof.Machine

/-! ## The table build along a run (10_state R34, 70_reset_and_hazards R371) -/

/-- The table store after `k` more steps. -/
def GuTables.afterSteps (k : Nat) : GuTables → GuTables
  | .building n => if k ≤ n then .building (n - k) else .built
  | .built => .built

theorem afterSteps_zero (g : GuTables) : g.afterSteps 0 = g := by
  cases g with
  | building n => exact if_pos (e := .built) n.zero_le
  | built => rfl

/-- The first of the steps is the tick at a step's beginning. -/
theorem buildTick_afterSteps (s : State) (k : Nat) : s.buildTick.tables.afterSteps k = s.tables.afterSteps (k + 1) := by
  rw [buildTick_tables]
  cases s.tables with
  | built => rfl
  | building n =>
    cases n with
    | zero => simp [GuTables.afterSteps]
    | succ n => simp only [GuTables.afterSteps, Nat.add_le_add_iff_right, Nat.add_sub_add_right]

theorem CommandEffect.tables {s t : State} {i : Instr} (h : CommandEffect s i t) : t.tables = s.tables := by
  obtain ⟨p, part, r, rfl⟩ | ⟨-, ws, p, k, rk, rm, ps, lp, hc, lc, rfl, -⟩ | ⟨-, rfl⟩ |
      ⟨-, c, l, f, p, e, k, part, r, rfl⟩ := h.writes <;> rfl

/-- Whatever a step does, all it does to the tables is its one step of the build. -/
theorem step_tables {s t : State} (h : step s = .next t) : t.tables = s.buildTick.tables := by
  have hpoll : s.poll.tables = s.buildTick.tables := receive_tables s.buildTick
  obtain rfl | ⟨op, rfl⟩ | ⟨i, heffect⟩ := step_next h
  · exact hpoll
  · exact (raise_tables _ _ _).trans hpoll
  · exact heffect.tables.trans hpoll

/-- A run of one step more is a step and the run from there. -/
theorem run_succ_next {M : Host.Core} {k : Nat} {s t : M.State} (h : M.run (k + 1) s = .next t) :
    ∃ u, M.step s = .next u ∧ M.run k u = .next t := by
  rw [Host.Core.run] at h
  split at h
  · next u hstep => exact ⟨u, hstep, h⟩
  · cases h
  · cases h

/-- A run goes on with the build by one step at each of its steps, and does nothing else to the tables. -/
theorem run_tables {k : Nat} {s t : State} (h : Host.Core.run core k s = .next t) : t.tables = s.tables.afterSteps k := by
  induction k generalizing s with
  | zero =>
    cases h
    exact (afterSteps_zero _).symm
  | succ k ih =>
    obtain ⟨u, hstep, hrun⟩ := run_succ_next h
    rw [ih hrun, step_tables hstep, buildTick_afterSteps]

/-- Settles O16: the tables after `k` steps are those of the build alone. -/
theorem tableBuildEnds : Obligations.TableBuildEnds := by
  intro k n s t hrun
  rw [run_tables hrun]
  refine ⟨fun hs hle => ?_, fun hs hlt => ?_, fun hs => ?_⟩ <;> rw [hs]
  · exact if_pos hle
  · exact if_neg (Nat.not_le_of_lt hlt)
  · rfl

/-! ## The commands the build holds (70_reset_and_hazards R372) -/

/-- A step with the words of a command at the front of the stream is that command, after one step of the build. -/
theorem step_of_encoded {s : State} {i : Instr} {rest : List Word} (hfits : i.fits s.ptfrLen.toNat)
    (hw : s.cmdPart ++ s.cmdIn = encode i ++ rest) :
    step s = exec i { s.buildTick with cmdPart := encode i, cmdIn := rest } :=
  stepRunsTheDecodedCommand s i (encode i) rest hw (decodeOfEncodeIsTheCommand _ i rest hfits)

/-- Only a FRAME, which is held, can have an illegal length. -/
theorem lengthLegal_of_unheld {i : Instr} (hheld : held i.opcode = false) : i.lengthLegal = true := by
  cases i with
  | frame => cases hheld
  | nop | genc | gdec | gerr | srst | csrr | csrw => rfl

/-- A command of legal length that the build does not hold has its words consumed, and leaves the tables as they are. -/
theorem exec_consumes_of_ready {s : State} {i : Instr} (hready : held i.opcode = true → s.tables = .built)
    (hlength : i.lengthLegal = true) :
    ∃ t, exec i s = .next t ∧ t.tables = s.tables ∧ t.cmdPart = [] ∧ t.cmdIn = s.cmdIn := by
  obtain ⟨t, hexec⟩ | ⟨hillegal, -⟩ := exec_nextOrIllFormed i s
  · obtain ⟨hheld, hbuilding, -⟩ | hwords := exec_words hexec
    · exact absurd (hready hheld) hbuilding
    · exact ⟨t, hexec, (exec_effect hexec).tables, hwords⟩
  · cases hlength.symm.trans hillegal

/-- Settles O15: the step is the command's `exec` after one step of the build, and the tables then decide whether it is held. -/
theorem tableBuildHoldsGolayAndFrame : Obligations.TableBuildHoldsGolayAndFrame := by
  intro s i rest n hfits hw
  rw [step_of_encoded hfits hw]
  refine ⟨fun hs hheld => ?_, fun hs hheld => ?_, fun hs hlength => ?_⟩ <;>
    simp only [State.buildTick, hs]
  · exact exec_of_held hheld nofun
  · exact exec_consumes_of_ready (fun h => absurd h (Bool.eq_false_iff.mp hheld)) (lengthLegal_of_unheld hheld)
  · exact exec_consumes_of_ready (fun _ => rfl) hlength

/-! ## Reset (70_reset_and_hazards R370) -/

theorem atReset_eq_built_iff (c : Config) : GuTables.atReset c = .built ↔ c.tableBuild = .rom := by
  rw [GuTables.atReset]
  cases c.tableBuild with
  | rom => exact ⟨fun _ => rfl, fun _ => rfl⟩
  | build => exact ⟨nofun, nofun⟩

theorem limitsValid_iff (c : Config) : limitsValid c = true ↔
    (5 ≤ c.ptfrLenReset ∧ c.ptfrLenReset ≤ 2051) ∧ (1 ≤ c.maxRecordBytes ∧ c.maxRecordBytes ≤ 1048575) ∧
      c.fillCodeReset < 16 := by
  simp only [limitsValid, Bool.and_eq_true, decide_eq_true_eq, and_assoc]

/-- A CSR of `w` bits whose reset value fits reads that value. -/
theorem toNat_setWidth_ofNat {w n : Nat} (hw : w ≤ 32) (hn : n < 2 ^ w) : ((BitVec.ofNat w n).setWidth 32).toNat = n := by
  rw [BitVec.toNat_setWidth_of_le hw, BitVec.toNat_ofNat, Nat.mod_eq_of_lt hn]

/-- Settles O1: the tables and STATUS follow TABLE_BUILD, the two configured CSRs fit their width, and the others are fixed. -/
theorem resetGivesSpecValues : Obligations.ResetGivesSpecValues := by
  intro s hlimits
  obtain ⟨⟨-, hlen⟩, -, hfill⟩ := (limitsValid_iff s.cfg).mp hlimits
  have htables := atReset_eq_built_iff s.cfg
  exact ⟨htables, (tablesReady_iff s.assertRst).trans htables, rfl, rfl, resetWith_status s.cfg,
    toNat_setWidth_ofNat (by decide) (hlen.trans_lt (by decide)), toNat_setWidth_ofNat (by decide) hfill,
    rfl, rfl, rfl, rfl, rfl, rfl, rfl, rfl, rfl, rfl, rfl, rfl, rfl, rfl, rfl, rfl, irqIsPendingAndEnabled.2 s.cfg⟩

/-! ## Instantiation (70_reset_and_hazards R380) -/

theorem configValid_iff (c : Config) : configValid c = true ↔
    (∀ d : BitVec 12, d ≠ 0 → 8 ≤ popcount (encT c.gP d)) ∧ (∀ d : BitVec 12, mulM (par c.gP d) (hPOf c.gP) = d) ∧
      (5 ≤ c.ptfrLenReset ∧ c.ptfrLenReset ≤ 2051) ∧ (1 ≤ c.maxRecordBytes ∧ c.maxRecordBytes ≤ 1048575) ∧
      c.fillCodeReset < 16 := by
  rw [configValid, Bool.and_eq_true, golayValid_iff, limitsValid_iff, and_assoc]

/-- Settles O2: the two lists are `configValid` and its negation. -/
theorem instantiateRefusesBadConfigurations : Obligations.InstantiateRefusesBadConfigurations := by
  refine fun c => ⟨fun hbad => if_neg fun hvalid => ?_, fun hgood => if_pos ((configValid_iff c).mpr hgood)⟩
  obtain ⟨hweight, hinverse, hlen, hmax, hfill⟩ := (configValid_iff c).mp hvalid
  obtain ⟨d, hd, hlight⟩ | ⟨d, hd⟩ | hlen' | hmax' | hfill' := hbad
  · exact absurd (hweight d hd) (Nat.not_le_of_lt hlight)
  · exact hd (hinverse d)
  · exact hlen' hlen
  · exact hmax' hmax
  · exact hfill' hfill

end Sys2Proof.Machine
end
